-- ==== Sys2Proof/Word.lean ====
section
/-! DEFINITION. The word types of the HUFF core and their plainest arithmetic
(00_scope.md R10, R11, R13: bit 0 is the least significant bit, every value is unsigned). -/

namespace Sys2Proof

/-- One byte of a message or of a packed bitstream (STREAM_W = 8, R11). -/
abbrev Byte := BitVec 8

/-- One word of the register bus (BUS_W = 32, R11). -/
abbrev Word := BitVec 32

/-- A frequency counter, and the 64-bit counts BITCNT, OUTCNT, ERRPOS (R10, R11). -/
abbrev Count := BitVec 64

/-- A node weight (WEIGHT_W = 72, R11). -/
abbrev Weight := BitVec 72

/-- A node index (NODE_IDX_W = 9, R11, R116). -/
abbrev NodeIdx := BitVec 9

/-- A code vector: bit j is code character j (R56, R118). -/
abbrev CodeBits := BitVec 256

/-- One bit as a bit vector of width one. -/
abbrev bit (b : Bool) : BitVec 1 := BitVec.ofBool b

/-- The number of bytes that hold `n` bits: ceil(n / 8) (R14, R123). -/
abbrev ceilDiv8 (n : Nat) : Nat := (n + 7) / 8

end Sys2Proof
end

