-- ==== Sys2Proof/Config.lean ====
section
/-! DEFINITION. What is fixed for the machine: the parameters of 00_scope.md R10 and R11, and the
free values that the spec calls draws. -/

namespace Sys2Proof.Config

/-- RANGE_SIZE (R10): the number of byte values, the size of FREQ and of CODE. -/
abbrev rangeSize : Nat := 256

/-- NODE_COUNT (R11): the entries of the node arena, indices 0..510. -/
abbrev nodeCount : Nat := 511

/-- MAX_CODE_LEN (R10): the longest code a table entry can hold. -/
abbrev maxCodeLen : Nat := 255

/-- NULL (R11, R116): the node index that means "no node". -/
abbrev null : NodeIdx := 0x1FF#9

/-- The largest value of a frequency counter, 2^64 − 1 (R171). -/
abbrev maxCount : Count := BitVec.allOnes 64

/-- ID (R24): the constant the ID register reads. -/
abbrev idValue : Word := 0x48554646#32

/-- A draw (20_memory.md R85; 93_implementation_defined.md I1, I11): the value the `n`-th unspecified
register read returns, a free 32-bit value under no law.
FREE VALUE (assumption 5): it has no body, so no proof can depend on what it is. -/
opaque draw : Nat → Word

end Sys2Proof.Config
end

