-- ==== Sys2Proof/Syntax.lean ====
section
/-! DEFINITION. The syntax: the six commands (30_encoding.md R112) and the names of the host-visible
registers (10_state.md R23). No command has an operand field (R111, R113). -/

namespace Sys2Proof

/-- The commands of the HUFF core, one constructor for each row of spec/opcode_table.json (R3, R112). -/
inductive Instr where
  /-- INIT (R157): return the coder instance to its created-empty state. -/
  | init
  /-- RECORD (R170): count the bytes of a message into FREQ. -/
  | record
  /-- BUILD_TREE (R194): build the Huffman tree from FREQ. -/
  | buildTree
  /-- BUILD_CODES (R220): derive every present byte's code from the tree. -/
  | buildCodes
  /-- COMPRESS (R240): encode LEN message bytes into a packed bitstream. -/
  | compress
  /-- DECOMPRESS (R260): decode BITCNT bits of a packed bitstream back into bytes. -/
  | decompress
  deriving DecidableEq, Repr

/-- The register that a word of the register space holds (R23); every word from 0x74 up is reserved (R50). -/
inductive Reg where
  | id | cmd | status | ack | irqEn | len
  | bitcntLo | bitcntHi | outcntLo | outcntHi
  | errinfo | errposLo | errposHi | ndistinct
  | freqIdx | freqLo | freqHi | treeInfo
  | nodeIdx | nodeInfo | nodeLink0 | nodeLink1 | nodeW0 | nodeW1 | nodeW2
  | codeIdx | codeWsel | codeInfo | codeWord
  | reserved
  deriving DecidableEq, Repr

end Sys2Proof
end

