-- ==== Sys2Proof/WellFormed.lean ====
section
/-! DEFINITION. Which command words are well formed (30_encoding.md R111, R114). A command of `Instr`
has no operand, so every term of `Instr` is well formed; what can be ill formed is the 32-bit word the
host writes to CMD. -/

namespace Sys2Proof

/-- RSVD, bits [31:4] of a command word (R111). -/
def cmdRsvd (w : Word) : BitVec 28 := w.extractLsb' 4 28

/-- OP, bits [3:0] of a command word (R111). -/
def cmdOp (w : Word) : BitVec 4 := w.extractLsb' 0 4

/-- A legal command word (R112, R114): RSVD = 0 and OP one of 0x1..0x6. -/
def wellFormedWord (w : Word) : Bool :=
  cmdRsvd w == 0#28 && decide (1 ≤ (cmdOp w).toNat) && decide ((cmdOp w).toNat ≤ 6)

end Sys2Proof
end

