-- ==== Sys2Proof/Decode.lean ====
section
/-! DEFINITION. Decoding a command word and a register offset, and the encoder of command words
(30_encoding.md R111, R112, R114, R115; 10_state.md R23; 20_memory.md R81). -/

namespace Sys2Proof

/-- The command a word of CMD encodes, or `none` for an illegal word (R112, R114). Total (R115). -/
def decode (w : Word) : Option Instr :=
  if cmdRsvd w = 0#28 then
    match (cmdOp w).toNat with
    | 1 => some .init
    | 2 => some .record
    | 3 => some .buildTree
    | 4 => some .buildCodes
    | 5 => some .compress
    | 6 => some .decompress
    | _ => none
  else none

/-- The opcode of a command (R112). -/
def opcode : Instr → BitVec 4
  | .init => 0x1#4
  | .record => 0x2#4
  | .buildTree => 0x3#4
  | .buildCodes => 0x4#4
  | .compress => 0x5#4
  | .decompress => 0x6#4

/-- The command word of a command: OP in bits [3:0], every reserved bit 0 (R111, R112). -/
def encode (i : Instr) : Word := 0#28 ++ opcode i

/-- What the decoder reads from a word of `nbits` bits as spec/opcode_table.json numbers them; a
command word is 32 bits and the bits above `nbits` are 0. The CMD register has no byte-addressed
view, so no byte order enters (20_memory.md R82; assumption 8). -/
def decodeTableWord (nbits w : Nat) : Option Instr :=
  decode (BitVec.ofNat 32 (w % 2 ^ nbits))

/-- The register at a byte offset: bits [7:2] select the word, bits [1:0] are ignored (R81, R23). -/
def regOf (off : BitVec 8) : Reg :=
  match (off.extractLsb' 2 6).toNat with
  | 0x00 => .id
  | 0x01 => .cmd
  | 0x02 => .status
  | 0x03 => .ack
  | 0x04 => .irqEn
  | 0x05 => .len
  | 0x06 => .bitcntLo
  | 0x07 => .bitcntHi
  | 0x08 => .outcntLo
  | 0x09 => .outcntHi
  | 0x0A => .errinfo
  | 0x0B => .errposLo
  | 0x0C => .errposHi
  | 0x0D => .ndistinct
  | 0x0E => .freqIdx
  | 0x0F => .freqLo
  | 0x10 => .freqHi
  | 0x11 => .treeInfo
  | 0x12 => .nodeIdx
  | 0x13 => .nodeInfo
  | 0x14 => .nodeLink0
  | 0x15 => .nodeLink1
  | 0x16 => .nodeW0
  | 0x17 => .nodeW1
  | 0x18 => .nodeW2
  | 0x19 => .codeIdx
  | 0x1A => .codeWsel
  | 0x1B => .codeInfo
  | 0x1C => .codeWord
  | _ => .reserved

end Sys2Proof
end

