-- ==== Sys2Proof/Machine/State.lean ====
section
/-! DEFINITION. The state of the HUFF core (10_state.md), the ways a step can stop, and the state after
reset (R64). All plain data. -/

namespace Sys2Proof.Machine

open Sys2Proof

/-- NODE[i].kind (R52); NODE_INFO.KIND encodes LEAF as 0 and INTERNAL as 1 (R116). -/
inductive NodeKind where
  | leaf
  | internal
  deriving DecidableEq, Repr

/-- One entry of the node arena (R52). -/
structure Node where
  kind : NodeKind
  value : Byte
  weight : Weight
  left : NodeIdx
  right : NodeIdx
  parent : NodeIdx
  deriving DecidableEq, Repr

/-- One entry of the code table (R56). -/
structure CodeEntry where
  present : Bool
  len : BitVec 8
  bits : CodeBits
  deriving DecidableEq, Repr

/-- An absent entry of the code table (R56): present = 0, len = 0, bits = 0. -/
def CodeEntry.absent : CodeEntry := ⟨false, 0#8, 0#256⟩

/-- The error names of 60_exceptions.md R300. The codes 8..15 are never produced, so none is here. -/
inductive ErrorCode where
  | none
  | emptyAlphabet
  | emptyQueue
  | unknownSymbol
  | streamCorruption
  | notReady
  | illegalCmd
  | counterOverflow
  deriving DecidableEq, Repr

/-- The pending-error register `err`: (code, info, pos) (R61). -/
structure ErrReport where
  code : ErrorCode
  info : Word
  pos : Count
  deriving DecidableEq, Repr

/-- No error recorded: (0, 0, 0) (R61). -/
def ErrReport.clear : ErrReport := ⟨.none, 0#32, 0#64⟩

/-- The sequencer state SEQ (R21). -/
inductive Seq where
  | resetInit
  | idle
  | run (op : Instr)
  deriving DecidableEq, Repr

/-- Where in its rule's pseudocode the running command stands (the model's own, assumption 3).
The three rules with streams loop over `InPop`; COMPRESS and DECOMPRESS have an inner loop. -/
inductive Point where
  /-- before the first line of the rule -/
  | entry
  /-- at the head of the input loop, about to pop item `i` or to leave the loop -/
  | atPop (i : Nat)
  /-- COMPRESS (R240): message byte `i` is `b`, code character `j` is next -/
  | atCode (i : Nat) (b : Byte) (j : Nat)
  /-- DECOMPRESS (R260): packed byte `q` is `byte`, its bit `t` is next -/
  | atBit (q : Nat) (byte : Byte) (t : Nat)
  /-- COMPRESS (R240): after the final partial byte, before the results are written -/
  | atEnd
  deriving DecidableEq, Repr

/-- What comes next at the boundary of the block: an action of the host, or a turn of the engine
(R16, R92; assumption 1). -/
inductive HostEvent where
  /-- `MemWrite(off, 4, v)` (R81) -/
  | write (off : BitVec 8) (v : Word)
  /-- `MemRead(off, 4)` (R81) -/
  | read (off : BitVec 8)
  /-- `reg_wr` and `reg_rd` both 1 in one cycle (R99; 93_implementation_defined.md I11) -/
  | writeRead (off : BitVec 8) (v : Word)
  /-- the host offers a byte on IN (R86) -/
  | offer (b : Byte)
  /-- the host is ready to take a byte from OUT (R87) -/
  | take
  /-- a rising clock edge with `rst_n` = 0 (R340) -/
  | reset
  /-- the host does nothing and the engine moves (R361) -/
  | engine
  deriving DecidableEq, Repr

/-- The state of the machine: INVENTORY.md, '## State', lists each field with its rule. -/
structure State where
  /-- SEQ (R21) -/
  seq : Seq
  /-- the place in the running rule (the model's own, assumption 3) -/
  point : Point
  /-- STATUS.DONE (R28) -/
  done : Bool
  /-- STATUS.ERR (R29) -/
  err : Bool
  /-- STATUS.REJECT (R30) -/
  reject : Bool
  /-- STATUS.ERRCODE (R29, R300) -/
  errCode : ErrorCode
  /-- STATUS.TREE_VALID (R58) -/
  treeValid : Bool
  /-- STATUS.CT_VALID (R58) -/
  ctValid : Bool
  /-- STATUS.LASTOP (R32) -/
  lastOp : BitVec 4
  /-- IRQ_EN.IE (R34) -/
  ie : Bool
  /-- LEN (R35) -/
  len : Word
  /-- BITCNT (R36) -/
  bitCnt : Count
  /-- OUTCNT (R37) -/
  outCnt : Count
  /-- ERRINFO (R38) -/
  errInfo : Word
  /-- ERRPOS (R39) -/
  errPos : Count
  /-- FREQ_IDX (R41) -/
  freqIdx : Byte
  /-- NODE_IDX (R43) -/
  nodeIdx : NodeIdx
  /-- CODE_IDX (R47) -/
  codeIdx : Byte
  /-- CODE_WSEL (R47) -/
  codeWsel : BitVec 3
  /-- FREQ (R51) -/
  freq : Vector Count 256
  /-- NODE (R52) -/
  node : Vector Node 511
  /-- ROOT (R54) -/
  root : NodeIdx
  /-- NLEAF (R54) -/
  nLeaf : BitVec 9
  /-- PQ (R55) -/
  pq : List NodeIdx
  /-- CODE (R56) -/
  code : Vector CodeEntry 256
  /-- the packer's accumulator (R59) -/
  acc : Byte
  /-- the number of bits in the packer's accumulator (R59) -/
  k : Nat
  /-- the packer's count of bits produced (R59) -/
  nbits : Count
  /-- the packer's `nout` (R59) -/
  packOut : Count
  /-- the unpacker's cursor (R60) -/
  cur : NodeIdx
  /-- the unpacker's `nout` (R60) -/
  unpackOut : Count
  /-- the pending-error register `err` (R61) -/
  pend : ErrReport
  /-- the byte in handshake on OUT (R62, R87) -/
  outSlot : Option Byte
  /-- the bytes the host has offered on IN, oldest first (R86; the model's own) -/
  inQ : List Byte
  /-- the coming events, next first (the model's own, assumption 1) -/
  script : List HostEvent
  /-- the bytes the host has taken from OUT, oldest first (the model's own) -/
  taken : List Byte
  /-- the words the host's reads returned, oldest first (the model's own) -/
  reads : List Word
  /-- how many draws have been made (the model's own, assumption 5) -/
  draws : Nat
  deriving DecidableEq, Repr

/-- Why the machine stops. Both are states that no run from reset reaches (assumption 9), and both are
safe: the model stops where the spec gives the step no effect. -/
inductive Fault where
  /-- The engine reads NODE[NULL], an entry that does not exist (R116: 0..510 name entries).
  Raised by BUILD_CODES and DECOMPRESS in a state with TREE_VALID = 1 and no tree in NODE. Safe. -/
  | nullNode
  /-- A leaf-to-root walk of BUILD_CODES has not met ROOT after 255 branches, where R223 bounds every
  code by 255. Raised by BUILD_CODES in a state with TREE_VALID = 1 and no tree in NODE. Safe. -/
  | walkTooLong
  deriving DecidableEq, Repr

/-- Why the model gives a step no meaning. -/
inductive Refusal where
  /-- The command has no meaning in the model yet. No arm of `exec` answers this: every command of the
  table has its meaning. Safe. -/
  | notModelled (mnemonic : String)
  deriving DecidableEq, Repr

/-- The outcome of a step of this machine. -/
abbrev Outcome := Host.Outcome State Fault Refusal

/-- The value the model names for a NODE entry at reset, where R64 says "unspecified"
(DESIGN CHOICE, assumption 6; no entry is live then, so no rule reads it). -/
def Node.unset : Node := ⟨.leaf, 0#8, 0#72, Config.null, Config.null, Config.null⟩

/-- The machine right after reset (10_state.md R64, 70_reset_and_hazards.md R340): the engine is about
to clear its memories (RESET_INIT, R341). NODE, PQ and the packer's and unpacker's working state have
no reset value in the spec (assumption 6); the model's own fields are empty (assumption 7). -/
def State.reset : State where
  seq := .resetInit
  point := .entry
  done := false
  err := false
  reject := false
  errCode := .none
  treeValid := false
  ctValid := false
  lastOp := 0#4
  ie := false
  len := 0#32
  bitCnt := 0#64
  outCnt := 0#64
  errInfo := 0#32
  errPos := 0#64
  freqIdx := 0#8
  nodeIdx := 0#9
  codeIdx := 0#8
  codeWsel := 0#3
  freq := Vector.replicate 256 0#64
  node := Vector.replicate 511 Node.unset
  root := Config.null
  nLeaf := 0#9
  pq := []
  code := Vector.replicate 256 CodeEntry.absent
  acc := 0#8
  k := 0
  nbits := 0#64
  packOut := 0#64
  cur := Config.null
  unpackOut := 0#64
  pend := ErrReport.clear
  outSlot := none
  inQ := []
  script := []
  taken := []
  reads := []
  draws := 0

end Sys2Proof.Machine
end

