-- ==== Sys2Proof/Machine/Ops.lean ====
section
/-! DEFINITION. The named operations that every command shares: the accesses to FREQ, CODE and NODE
(10_state.md R51 to R56), the streams (20_memory.md R86, R87), `raise` (00_scope.md R14), accepting a
command word (40_control.md R151, R152), `finish` (R153: the report of an error, 60_exceptions.md R303),
ACK (the return from it, R307), the rejected write (R306) and reset (70_reset_and_hazards.md R340). -/

namespace Sys2Proof.Machine

open Sys2Proof

/-- The entry of a 256-entry table for byte value `b`. -/
def tableGet {α : Type} (t : Vector α 256) (b : Byte) : α := t[b.toNat]'b.isLt

/-- A 256-entry table with the entry of byte value `b` replaced by `x`. -/
def tableSet {α : Type} (t : Vector α 256) (b : Byte) (x : α) : Vector α 256 := t.set b.toNat x b.isLt

/-- The byte values 0, 1, …, 255 in ascending order. -/
def allBytes : List Byte := (List.range 256).map (BitVec.ofNat 8)

/-- NODE[i], which exists for 0 ≤ i ≤ 510 (R52, R116); NULL (511) names no entry. -/
def nodeGet (t : Vector Node 511) (i : NodeIdx) : Option Node := t[i.toNat]?

/-- The arena with NODE[i] replaced by `x`; NULL names no entry, so nothing is written there. -/
def nodeSet (t : Vector Node 511) (i : NodeIdx) (x : Node) : Vector Node 511 := t.setIfInBounds i.toNat x

/-- `raise E(info, pos)` (R14): record the error unless one is already recorded; the first error wins. -/
def raise (c : ErrorCode) (info : Word) (pos : Count) (s : State) : State :=
  if s.pend.code = .none then { s with pend := ⟨c, info, pos⟩ } else s

/-- What the acceptance of ANY command word `w` does first (R151): the report of the last command is
cleared and LASTOP takes bits [3:0] of the word. STATUS.REJECT is not changed. -/
def latchWord (w : Word) (s : State) : State :=
  { s with
    done := false, err := false, errCode := .none
    lastOp := cmdOp w
    errInfo := 0#32, errPos := 0#64
    pend := ErrReport.clear }

/-- The acceptance of a legal command (R151): SEQ becomes RUN(op), which sets BUSY. -/
def accept (i : Instr) (s : State) : State :=
  { latchWord (encode i) s with seq := .run i, point := .entry }

/-- `finish()` (R153): the recorded error, or success, goes to STATUS, ERRINFO and ERRPOS, and the
engine is IDLE again. -/
def finish (s : State) : State :=
  { s with
    errCode := s.pend.code
    err := decide (s.pend.code ≠ .none)
    errInfo := s.pend.info
    errPos := s.pend.pos
    seq := .idle, point := .entry
    done := true }

/-- An illegal command word (R152): in one step with its acceptance, ILLEGAL_CMD is reported with the
word as its info. BUSY stays 0 throughout. -/
def illegalWord (w : Word) (s : State) : State :=
  finish (raise .illegalCmd w 0#64 (latchWord w s))

/-- A rejected write (R84, R306): it sets the sticky STATUS.REJECT and changes nothing else. -/
def rejectWrite (s : State) : State := { s with reject := true }

/-- A write to ACK (R33, R307): with bit 0 = 1 it clears DONE, ERR, ERRCODE and REJECT, with bit 0 = 0
it has no effect. -/
def ackWrite (v : Word) (s : State) : State :=
  if v.getLsbD 0 then { s with done := false, err := false, errCode := .none, reject := false } else s

/-- `InPop()` (R86): the engine takes the oldest byte offered on IN, or holds where none is offered. -/
def inPop (s : State) (k : Byte → State → Outcome) : Outcome :=
  match s.inQ with
  | [] => .next s
  | b :: rest => k b { s with inQ := rest }

/-- `OutPush(v)` (R87): the byte goes into the one-place output slot. The engine makes no step while
the slot is full (`runCommand`), so it goes on only when the host has taken the byte. -/
def outPush (v : Byte) (s : State) : State := { s with outSlot := some v }

/-- The host offers a byte on IN; it stays offered until the engine takes it (R86). -/
def offerIn (b : Byte) (s : State) : State := { s with inQ := s.inQ ++ [b] }

/-- The host takes the byte the engine offers on OUT; where none is offered nothing moves (R87). -/
def takeOut (s : State) : State :=
  match s.outSlot with
  | some v => { s with outSlot := none, taken := s.taken ++ [v] }
  | none => s

/-- A rising clock edge with `rst_n` = 0 (R340): every piece of state takes its reset value and the
byte in handshake on OUT is withdrawn. The bytes the host still offers on IN stay offered (R342), and
the coming events and the record of what the host saw are the host's (assumption 11). -/
def hardReset (s : State) : State :=
  { State.reset with
    inQ := s.inQ, script := s.script, taken := s.taken, reads := s.reads, draws := s.draws }

/-- The end of RESET_INIT (R341): FREQ is zero, CODE is absent, and the engine is IDLE with DONE still 0. -/
def endResetInit (s : State) : State :=
  { s with
    freq := Vector.replicate 256 0#64
    code := Vector.replicate 256 CodeEntry.absent
    seq := .idle, point := .entry }

end Sys2Proof.Machine
end

