-- ==== Sys2Proof/Machine/Operands.lean ====
section
/-! DEFINITION. The operands of the commands (30_encoding.md R113): no command has an immediate, every
one reads fixed registers and the streams, as unsigned numbers. LEN and BITCNT cannot change while a
command runs, so they are read where they are used (20_memory.md R94). -/

namespace Sys2Proof.Machine

open Sys2Proof

/-- LEN as a number: the message bytes RECORD and COMPRESS take (R35, R113). -/
def State.msgLen (s : State) : Nat := s.len.toNat

/-- BITCNT as a number: the bits DECOMPRESS decodes (R36, R113). -/
def State.bitLen (s : State) : Nat := s.bitCnt.toNat

/-- ceil(BITCNT / 8): the packed bytes DECOMPRESS takes (R113, R123). -/
def State.packedLen (s : State) : Nat := ceilDiv8 s.bitLen

/-- How many bytes a command takes from IN, whatever its outcome (R113, R156). -/
def State.bytesIn (i : Instr) (s : State) : Nat :=
  match i with
  | .init => 0
  | .record => s.msgLen
  | .buildTree => 0
  | .buildCodes => 0
  | .compress => s.msgLen
  | .decompress => s.packedLen

end Sys2Proof.Machine
end

