-- ==== Sys2Proof/Machine/Flags.lean ====
section
/-! DEFINITION. The flags: the STATUS word and its fields (10_state.md R26 to R32), the error numbers
(60_exceptions.md R300), the distinct count (R40) and the block's output signals (20_memory.md R99). -/

namespace Sys2Proof.Machine

open Sys2Proof

/-- The number of an error as STATUS.ERRCODE shows it (R117, R300). -/
def ErrorCode.bits : ErrorCode → BitVec 4
  | .none => 0#4
  | .emptyAlphabet => 1#4
  | .emptyQueue => 2#4
  | .unknownSymbol => 3#4
  | .streamCorruption => 4#4
  | .notReady => 5#4
  | .illegalCmd => 6#4
  | .counterOverflow => 7#4

/-- STATUS.BUSY: 1 exactly when SEQ ≠ IDLE (R21, R27). -/
def State.busy (s : State) : Bool := decide (s.seq ≠ .idle)

/-- The STATUS word (R26): BUSY [0], DONE [1], ERR [2], REJECT [3], ERRCODE [7:4], TREE_VALID [8],
CT_VALID [9], LASTOP [15:12]; every other bit reads 0. -/
def State.statusWord (s : State) : Word :=
  0#16 ++ s.lastOp ++ 0#2 ++ bit s.ctValid ++ bit s.treeValid ++ s.errCode.bits
    ++ bit s.reject ++ bit s.err ++ bit s.done ++ bit s.busy

/-- NDISTINCT (R40, R175): the number of byte values whose counter is not zero. -/
def nDistinct (freq : Vector Count 256) : Nat := allBytes.countP (fun b => tableGet freq b != 0#64)

/-- The interrupt output (R312): `irq = IRQ_EN.IE AND STATUS.DONE`, at all times. -/
def State.irq (s : State) : Bool := s.ie && s.done

/-- `out_valid` (R87, R99): the engine offers a byte on OUT. -/
def State.outValid (s : State) : Bool := s.outSlot.isSome

/-- `in_ready` (R86, R99): the running command is at an `InPop()` step. -/
def State.inReady (s : State) : Bool :=
  match s.seq, s.point with
  | .run op, .atPop i => !s.outValid && decide (i < s.bytesIn op)
  | _, _ => false

end Sys2Proof.Machine
end

