-- ==== Sys2Proof/Machine/Control.lean ====
section
/-! DEFINITION. The command lifecycle (40_control.md R150 to R156) and INIT (R157). -/

namespace Sys2Proof.Machine

open Sys2Proof

/-- One engine step of command `i` whose rule is `rule` (R150, R151).
IDLE: the word of `i` is accepted. RUN(i): the rule goes on, unless it is holding at an `OutPush` whose
byte the host has not taken (R87). Busy with anything else: the command's word is a rejected CMD write
(R84); `step` never asks for this (assumption 14). -/
def runCommand (i : Instr) (rule : State → Outcome) (s : State) : Outcome :=
  match s.seq with
  | .idle => .next (accept i s)
  | .run j =>
    if j = i then
      match s.outSlot with
      | some _ => .next s
      | none => rule s
    else .next (rejectWrite s)
  | .resetInit => .next (rejectWrite s)

/-- The body of INIT (R157). NODE is left as it is but is not live. -/
def clearCoder (s : State) : State :=
  { s with
    freq := Vector.replicate 256 0#64
    code := Vector.replicate 256 CodeEntry.absent
    treeValid := false, ctValid := false
    root := Config.null, nLeaf := 0#9
    bitCnt := 0#64, outCnt := 0#64 }

/-- INIT (R157): return the coder instance to its created-empty state. Its body is one engine step
(assumption 2). -/
def execInit (s : State) : Outcome :=
  runCommand .init (fun s => .next (finish (clearCoder s))) s

end Sys2Proof.Machine
end

