-- ==== Sys2Proof/Machine/CodeTable.lean ====
section
/-! DEFINITION. The code-table generator: BUILD_CODES (43_code_table.md R220 to R226). -/

namespace Sys2Proof.Machine

open Sys2Proof

/-- The walk from node `c` to ROOT (R220), at most `fuel` branches. `code` holds the branches already
walked, root side first: the pseudocode appends and reverses at the end, this puts each new branch in
front. A branch is '1' (true) where `c` is not its parent's left child. -/
def walkToRoot (t : Vector Node 511) (root : NodeIdx) : Nat → NodeIdx → List Bool → Except Fault (List Bool)
  | 0, c, code => if c = root then .ok code else .error .walkTooLong
  | fuel + 1, c, code =>
    if c = root then .ok code
    else
      match nodeGet t c with
      | none => .error .nullNode
      | some n =>
        match nodeGet t n.parent with
        | none => .error .nullNode
        | some p => walkToRoot t root fuel n.parent (decide (p.left ≠ c) :: code)

/-- The code vector of a code: bit j is character j, every bit from |code| up is 0 (R118). -/
def codeVector : List Bool → CodeBits
  | [] => 0#256
  | b :: bs => (codeVector bs <<< 1) ||| (bit b).setWidth 256

/-- The table entry of a code (R118). -/
def codeEntry (code : List Bool) : CodeEntry :=
  ⟨true, BitVec.ofNat 8 code.length, codeVector code⟩

/-- Leaf `i` of BUILD_CODES (R220): the code of its value goes into the table. -/
def addLeafCode (t : Vector Node 511) (root : NodeIdx) (code : Vector CodeEntry 256) (i : Nat) :
    Except Fault (Vector CodeEntry 256) :=
  let c : NodeIdx := BitVec.ofNat 9 i
  match walkToRoot t root Config.maxCodeLen c [] with
  | .error e => .error e
  | .ok s =>
    match nodeGet t c with
    | none => .error .nullNode
    | some n => .ok (tableSet code n.value (codeEntry s))

/-- The leaves of a list, one after the other (R220). -/
def addLeafCodes (t : Vector Node 511) (root : NodeIdx) :
    List Nat → Vector CodeEntry 256 → Except Fault (Vector CodeEntry 256)
  | [], code => .ok code
  | i :: is, code =>
    match addLeafCode t root code i with
    | .error e => .error e
    | .ok code' => addLeafCodes t root is code'

/-- The code table of the tree (NODE, ROOT, NLEAF) (R220, R226): every entry absent, then leaf 0 to
leaf NLEAF − 1. -/
def codeTable (t : Vector Node 511) (root : NodeIdx) (nLeaf : Nat) : Except Fault (Vector CodeEntry 256) :=
  addLeafCodes t root (List.range nLeaf) (Vector.replicate 256 CodeEntry.absent)

/-- One engine step of BUILD_CODES's rule (R220): its whole body (assumption 2). -/
def buildCodesRule (s : State) : Outcome :=
  if s.treeValid then
    match codeTable s.node s.root s.nLeaf.toNat with
    | .error e => .fault e
    | .ok code => .next (finish { s with code := code, ctValid := true })
  else .next (finish (raise .notReady 0#32 0#64 s))

/-- BUILD_CODES (R220): derive every present byte's code from the tree. -/
def execBuildCodes (s : State) : Outcome := runCommand .buildCodes buildCodesRule s

end Sys2Proof.Machine
end

