-- ==== Sys2Proof/Machine/Frequency.lean ====
section
/-! DEFINITION. Frequency accounting: RECORD (41_frequency.md R170, R171). -/

namespace Sys2Proof.Machine

open Sys2Proof

/-- Message byte `i` of RECORD has the value `b` (R170, R171): its counter gains 1, or, where it already
holds 2^64 − 1, COUNTER_OVERFLOW is recorded; after an error the byte is drained (R156). -/
def recordByte (i : Nat) (b : Byte) (s : State) : State :=
  if s.pend.code = .none then
    if tableGet s.freq b = Config.maxCount then
      raise .counterOverflow (0#24 ++ b) (BitVec.ofNat 64 i) s
    else { s with freq := tableSet s.freq b (tableGet s.freq b + 1#64) }
  else s

/-- One engine step of RECORD's rule (R170): one turn of its loop (assumption 3). -/
def recordRule (s : State) : Outcome :=
  match s.point with
  | .entry => .next { s with point := .atPop 0 }
  | .atPop i =>
    if i < s.msgLen then
      inPop s (fun b s => .next { recordByte i b s with point := .atPop (i + 1) })
    else .next (finish s)
  | .atCode _ _ _ => .next s
  | .atBit _ _ _ => .next s
  | .atEnd => .next s

/-- RECORD (R170): count the bytes of a message into FREQ. -/
def execRecord (s : State) : Outcome := runCommand .record recordRule s

end Sys2Proof.Machine
end

