-- ==== Sys2Proof/Machine/Packer.lean ====
section
/-! DEFINITION. The bitstream packer: COMPRESS (44_packer.md R240 to R245). -/

namespace Sys2Proof.Machine

open Sys2Proof

/-- The first lines of COMPRESS (R240): the working state is initialised, and without a code table
NOT_READY is recorded (R155). -/
def packerStart (s : State) : State :=
  let s := { s with acc := 0#8, k := 0, nbits := 0#64, packOut := 0#64 }
  if s.ctValid then s else raise .notReady 0#32 0#64 s

/-- Message byte `i` of COMPRESS has the value `b` (R240, R244): its code is next, or UNKNOWN_SYMBOL is
recorded; after an error the byte is drained (R156). -/
def packByte (i : Nat) (b : Byte) (s : State) : State :=
  if s.pend.code = .none then
    if (tableGet s.code b).present then { s with point := .atCode i b 0 }
    else { raise .unknownSymbol (0#24 ++ b) (BitVec.ofNat 64 i) s with point := .atPop (i + 1) }
  else { s with point := .atPop (i + 1) }

/-- `acc <- {acc[6:0], bit}` (R242): a left shift, the new bit enters at bit 0. -/
def shiftIn (acc : Byte) (b : Bool) : Byte := acc.extractLsb' 0 7 ++ bit b

/-- One code character goes into the accumulator, and a full accumulator goes out (R240, R242). -/
def packBit (b : Bool) (s : State) : State :=
  let acc := shiftIn s.acc b
  if s.k + 1 = 8 then
    outPush acc { s with acc := 0#8, k := 0, nbits := s.nbits + 1#64, packOut := s.packOut + 1#64 }
  else { s with acc := acc, k := s.k + 1, nbits := s.nbits + 1#64 }

/-- The final partial byte (R243): `(acc << (8 − k))[7:0]`, pushed where 1 to 7 bits remain and no error
is recorded. -/
def packTail (s : State) : State :=
  if s.pend.code = .none ∧ 0 < s.k then
    outPush (s.acc <<< (8 - s.k)) { s with packOut := s.packOut + 1#64 }
  else s

/-- The results of COMPRESS (R241). -/
def packResults (s : State) : State := { s with bitCnt := s.nbits, outCnt := s.packOut }

/-- One engine step of COMPRESS's rule (R240): one turn of a loop (assumption 3). -/
def compressRule (s : State) : Outcome :=
  match s.point with
  | .entry => .next { packerStart s with point := .atPop 0 }
  | .atPop i =>
    if i < s.msgLen then inPop s (fun b s => .next (packByte i b s))
    else .next { packTail s with point := .atEnd }
  | .atCode i b j =>
    if j < (tableGet s.code b).len.toNat then
      .next { packBit ((tableGet s.code b).bits.getLsbD j) s with point := .atCode i b (j + 1) }
    else .next { s with point := .atPop (i + 1) }
  | .atBit _ _ _ => .next s
  | .atEnd => .next (finish (packResults s))

/-- COMPRESS (R240): encode LEN message bytes into a packed bitstream. -/
def execCompress (s : State) : Outcome := runCommand .compress compressRule s

end Sys2Proof.Machine
end

