-- ==== Sys2Proof/Machine/TreeBuilder.lean ====
section
/-! DEFINITION. The tree builder: the stable priority queue (42_tree_builder.md R190 to R193) and
BUILD_TREE (R194 to R203). -/

namespace Sys2Proof.Machine

open Sys2Proof

/-- NODE[i].weight, the sort key of a queue entry (R55); 0 for NULL, which is never queued. -/
def weightOf (t : Vector Node 511) (i : NodeIdx) : Weight :=
  match nodeGet t i with
  | some n => n.weight
  | none => 0#72

/-- `PQInsert(i)` (R191): immediately before the first entry whose weight is strictly greater, or at
the end. -/
def pqInsert (t : Vector Node 511) (i : NodeIdx) : List NodeIdx → List NodeIdx
  | [] => [i]
  | q :: qs => if weightOf t i < weightOf t q then i :: q :: qs else q :: pqInsert t i qs

/-- What BUILD_TREE works on: NODE, PQ, the pending error, and the number of leaves made so far
(the `k` of R194). -/
structure Builder where
  node : Vector Node 511
  pq : List NodeIdx
  pend : ErrReport
  leaves : Nat
  deriving DecidableEq, Repr

/-- `PQExtractMin()` (R192): the first entry, or EMPTY_QUEUE and NULL. -/
def pqExtractMin (b : Builder) : NodeIdx × Builder :=
  match b.pq with
  | [] =>
    (Config.null,
      { b with pend := if b.pend.code = .none then ⟨.emptyQueue, 0#32, 0#64⟩ else b.pend })
  | q :: qs => (q, { b with pq := qs })

/-- The LEAF node of byte value `v` with counter `c` (R195). -/
def leafNode (v : Byte) (c : Count) : Node :=
  ⟨.leaf, v, c.setWidth 72, Config.null, Config.null, Config.null⟩

/-- The INTERNAL node over `x` (left) and `y` (right) (R196). -/
def internalNode (w : Weight) (x y : NodeIdx) : Node :=
  ⟨.internal, 0#8, w, x, y, Config.null⟩

/-- NODE[i].parent <- p. -/
def setParent (t : Vector Node 511) (i p : NodeIdx) : Vector Node 511 :=
  match nodeGet t i with
  | some n => nodeSet t i { n with parent := p }
  | none => t

/-- Seeding, byte value `v` (R195): a byte with a non-zero counter becomes the next leaf. -/
def seedByte (freq : Vector Count 256) (b : Builder) (v : Byte) : Builder :=
  if tableGet freq v = 0#64 then b
  else
    let i : NodeIdx := BitVec.ofNat 9 b.leaves
    let node := nodeSet b.node i (leafNode v (tableGet freq v))
    { b with node := node, pq := pqInsert node i b.pq, leaves := b.leaves + 1 }

/-- Seeding (R194, R195): every byte value in ascending order, into an empty queue. -/
def seedAll (freq : Vector Count 256) (node : Vector Node 511) (pend : ErrReport) : Builder :=
  allBytes.foldl (seedByte freq) { node := node, pq := [], pend := pend, leaves := 0 }

/-- One merge, which makes node `z` (R196): `x` is extracted first and becomes the left child, `y`
second and the right one. An EMPTY_QUEUE stops it (R200). -/
def mergeOnce (z : NodeIdx) (b : Builder) : Builder :=
  let (x, b1) := pqExtractMin b
  let (y, b2) := pqExtractMin b1
  if b2.pend.code ≠ .none then b2
  else
    let w := weightOf b2.node x + weightOf b2.node y
    let node := nodeSet b2.node z (internalNode w x y)
    let node := setParent node x z
    let node := setParent node y z
    { b2 with node := node, pq := pqInsert node z b2.pq }

/-- `c` merges, the next of which makes node `z` (R194): the loop ends early on an error. -/
def mergeLoop : Nat → Nat → Builder → Builder
  | 0, _, b => b
  | c + 1, z, b =>
    let b' := mergeOnce (BitVec.ofNat 9 z) b
    if b'.pend.code ≠ .none then b' else mergeLoop c (z + 1) b'

/-- The tree of one distinct symbol (R198): node 1 is an INTERNAL pad node over leaf 0. -/
def padRoot (b : Builder) : NodeIdx × Builder :=
  (1#9, { b with node := setParent (nodeSet b.node 1#9 (internalNode (weightOf b.node 0#9) 0#9 Config.null)) 0#9 1#9 })

/-- The tree over `n` ≥ 1 leaves: the root's index and what BUILD_TREE leaves in its memories (R194). -/
def buildFrom (n : Nat) (b : Builder) : NodeIdx × Builder :=
  if n = 1 then padRoot b else pqExtractMin (mergeLoop (n - 1) n b)

/-- The body of BUILD_TREE (R194) up to `finish`. -/
def buildTreeBody (s : State) : State :=
  let n := nDistinct s.freq
  if n = 0 then raise .emptyAlphabet 0#32 0#64 s
  else
    let rb := buildFrom n (seedAll s.freq s.node s.pend)
    let s' := { s with
      ctValid := false, treeValid := false
      node := rb.2.node, pq := rb.2.pq, pend := rb.2.pend }
    if rb.2.pend.code ≠ .none then { s' with root := Config.null, nLeaf := 0#9 }
    else { s' with root := rb.1, nLeaf := BitVec.ofNat 9 n, treeValid := true }

/-- BUILD_TREE (R194): build the Huffman tree from FREQ. Its body is one engine step (assumption 2). -/
def execBuildTree (s : State) : Outcome :=
  runCommand .buildTree (fun s => .next (finish (buildTreeBody s))) s

end Sys2Proof.Machine
end

