-- ==== Sys2Proof/Machine/Unpacker.lean ====
section
/-! DEFINITION. The bitstream unpacker: DECOMPRESS (45_unpacker.md R260 to R266). -/

namespace Sys2Proof.Machine

open Sys2Proof

/-- The first lines of DECOMPRESS (R260): the working state is initialised, and without a tree
NOT_READY is recorded (R155). -/
def unpackerStart (s : State) : State :=
  let s := { s with unpackOut := 0#64, cur := s.root }
  if s.treeValid then s else raise .notReady 0#32 0#64 s

/-- The child a bit leads to: left on a 0 bit, right on a 1 bit (R262). -/
def childOf (n : Node) (b : Bool) : NodeIdx := if b then n.right else n.left

/-- STREAM_CORRUPTION at the cursor (R263): info is the cursor's node index, pos the bit index. -/
def corrupt (i : Nat) (s : State) : State :=
  raise .streamCorruption (0#23 ++ s.cur) (BitVec.ofNat 64 i) s

/-- The cursor lands on node `i`, which is `n` (R260, R262): a leaf's value is pushed and the cursor
goes back to ROOT. -/
def landOn (i : NodeIdx) (n : Node) (s : State) : State :=
  match n.kind with
  | .leaf => outPush n.value { s with unpackOut := s.unpackOut + 1#64, cur := s.root }
  | .internal => { s with cur := i }

/-- Logical bit `i`, whose value is `b`, is decoded (R260, R262, R263). The arena has no entry NULL: a
cursor there is a fault (assumption 9). -/
def unpackBit (i : Nat) (b : Bool) (s : State) : Except Fault State :=
  match nodeGet s.node s.cur with
  | none => .error .nullNode
  | some n =>
    match n.kind with
    | .leaf => .ok (corrupt i s)
    | .internal =>
      match nodeGet s.node (childOf n b) with
      | none => .ok (corrupt i s)
      | some c => .ok (landOn (childOf n b) c s)

/-- Bit `t` of packed byte `q` (R260, R262, R264): it is bit 7 − t of the byte and logical bit 8q + t;
from BITCNT on, and after an error, bits are ignored. -/
def unpackStep (q : Nat) (byte : Byte) (t : Nat) (s : State) : Except Fault State :=
  if 8 * q + t < s.bitLen ∧ s.pend.code = .none then
    unpackBit (8 * q + t) (byte.getLsbD (7 - t)) s
  else .ok s

/-- The place after bit `t` of packed byte `q`. -/
def afterBit (q : Nat) (byte : Byte) (t : Nat) : Point :=
  if t + 1 < 8 then .atBit q byte (t + 1) else .atPop (q + 1)

/-- One engine step of DECOMPRESS's rule (R260): one turn of a loop (assumption 3). -/
def decompressRule (s : State) : Outcome :=
  match s.point with
  | .entry => .next { unpackerStart s with point := .atPop 0 }
  | .atPop q =>
    if q < s.packedLen then inPop s (fun b s => .next { s with point := .atBit q b 0 })
    else .next (finish { s with outCnt := s.unpackOut })
  | .atBit q byte t =>
    match unpackStep q byte t s with
    | .error e => .fault e
    | .ok s' => .next { s' with point := afterBit q byte t }
  | .atCode _ _ _ => .next s
  | .atEnd => .next s

/-- DECOMPRESS (R260): decode BITCNT bits of a packed bitstream back into bytes. -/
def execDecompress (s : State) : Outcome := runCommand .decompress decompressRule s

end Sys2Proof.Machine
end

