-- ==== Sys2Proof/Machine/Registers.lean ====
section
/-! DEFINITION. The host-visible registers: what each reads, what a write to each stores (10_state.md
R23 to R50), which are locked while BUSY (20_memory.md R84) and which reads are draws (R85). -/

namespace Sys2Proof.Machine

open Sys2Proof

/-- The registers whose writes are ignored, with REJECT, while BUSY = 1 (R23, R84). -/
def regLocked : Reg → Bool
  | .cmd | .len | .bitcntLo | .bitcntHi | .freqIdx | .freqLo | .freqHi | .nodeIdx | .codeIdx | .codeWsel => true
  | _ => false

/-- The registers whose whole read value is a draw while BUSY = 1 (R85). STATUS is not among them:
only two of its bits are draws (R31). -/
def regDrawnWhileBusy : Reg → Bool
  | .bitcntLo | .bitcntHi | .outcntLo | .outcntHi | .ndistinct | .freqLo | .freqHi | .treeInfo
  | .nodeInfo | .nodeLink0 | .nodeLink1 | .nodeW0 | .nodeW1 | .nodeW2 | .codeInfo | .codeWord => true
  | _ => false

/-- Bits [31:0] of a 64-bit register, its `_LO` word (R82). -/
def loWord (v : Count) : Word := v.extractLsb' 0 32

/-- Bits [63:32] of a 64-bit register, its `_HI` word (R82). -/
def hiWord (v : Count) : Word := v.extractLsb' 32 32

/-- A 64-bit register with its `_LO` word replaced; the other half stays (R41, R82). -/
def setLo (v : Count) (w : Word) : Count := hiWord v ++ w

/-- A 64-bit register with its `_HI` word replaced; the other half stays (R41, R82). -/
def setHi (v : Count) (w : Word) : Count := w ++ loWord v

/-- The node the NODE window shows: NODE[NODE_IDX] where it is live, that is where TREE_VALID = 1 and
NODE_IDX ≤ ROOT (R43). -/
def State.windowNode (s : State) : Option Node :=
  if s.treeValid && decide (s.nodeIdx ≤ s.root) then nodeGet s.node s.nodeIdx else none

/-- NODE_INFO (R44): VALID [0], KIND [1], VALUE [15:8]; all 0 where the node is not live. -/
def nodeInfoWord : Option Node → Word
  | none => 0#32
  | some n =>
    match n.kind with
    | .leaf => 0#16 ++ n.value ++ 0#6 ++ 0#1 ++ 1#1
    | .internal => 0#16 ++ 0#8 ++ 0#6 ++ 1#1 ++ 1#1

/-- NODE_LINK0 (R45): LEFT [8:0], RIGHT [24:16]; both NULL where the node is not live. -/
def nodeLink0Word : Option Node → Word
  | none => 0#7 ++ Config.null ++ 0#7 ++ Config.null
  | some n => 0#7 ++ n.right ++ 0#7 ++ n.left

/-- NODE_LINK1 (R45): PARENT [8:0]; NULL where the node is not live. -/
def nodeLink1Word : Option Node → Word
  | none => 0#23 ++ Config.null
  | some n => 0#23 ++ n.parent

/-- The weight that NODE_W0 to NODE_W2 show (R46): 0 where the node is not live. -/
def nodeWeight : Option Node → Weight
  | none => 0#72
  | some n => n.weight

/-- CODE_INFO.PRESENT (R48): CT_VALID = 1 and the selected entry is present. -/
def State.codeShown (s : State) : Bool := s.ctValid && (tableGet s.code s.codeIdx).present

/-- What a register reads while no draw applies (R24 to R50). -/
def regRead (r : Reg) (s : State) : Word :=
  match r with
  | .id => Config.idValue
  | .cmd => 0#32
  | .status => s.statusWord
  | .ack => 0#32
  | .irqEn => 0#31 ++ bit s.ie
  | .len => s.len
  | .bitcntLo => loWord s.bitCnt
  | .bitcntHi => hiWord s.bitCnt
  | .outcntLo => loWord s.outCnt
  | .outcntHi => hiWord s.outCnt
  | .errinfo => s.errInfo
  | .errposLo => loWord s.errPos
  | .errposHi => hiWord s.errPos
  | .ndistinct => 0#23 ++ BitVec.ofNat 9 (nDistinct s.freq)
  | .freqIdx => 0#24 ++ s.freqIdx
  | .freqLo => loWord (tableGet s.freq s.freqIdx)
  | .freqHi => hiWord (tableGet s.freq s.freqIdx)
  | .treeInfo =>
    if s.treeValid then 0#7 ++ s.nLeaf ++ 0#7 ++ s.root else 0#7 ++ 0#9 ++ 0#7 ++ Config.null
  | .nodeIdx => 0#23 ++ s.nodeIdx
  | .nodeInfo => nodeInfoWord s.windowNode
  | .nodeLink0 => nodeLink0Word s.windowNode
  | .nodeLink1 => nodeLink1Word s.windowNode
  | .nodeW0 => (nodeWeight s.windowNode).extractLsb' 0 32
  | .nodeW1 => (nodeWeight s.windowNode).extractLsb' 32 32
  | .nodeW2 => 0#24 ++ (nodeWeight s.windowNode).extractLsb' 64 8
  | .codeIdx => 0#24 ++ s.codeIdx
  | .codeWsel => 0#29 ++ s.codeWsel
  | .codeInfo =>
    if s.codeShown then 0#16 ++ (tableGet s.code s.codeIdx).len ++ 0#7 ++ 1#1 else 0#32
  | .codeWord =>
    if s.codeShown then (tableGet s.code s.codeIdx).bits.extractLsb' (32 * s.codeWsel.toNat) 32 else 0#32
  | .reserved => 0#32

/-- A word with bits [9:8] (STATUS.CT_VALID and TREE_VALID) taken from a draw (R31, R85). -/
def statusWithDraw (w d : Word) : Word := (w &&& ~~~0x300#32) ||| (d &&& 0x300#32)

/-- The host's read returns `v`: the only trace of a read (R83). -/
def logRead (v : Word) (s : State) : State := { s with reads := s.reads ++ [v] }

/-- The host's read returns a value made from the next draw (R85; assumption 5). -/
def logDraw (f : Word → Word) (s : State) : State :=
  { logRead (f (Config.draw s.draws)) s with draws := s.draws + 1 }

/-- `MemRead(off, 4)` (R81, R83, R85). -/
def busRead (off : BitVec 8) (s : State) : State :=
  if s.busy then
    if regDrawnWhileBusy (regOf off) then logDraw (fun d => d) s
    else if regOf off = .status then logDraw (statusWithDraw s.statusWord) s
    else logRead (regRead (regOf off) s) s
  else logRead (regRead (regOf off) s) s

/-- What an accepted write of `v` to a register stores (R23 to R50); CMD launches a command and is
not stored (`busWrite`); read-only registers and reserved offsets ignore it. -/
def regWrite (r : Reg) (v : Word) (s : State) : State :=
  match r with
  | .ack => ackWrite v s
  | .irqEn => { s with ie := v.getLsbD 0 }
  | .len => { s with len := v }
  | .bitcntLo => { s with bitCnt := setLo s.bitCnt v }
  | .bitcntHi => { s with bitCnt := setHi s.bitCnt v }
  | .freqIdx => { s with freqIdx := v.extractLsb' 0 8 }
  | .freqLo => { s with freq := tableSet s.freq s.freqIdx (setLo (tableGet s.freq s.freqIdx) v) }
  | .freqHi => { s with freq := tableSet s.freq s.freqIdx (setHi (tableGet s.freq s.freqIdx) v) }
  | .nodeIdx => { s with nodeIdx := v.extractLsb' 0 9 }
  | .codeIdx => { s with codeIdx := v.extractLsb' 0 8 }
  | .codeWsel => { s with codeWsel := v.extractLsb' 0 3 }
  | .id | .cmd | .status | .outcntLo | .outcntHi | .errinfo | .errposLo | .errposHi | .ndistinct
  | .treeInfo | .nodeInfo | .nodeLink0 | .nodeLink1 | .nodeW0 | .nodeW1 | .nodeW2
  | .codeInfo | .codeWord | .reserved => s

/-- `MemWrite(off, 4, v)` (R81, R84, R151, R152): a locked write while BUSY is rejected; a legal word
written to CMD is the command to run next; an illegal one is reported at once; any other write stores.
Answers the command to run, if the write launches one, and the state. -/
def busWrite (off : BitVec 8) (v : Word) (s : State) : Option Instr × State :=
  if s.busy && regLocked (regOf off) then (none, rejectWrite s)
  else if regOf off = .cmd then
    match decode v with
    | some i => (some i, s)
    | none => (none, illegalWord v s)
  else (none, regWrite (regOf off) v s)

end Sys2Proof.Machine
end

