-- ==== Sys2Proof/Machine/Turn.lean ====
section
/-! DEFINITION. Which agent moves next and what it does (00_scope.md R16; 20_memory.md R92): the next
event of the script, or the engine where there is none (70_reset_and_hazards.md R361). This is where the
machine fetches its next command: a legal word written to CMD (40_control.md R151). -/

namespace Sys2Proof.Machine

open Sys2Proof

/-- A turn of the engine (R21, R341, R361): RESET_INIT ends, a running command makes its next step, and
an IDLE engine does nothing (R325). -/
def engineTurn (s : State) : Option Instr × State :=
  match s.seq with
  | .resetInit => (none, endResetInit s)
  | .idle => (none, s)
  | .run i => (some i, s)

/-- An event at the boundary of the block: the command the engine then steps, if any, and the state. -/
def eventTurn (e : HostEvent) (s : State) : Option Instr × State :=
  match e with
  | .write off v => busWrite off v s
  | .read off => (none, busRead off s)
  | .writeRead off v => busWrite off v (logDraw (fun d => d) s)
  | .offer b => (none, offerIn b s)
  | .take => (none, takeOut s)
  | .reset => (none, hardReset s)
  | .engine => engineTurn s

/-- The next event of the script is taken out of it and happens; an empty script is the engine's turn. -/
def turn (s : State) : Option Instr × State :=
  match s.script with
  | [] => engineTurn s
  | e :: rest => eventTurn e { s with script := rest }

/-- The byte offset of CMD (R25). -/
def cmdOffset : BitVec 8 := 0x04#8

/-- A state in which the very next event is the host's write of the command word `w` to CMD, and the
engine is IDLE to accept it (R151). In RESET_INIT the memories are cleared first, as its end does (R341);
a running command is left (assumption 8). -/
def placeCommand (w : Word) (s : State) : State :=
  let s := match s.seq with
    | .resetInit => endResetInit s
    | _ => { s with seq := .idle, point := .entry }
  { s with script := .write cmdOffset w :: s.script }

end Sys2Proof.Machine
end

