-- ==== Sys2Proof/Machine/Step.lean ====
section
/-! DEFINITION. One step of the machine, and how a command is placed to be the next one it runs. -/

namespace Sys2Proof.Machine

open Sys2Proof

/-- One step (20_memory.md R92): the next event happens, and where it launches or runs a command, the
engine makes that command's step. -/
def step (s : State) : Host.Outcome State Fault Refusal :=
  match turn s with
  | (none, s') => .next s'
  | (some i, s') => exec i s'

/-- `s` with the command word `w` written to CMD next (assumption 8). -/
def State.withFetchWord (s : State) (nbits w : Nat) : State :=
  placeCommand (BitVec.ofNat 32 (w % 2 ^ nbits)) s

end Sys2Proof.Machine
end

