-- ==== Sys2Proof/Machine/HostProgram.lean ====
section
/-! DEFINITION. Host programs (30_encoding.md R124, R125; 48_host_glue.md R280, R282, R283) as lists of
events. A statement that waits (`WAIT`, `WAITIDLE`, `XFER`) has many runs, one for each interleaving with
the engine; each function here gives one of them, with the number of engine turns as an argument
(assumption 18). -/

namespace Sys2Proof.Machine

open Sys2Proof

/-- The byte offset of a register (R23); every reserved offset stands for itself, 0x74 for all. -/
def offsetOf : Reg → BitVec 8
  | .id => 0x00#8
  | .cmd => 0x04#8
  | .status => 0x08#8
  | .ack => 0x0C#8
  | .irqEn => 0x10#8
  | .len => 0x14#8
  | .bitcntLo => 0x18#8
  | .bitcntHi => 0x1C#8
  | .outcntLo => 0x20#8
  | .outcntHi => 0x24#8
  | .errinfo => 0x28#8
  | .errposLo => 0x2C#8
  | .errposHi => 0x30#8
  | .ndistinct => 0x34#8
  | .freqIdx => 0x38#8
  | .freqLo => 0x3C#8
  | .freqHi => 0x40#8
  | .treeInfo => 0x44#8
  | .nodeIdx => 0x48#8
  | .nodeInfo => 0x4C#8
  | .nodeLink0 => 0x50#8
  | .nodeLink1 => 0x54#8
  | .nodeW0 => 0x58#8
  | .nodeW1 => 0x5C#8
  | .nodeW2 => 0x60#8
  | .codeIdx => 0x64#8
  | .codeWsel => 0x68#8
  | .codeInfo => 0x6C#8
  | .codeWord => 0x70#8
  | .reserved => 0x74#8

/-- `W off, v` (R124). -/
def hostWrite (r : Reg) (v : Word) : List HostEvent := [.write (offsetOf r) v]

/-- `R off -> x` (R124); the value goes to State's `reads`. -/
def hostRead (r : Reg) : List HostEvent := [.read (offsetOf r)]

/-- `CMD M` (R124). -/
def hostCmd (i : Instr) : List HostEvent := hostWrite .cmd (encode i)

/-- `n` turns of the engine with a host ready to take OUT bytes between them. -/
def hostDrain : Nat → List HostEvent
  | 0 => []
  | n + 1 => .engine :: .take :: hostDrain n

/-- One run of `XFER in -> out` (R124): each byte is offered and then the engine has `n` turns, a pushed
byte being taken at once. -/
def hostXfer (n : Nat) : List Byte → List HostEvent
  | [] => []
  | b :: bs => .offer b :: (hostDrain n ++ hostXfer n bs)

/-- One run of `WAIT` or `WAITIDLE` (R124): `n` turns of the engine, then the read of STATUS that ends
the polling. -/
def hostWait (n : Nat) : List HostEvent := hostDrain n ++ hostRead .status

/-- `RECORD_BYTES s` (R125). -/
def hostRecordBytes (n : Nat) (s : List Byte) : List HostEvent :=
  hostWrite .len (BitVec.ofNat 32 s.length) ++ hostCmd .record ++ hostXfer n s ++ hostWait n

/-- `BUILD` (R125). -/
def hostBuild (n : Nat) : List HostEvent :=
  hostCmd .buildTree ++ hostWait n ++ hostCmd .buildCodes ++ hostWait n

/-- `COMPRESS_BYTES s -> p` (R125). -/
def hostCompressBytes (n : Nat) (s : List Byte) : List HostEvent :=
  hostWrite .len (BitVec.ofNat 32 s.length) ++ hostCmd .compress ++ hostXfer n s ++ hostWait n
    ++ hostRead .bitcntLo ++ hostRead .bitcntHi ++ hostRead .outcntLo ++ hostRead .outcntHi

/-- `DECOMPRESS_BYTES p, B -> s` (R125). -/
def hostDecompressBytes (n : Nat) (p : List Byte) (bits : Count) : List HostEvent :=
  hostWrite .bitcntLo (bits.extractLsb' 0 32) ++ hostWrite .bitcntHi (bits.extractLsb' 32 32)
    ++ hostCmd .decompress ++ hostXfer n p ++ hostWait n

/-- `DESTROY` (R125, R280): INIT, which also stands for "create coder". -/
def hostDestroy (n : Nat) : List HostEvent := hostCmd .init ++ hostWait n

/-- `DISTINCT -> d` (R125). -/
def hostDistinct : List HostEvent := hostRead .ndistinct

/-- `ACKALL` (R125, R307). -/
def hostAckAll : List HostEvent := hostWrite .ack 1#32

/-- The writes of `LOADFREQ t` (R282) for the byte values of a list. -/
def hostLoadFrom (t : Byte → Count) : List Byte → List HostEvent
  | [] => []
  | b :: bs =>
    .write (offsetOf .freqIdx) (0#24 ++ b)
      :: .write (offsetOf .freqLo) ((t b).extractLsb' 0 32)
      :: .write (offsetOf .freqHi) ((t b).extractLsb' 32 32)
      :: hostLoadFrom t bs

/-- `LOADFREQ t` (R282): 256 counters through the frequency window, then the read of STATUS whose
REJECT bit the host checks. -/
def hostLoadFreq (t : Byte → Count) : List HostEvent := hostLoadFrom t allBytes ++ hostRead .status

/-- The accesses of `SAVEFREQ` (R283) for the byte values of a list. -/
def hostSaveFrom : List Byte → List HostEvent
  | [] => []
  | b :: bs =>
    .write (offsetOf .freqIdx) (0#24 ++ b)
      :: .read (offsetOf .freqLo) :: .read (offsetOf .freqHi) :: hostSaveFrom bs

/-- `SAVEFREQ -> t` (R283): t[b] is the pair of the reads 2b (low) and 2b + 1 (high). -/
def hostSaveFreq : List HostEvent := hostSaveFrom allBytes

end Sys2Proof.Machine
end

