-- ==== Sys2Proof/Safety.lean ====
section
/-! DEFINITION. The terms in which claims are stated: runs of several steps, the code of a table entry as
a string (00_scope.md R15), the walk down the tree (45_unpacker.md R262), and the invariants a safe run
keeps. -/

namespace Sys2Proof.Machine

open Sys2Proof

/-- `n` steps, stopping at the first fault or refusal. -/
def run : Nat → State → Outcome
  | 0, s => .next s
  | n + 1, s =>
    match step s with
    | .next s' => run n s'
    | .fault r => .fault r
    | .refused r => .refused r

/-- The characters of a table entry's code, character 0 first; true is '1' (R15, R118). -/
def codeString (e : CodeEntry) : List Bool := (List.range e.len.toNat).map e.bits.getLsbD

/-- The logical bitstream of a message (30_encoding.md R119): the codes of its bytes in order. -/
def logicalBits (code : Vector CodeEntry 256) (m : List Byte) : List Bool :=
  m.flatMap (fun b => codeString (tableGet code b))

/-- The node that a string of branches leads to from node `c` (R224, R262): left on '0', right on '1'. -/
def descend (t : Vector Node 511) : NodeIdx → List Bool → Option NodeIdx
  | c, [] => some c
  | c, b :: bs =>
    match nodeGet t c with
    | some n => descend t (childOf n b) bs
    | none => none

/-- The bytes decoded from a string of bits (R260, R262): from cursor `c`, landing on a leaf emits its
value and goes back to ROOT; a cut-off code (R264), and everything from a missing child on (R263), emits
nothing. -/
def decodeBits (t : Vector Node 511) (root : NodeIdx) : NodeIdx → List Bool → List Byte
  | _, [] => []
  | c, b :: bs =>
    match nodeGet t c with
    | none => []
    | some n =>
      match nodeGet t (childOf n b) with
      | none => []
      | some d =>
        match d.kind with
        | .leaf => d.value :: decodeBits t root root bs
        | .internal => decodeBits t root (childOf n b) bs

/-- The bits of packed bytes, most significant first within each byte (R88, R120). -/
def packedBits (p : List Byte) : List Bool :=
  p.flatMap (fun b => (List.range 8).map (fun k => b.getLsbD (7 - k)))

/-- The report of a command that ended with success (40_control.md R153, 60_exceptions.md R301). -/
def reportSuccess (s : State) : State :=
  { s with
    seq := .idle, point := .entry
    done := true, err := false, errCode := .none, errInfo := 0#32, errPos := 0#64 }

/-- The report of a command that ended with the error `c` (R153, R303). -/
def reportError (c : ErrorCode) (info : Word) (pos : Count) (s : State) : State :=
  { s with
    seq := .idle, point := .entry
    done := true, err := true, errCode := c, errInfo := info, errPos := pos
    pend := ⟨c, info, pos⟩ }

/-- Command `i` is running and its next engine step is not held at an `OutPush` (R150, R87). -/
def Running (i : Instr) (s : State) : Prop := s.seq = .run i ∧ s.outSlot = none

/-- Node `i` of the arena is there and `P` holds of it. -/
def NodeIs (t : Vector Node 511) (i : Nat) (P : Node → Prop) : Prop :=
  ∃ n, t[i]? = some n ∧ P n

/-- The arena holds a tree of `n` leaves with root `root` (10_state.md R53, 42_tree_builder.md R195,
R198, R202). -/
structure TreeOk (t : Vector Node 511) (root : NodeIdx) (n : Nat) : Prop where
  /-- there are 1 to 256 leaves -/
  count : 1 ≤ n ∧ n ≤ 256
  /-- ROOT = 2n − 2 for n ≥ 2, ROOT = 1 for n = 1 -/
  rootIs : root.toNat = if n = 1 then 1 else 2 * n - 2
  /-- nodes 0..n−1 are leaves without children -/
  leaves : ∀ i, i < n → NodeIs t i (fun a => a.kind = .leaf ∧ a.left = Config.null ∧ a.right = Config.null)
  /-- their values ascend -/
  ascending : ∀ i j, i < j → j < n → ∀ a b, t[i]? = some a → t[j]? = some b → a.value.toNat < b.value.toNat
  /-- nodes n..ROOT are internal, with a left child of lower index -/
  internals : ∀ i, n ≤ i → i ≤ root.toNat → NodeIs t i (fun a => a.kind = .internal ∧ a.left.toNat < i)
  /-- for n ≥ 2 an internal node has a right child too, of lower index, another node than the left one -/
  full : 2 ≤ n → ∀ i, n ≤ i → i ≤ root.toNat → NodeIs t i (fun a => a.right.toNat < i ∧ a.left ≠ a.right)
  /-- for n = 1 the pad node has no right child -/
  pad : n = 1 → NodeIs t 1 (fun a => a.right = Config.null)
  /-- each node but ROOT has a parent of higher index, in the tree, that lists it as a child -/
  parents : ∀ i, i < root.toNat → NodeIs t i (fun a => i < a.parent.toNat ∧ a.parent.toNat ≤ root.toNat ∧
    NodeIs t a.parent.toNat (fun p => p.left.toNat = i ∨ p.right.toNat = i))
  /-- each child of a node has that node as its parent -/
  children : ∀ i, n ≤ i → i ≤ root.toNat → ∀ a, t[i]? = some a → ∀ b c,
    t[(childOf a b).toNat]? = some c → c.parent.toNat = i
  /-- ROOT has no parent -/
  top : NodeIs t root.toNat (fun a => a.parent = Config.null)

/-- Where TREE_VALID = 1 the arena holds a tree (R58). -/
def TreeInv (s : State) : Prop :=
  s.treeValid = true → TreeOk s.node s.root s.nLeaf.toNat

/-- Where CT_VALID = 1, CODE is the code table that BUILD_CODES derives from the current tree (R58). -/
def CodeInv (s : State) : Prop :=
  s.ctValid = true → codeTable s.node s.root s.nLeaf.toNat = .ok s.code

/-- While DECOMPRESS runs without an error, its cursor is an internal node of a valid tree (R263). -/
def CursorInv (s : State) : Prop :=
  s.seq = .run .decompress → s.point ≠ .entry → s.pend.code = .none →
    s.treeValid = true ∧ s.nLeaf.toNat ≤ s.cur.toNat ∧ s.cur.toNat ≤ s.root.toNat

/-- The places a sequencer state can stand at (R150; assumption 3). -/
def PointOk : Seq → Point → Prop
  | .run .record, p => p = .entry ∨ ∃ i, p = .atPop i
  | .run .compress, p => p = .entry ∨ (∃ i, p = .atPop i) ∨ (∃ i b j, p = .atCode i b j) ∨ p = .atEnd
  | .run .decompress, p => p = .entry ∨ (∃ q, p = .atPop q) ∨ ∃ q byte t, p = .atBit q byte t ∧ t < 8
  | _, p => p = .entry

/-- What the control state keeps in every run from reset. -/
structure ControlInv (s : State) : Prop where
  /-- while BUSY, DONE, ERR, ERRCODE, ERRINFO and ERRPOS read 0 (R28, R29, R38, R39) -/
  busyClean : s.seq ≠ .idle →
    s.done = false ∧ s.err = false ∧ s.errCode = .none ∧ s.errInfo = 0#32 ∧ s.errPos = 0#64
  /-- ERR is (ERRCODE ≠ 0) (R29) -/
  errIsCode : s.err = decide (s.errCode ≠ .none)
  /-- an error is reported only with DONE (R153, R33) -/
  errNeedsDone : s.err = true → s.done = true
  /-- ERRINFO and ERRPOS read 0 after a success (R301) -/
  successClean : s.done = true → s.errCode = .none → s.errInfo = 0#32 ∧ s.errPos = 0#64
  /-- without a recorded error the pending-error register is (0, 0, 0) (R61) -/
  pendClean : s.pend.code = .none → s.pend = ErrReport.clear
  /-- CT_VALID = 1 implies TREE_VALID = 1 (R58) -/
  codesNeedTree : s.ctValid = true → s.treeValid = true
  /-- without a tree ROOT is NULL and NLEAF is 0 (R42, R54) -/
  noTree : s.treeValid = false → s.root = Config.null ∧ s.nLeaf = 0#9
  /-- a byte is in handshake on OUT only while COMPRESS or DECOMPRESS runs (R87, R93) -/
  slotInStream : s.outSlot ≠ none → s.seq = .run .compress ∨ s.seq = .run .decompress
  /-- in RESET_INIT no tree and no code table is valid (R64, R341) -/
  resetClean : s.seq = .resetInit → s.treeValid = false ∧ s.ctValid = false
  /-- the packer's accumulator holds 0..7 bits (R59) -/
  accRange : s.k < 8
  /-- the running command stands at a place of its rule -/
  pointOk : PointOk s.seq s.point

/-- The invariant of the machine: it holds at reset and every step keeps it. -/
structure Inv (s : State) : Prop where
  control : ControlInv s
  tree : TreeInv s
  codes : CodeInv s
  cursor : CursorInv s

/-- A step is safe when the machine goes on (60_exceptions.md R309: the hardware never locks up). -/
def StepSafe (s : State) : Prop := ∃ t, step s = .next t

end Sys2Proof.Machine
end

