-- ==== Sys2Proof/Certificates/Slice0/Obligations.lean ====
section
/-! DEFINITION. The statements about the HUFF core, from the rules of spec/. Each docstring names the
rules its statement rests on; OBLIGATIONS.json lists them. -/

open Sys2Proof Sys2Proof.Machine

/-! ### Encoding -/

/-- The six words of R112 decode to their commands, and words R114 calls illegal decode to none. -/
def Obligations.CommandWordsDecode : Prop :=
  decodeTableWord 32 0x00000001 = some .init ∧ decodeTableWord 32 0x00000002 = some .record ∧
  decodeTableWord 32 0x00000003 = some .buildTree ∧ decodeTableWord 32 0x00000004 = some .buildCodes ∧
  decodeTableWord 32 0x00000005 = some .compress ∧ decodeTableWord 32 0x00000006 = some .decompress ∧
  decode 0x00000000#32 = none ∧ decode 0x00000007#32 = none ∧ decode 0x0000000F#32 = none ∧
  decode 0x00000010#32 = none ∧ decode 0x00000015#32 = none ∧ decode 0x80000003#32 = none

/-- Decoding an encoded command gives it back, and its word is legal (R111, R112). -/
def Obligations.EncodeThenDecode : Prop :=
  ∀ i : Instr, decode (encode i) = some i ∧ wellFormedWord (encode i) = true

/-- R115: every 32-bit word is one of the six commands, when bits [31:4] are 0 and OP is 1..6, and that
command's word only, or illegal. -/
def Obligations.DecodeReadsExactlyTheLegalWords : Prop :=
  ∀ w : Word,
    ((∃ i, decode w = some i) ↔
      w.extractLsb' 4 28 = 0#28 ∧ 1 ≤ (w.extractLsb' 0 4).toNat ∧ (w.extractLsb' 0 4).toNat ≤ 6) ∧
    (∀ i, decode w = some i ↔ w = encode i)

/-! ### One step -/

/-- A legal word written to CMD while the engine is IDLE (R151) makes the step the engine step of the command
it decodes to; offset bits [1:0] are ignored (R81). What a write in the cycle of a read does is in
BusyReadsAreDraws, for this statement and every other about a write. -/
def Obligations.StepRunsTheWrittenCommand : Prop :=
  ∀ (s : State) (off : BitVec 8) (v : Word) (rest : List HostEvent) (i : Instr),
    s.script = .write off v :: rest → s.seq = .idle → off &&& 0xFC#8 = 0x04#8 → decode v = some i →
    step s = exec i { s with script := rest }

/-- While a command runs, the engine's turn is the engine step of that command (R21, R150), whether the turn
is the next event or the script is empty (assumption 1). -/
def Obligations.StepRunsTheRunningCommand : Prop :=
  ∀ (s : State) (i : Instr), s.seq = .run i →
    (s.script = [] → step s = exec i s) ∧
    (∀ rest, s.script = .engine :: rest → step s = exec i { s with script := rest })

/-- The acceptance of a command (R151): the last report is cleared, LASTOP takes the opcode, SEQ becomes
RUN(op); STATUS.REJECT and everything else stay. -/
def Obligations.AcceptLaunchesTheCommand : Prop :=
  ∀ (s : State) (i : Instr), s.seq = .idle →
    exec i s = .next { s with
      seq := .run i, point := .entry
      done := false, err := false, errCode := .none
      lastOp := opcode i, errInfo := 0#32, errPos := 0#64, pend := ⟨.none, 0#32, 0#64⟩ }

/-- R152: an illegal word written to CMD while IDLE is reported at once; BUSY stays 0, no stream byte moves,
nothing else changes. -/
def Obligations.IllegalWordIsReported : Prop :=
  ∀ (s : State) (off : BitVec 8) (w : Word) (rest : List HostEvent),
    s.script = .write off w :: rest → s.seq = .idle → off &&& 0xFC#8 = 0x04#8 → decode w = none →
    step s = .next { s with
      script := rest
      seq := .idle, point := .entry
      done := true, err := true, errCode := .illegalCmd
      lastOp := w.extractLsb' 0 4, errInfo := w, errPos := 0#64, pend := ⟨.illegalCmd, w, 0#64⟩ } ∧
    ErrorCode.illegalCmd.bits = 6#4

/-- R84: while BUSY a write to a locked register only sets REJECT; ACK and IRQ_EN are accepted; writes to
read-only registers and reserved offsets are ignored without REJECT, at all times. -/
def Obligations.BusyLock : Prop :=
  ∀ (s : State) (off : BitVec 8) (v : Word) (rest : List HostEvent),
    s.script = .write off v :: rest →
    (s.seq ≠ .idle →
      off &&& 0xFC#8 ∈ [0x04#8, 0x14#8, 0x18#8, 0x1C#8, 0x38#8, 0x3C#8, 0x40#8, 0x48#8, 0x64#8, 0x68#8] →
      step s = .next { s with script := rest, reject := true }) ∧
    (off &&& 0xFC#8 = 0x0C#8 → v.getLsbD 0 = true →
      step s = .next { s with script := rest, done := false, err := false, errCode := .none, reject := false }) ∧
    (off &&& 0xFC#8 = 0x10#8 → step s = .next { s with script := rest, ie := v.getLsbD 0 }) ∧
    (off &&& 0xFC#8 ∈ [0x00#8, 0x08#8, 0x20#8, 0x24#8, 0x28#8, 0x2C#8, 0x30#8, 0x34#8, 0x44#8, 0x4C#8,
        0x50#8, 0x54#8, 0x58#8, 0x5C#8, 0x60#8, 0x6C#8, 0x70#8] ∨ 0x74 ≤ off.toNat →
      step s = .next { s with script := rest })

/-- R33: ACK with bit 0 = 1 clears DONE, ERR, ERRCODE and REJECT and nothing else, with bit 0 = 0 has no
effect, in every sequencer state; while BUSY only REJECT is cleared; reads return 0. -/
def Obligations.AckClearsTheReport : Prop :=
  (∀ (s : State) (off : BitVec 8) (v : Word) (rest : List HostEvent),
    s.script = .write off v :: rest → off &&& 0xFC#8 = 0x0C#8 →
    (v.getLsbD 0 = true →
      step s = .next { s with script := rest, done := false, err := false, errCode := .none, reject := false }) ∧
    (v.getLsbD 0 = false → step s = .next { s with script := rest }) ∧
    (v.getLsbD 0 = true → ControlInv s → s.seq ≠ .idle →
      step s = .next { s with script := rest, reject := false })) ∧
  (∀ (s : State) (off : BitVec 8) (rest : List HostEvent),
    s.script = .read off :: rest → off &&& 0xFC#8 = 0x0C#8 →
    step s = .next { s with script := rest, reads := s.reads ++ [0#32] })

/-- Accepted writes of the operand and index registers while IDLE (R35, R36, R41, R43, R47): each stores its
value, cut to the register's width, a 64-bit register keeps its other half, and nothing else changes. -/
def Obligations.IdleWritesStore : Prop :=
  ∀ (s : State) (off : BitVec 8) (v : Word) (rest : List HostEvent),
    s.script = .write off v :: rest → s.seq = .idle →
    (off &&& 0xFC#8 = 0x14#8 → step s = .next { s with script := rest, len := v }) ∧
    (off &&& 0xFC#8 = 0x18#8 → ∃ c : Count, c.toNat = s.bitCnt.toNat / 2 ^ 32 * 2 ^ 32 + v.toNat ∧
      step s = .next { s with script := rest, bitCnt := c }) ∧
    (off &&& 0xFC#8 = 0x1C#8 → ∃ c : Count, c.toNat = v.toNat * 2 ^ 32 + s.bitCnt.toNat % 2 ^ 32 ∧
      step s = .next { s with script := rest, bitCnt := c }) ∧
    (off &&& 0xFC#8 = 0x38#8 → step s = .next { s with script := rest, freqIdx := v.setWidth 8 }) ∧
    (off &&& 0xFC#8 = 0x48#8 → step s = .next { s with script := rest, nodeIdx := v.setWidth 9 }) ∧
    (off &&& 0xFC#8 = 0x64#8 → step s = .next { s with script := rest, codeIdx := v.setWidth 8 }) ∧
    (off &&& 0xFC#8 = 0x68#8 → step s = .next { s with script := rest, codeWsel := v.setWidth 3 })

/-- The frequency window (R41): a write to FREQ_LO or FREQ_HI sets one half of FREQ[FREQ_IDX], leaves the
other half and every other counter as they were, and changes nothing else (R173, R174). -/
def Obligations.FrequencyWindowWrites : Prop :=
  ∀ (s : State) (off : BitVec 8) (v : Word) (rest : List HostEvent),
    s.script = .write off v :: rest → s.seq = .idle →
    (off &&& 0xFC#8 = 0x3C#8 ∨ off &&& 0xFC#8 = 0x40#8) →
    ∃ f : Vector Count 256, step s = .next { s with script := rest, freq := f } ∧
      (∀ b, b ≠ s.freqIdx → tableGet f b = tableGet s.freq b) ∧
      (off &&& 0xFC#8 = 0x3C#8 →
        (tableGet f s.freqIdx).toNat = (tableGet s.freq s.freqIdx).toNat / 2 ^ 32 * 2 ^ 32 + v.toNat) ∧
      (off &&& 0xFC#8 = 0x40#8 →
        (tableGet f s.freqIdx).toNat = v.toNat * 2 ^ 32 + (tableGet s.freq s.freqIdx).toNat % 2 ^ 32)

/-! ### Reads -/

/-- What the plain registers read while IDLE (R24, R25, R33 to R40, R41, R43, R47, R50), and that a read
changes nothing else (R83). -/
def Obligations.IdleReadsOfRegisters : Prop :=
  ∀ (s : State) (off : BitVec 8) (rest : List HostEvent),
    s.script = .read off :: rest → s.seq = .idle →
    ∃ w : Word, step s = .next { s with script := rest, reads := s.reads ++ [w] } ∧
      (off &&& 0xFC#8 = 0x00#8 → w = 0x48554646#32) ∧
      (off &&& 0xFC#8 = 0x04#8 → w = 0#32) ∧
      (off &&& 0xFC#8 = 0x0C#8 → w = 0#32) ∧
      (off &&& 0xFC#8 = 0x10#8 → w.toNat = s.ie.toNat) ∧
      (off &&& 0xFC#8 = 0x14#8 → w = s.len) ∧
      (off &&& 0xFC#8 = 0x18#8 → w.toNat = s.bitCnt.toNat % 2 ^ 32) ∧
      (off &&& 0xFC#8 = 0x1C#8 → w.toNat = s.bitCnt.toNat / 2 ^ 32) ∧
      (off &&& 0xFC#8 = 0x20#8 → w.toNat = s.outCnt.toNat % 2 ^ 32) ∧
      (off &&& 0xFC#8 = 0x24#8 → w.toNat = s.outCnt.toNat / 2 ^ 32) ∧
      (off &&& 0xFC#8 = 0x28#8 → w = s.errInfo) ∧
      (off &&& 0xFC#8 = 0x2C#8 → w.toNat = s.errPos.toNat % 2 ^ 32) ∧
      (off &&& 0xFC#8 = 0x30#8 → w.toNat = s.errPos.toNat / 2 ^ 32) ∧
      (off &&& 0xFC#8 = 0x34#8 →
        w.toNat = (allBytes.filter (fun b => decide (tableGet s.freq b ≠ 0#64))).length) ∧
      (off &&& 0xFC#8 = 0x38#8 → w.toNat = s.freqIdx.toNat) ∧
      (off &&& 0xFC#8 = 0x3C#8 → w.toNat = (tableGet s.freq s.freqIdx).toNat % 2 ^ 32) ∧
      (off &&& 0xFC#8 = 0x40#8 → w.toNat = (tableGet s.freq s.freqIdx).toNat / 2 ^ 32) ∧
      (off &&& 0xFC#8 = 0x48#8 → w.toNat = s.nodeIdx.toNat) ∧
      (off &&& 0xFC#8 = 0x64#8 → w.toNat = s.codeIdx.toNat) ∧
      (off &&& 0xFC#8 = 0x68#8 → w.toNat = s.codeWsel.toNat) ∧
      (0x74 ≤ off.toNat → w = 0#32)

/-- The STATUS word, bit by bit, while IDLE (R26, R31), and the numbers of the error codes (R300). -/
def Obligations.StatusWordFields : Prop :=
  (∀ (s : State) (off : BitVec 8) (rest : List HostEvent),
    s.script = .read off :: rest → s.seq = .idle → off &&& 0xFC#8 = 0x08#8 →
    ∃ w : Word, step s = .next { s with script := rest, reads := s.reads ++ [w] } ∧
      w.getLsbD 0 = false ∧ w.getLsbD 1 = s.done ∧ w.getLsbD 2 = s.err ∧ w.getLsbD 3 = s.reject ∧
      w.extractLsb' 4 4 = s.errCode.bits ∧ w.getLsbD 8 = s.treeValid ∧ w.getLsbD 9 = s.ctValid ∧
      w.extractLsb' 10 2 = 0#2 ∧ w.extractLsb' 12 4 = s.lastOp ∧ w.extractLsb' 16 16 = 0#16) ∧
  ErrorCode.none.bits = 0#4 ∧ ErrorCode.emptyAlphabet.bits = 1#4 ∧ ErrorCode.emptyQueue.bits = 2#4 ∧
  ErrorCode.unknownSymbol.bits = 3#4 ∧ ErrorCode.streamCorruption.bits = 4#4 ∧
  ErrorCode.notReady.bits = 5#4 ∧ ErrorCode.illegalCmd.bits = 6#4 ∧ ErrorCode.counterOverflow.bits = 7#4

/-- The tree window while IDLE (R42 to R46): TREE_INFO, and the fields of NODE[NODE_IDX] where it is live; a
node that is not live reads 0 and NULL. -/
def Obligations.TreeWindowReads : Prop :=
  ∀ (s : State) (off : BitVec 8) (rest : List HostEvent),
    s.script = .read off :: rest → s.seq = .idle →
    ∃ w : Word,
      (off &&& 0xFC#8 ∈ [0x44#8, 0x4C#8, 0x50#8, 0x54#8, 0x58#8, 0x5C#8, 0x60#8] →
        step s = .next { s with script := rest, reads := s.reads ++ [w] }) ∧
      (off &&& 0xFC#8 = 0x44#8 →
        (s.treeValid = true → w.toNat = s.nLeaf.toNat * 2 ^ 16 + s.root.toNat) ∧
        (s.treeValid = false → w = 0x1FF#32)) ∧
      (∀ n : Node, s.treeValid = true → s.nodeIdx.toNat ≤ s.root.toNat → s.node[s.nodeIdx.toNat]? = some n →
        (off &&& 0xFC#8 = 0x4C#8 →
          (n.kind = .leaf → w.toNat = n.value.toNat * 2 ^ 8 + 1) ∧ (n.kind = .internal → w = 3#32)) ∧
        (off &&& 0xFC#8 = 0x50#8 → w.toNat = n.right.toNat * 2 ^ 16 + n.left.toNat) ∧
        (off &&& 0xFC#8 = 0x54#8 → w.toNat = n.parent.toNat) ∧
        (off &&& 0xFC#8 = 0x58#8 → w.toNat = n.weight.toNat % 2 ^ 32) ∧
        (off &&& 0xFC#8 = 0x5C#8 → w.toNat = n.weight.toNat / 2 ^ 32 % 2 ^ 32) ∧
        (off &&& 0xFC#8 = 0x60#8 → w.toNat = n.weight.toNat / 2 ^ 64)) ∧
      (s.treeValid = false ∨ s.root.toNat < s.nodeIdx.toNat →
        (off &&& 0xFC#8 = 0x4C#8 → w = 0#32) ∧ (off &&& 0xFC#8 = 0x50#8 → w = 0x01FF01FF#32) ∧
        (off &&& 0xFC#8 = 0x54#8 → w = 0x000001FF#32) ∧
        (off &&& 0xFC#8 ∈ [0x58#8, 0x5C#8, 0x60#8] → w = 0#32))

/-- The code window while IDLE (R47 to R49): CODE_INFO and word CODE_WSEL of the code vector of
CODE[CODE_IDX], both 0 where CT_VALID = 0 or the entry is absent. -/
def Obligations.CodeWindowReads : Prop :=
  ∀ (s : State) (off : BitVec 8) (rest : List HostEvent),
    s.script = .read off :: rest → s.seq = .idle →
    off &&& 0xFC#8 = 0x6C#8 ∨ off &&& 0xFC#8 = 0x70#8 →
    ∃ w : Word, step s = .next { s with script := rest, reads := s.reads ++ [w] } ∧
      (s.ctValid = true → (tableGet s.code s.codeIdx).present = true →
        (off &&& 0xFC#8 = 0x6C#8 → w.toNat = (tableGet s.code s.codeIdx).len.toNat * 2 ^ 8 + 1) ∧
        (off &&& 0xFC#8 = 0x70#8 → ∀ j, j < 32 →
          w.getLsbD j = (tableGet s.code s.codeIdx).bits.getLsbD (32 * s.codeWsel.toNat + j))) ∧
      (s.ctValid = false ∨ (tableGet s.code s.codeIdx).present = false → w = 0#32)

/-- Reads while BUSY (R85, R31): a register that changes reads the next draw; STATUS takes only its bits [9:8]
from it; every other register reads as it does while IDLE, without a draw. The draw may have any value, so the
statement holds for every value of it (assumption 5). A cycle with both strobes, in any sequencer state and at
any offset, reads the next draw and then is the write alone (R99; assumption 10), so that every statement
about a write says what such a cycle does too. -/
def Obligations.BusyReadsAreDraws : Prop :=
  (∀ (s : State) (off : BitVec 8) (rest : List HostEvent),
    s.script = .read off :: rest → s.seq ≠ .idle →
    (off &&& 0xFC#8 ∈ [0x18#8, 0x1C#8, 0x20#8, 0x24#8, 0x34#8, 0x3C#8, 0x40#8, 0x44#8, 0x4C#8, 0x50#8,
        0x54#8, 0x58#8, 0x5C#8, 0x60#8, 0x6C#8, 0x70#8] →
      step s = .next { s with
        script := rest, reads := s.reads ++ [Config.draw s.draws], draws := s.draws + 1 }) ∧
    (off &&& 0xFC#8 = 0x08#8 → ∃ w : Word,
      step s = .next { s with script := rest, reads := s.reads ++ [w], draws := s.draws + 1 } ∧
      w.getLsbD 0 = true ∧ w.getLsbD 1 = s.done ∧ w.getLsbD 2 = s.err ∧ w.getLsbD 3 = s.reject ∧
      w.extractLsb' 4 4 = s.errCode.bits ∧ w.getLsbD 8 = (Config.draw s.draws).getLsbD 8 ∧
      w.getLsbD 9 = (Config.draw s.draws).getLsbD 9 ∧ w.extractLsb' 10 2 = 0#2 ∧
      w.extractLsb' 12 4 = s.lastOp ∧ w.extractLsb' 16 16 = 0#16) ∧
    (off &&& 0xFC#8 ∈ [0x00#8, 0x04#8, 0x0C#8, 0x10#8, 0x14#8, 0x28#8, 0x2C#8, 0x30#8, 0x38#8, 0x48#8,
        0x64#8, 0x68#8] ∨ 0x74 ≤ off.toNat →
      ∃ w : Word, step s = .next { s with script := rest, reads := s.reads ++ [w] } ∧
        step { s with seq := .idle } = .next { s with seq := .idle, script := rest, reads := s.reads ++ [w] })) ∧
  (∀ (s : State) (off : BitVec 8) (v : Word) (rest : List HostEvent),
    s.script = .writeRead off v :: rest →
    step s = step { s with
      script := .write off v :: rest, reads := s.reads ++ [Config.draw s.draws], draws := s.draws + 1 })

/-! ### Reset and the interrupt -/

/-- The state right after reset has the values of R64's table. -/
def Obligations.ResetValues : Prop :=
  let s := State.reset
  s.seq = .resetInit ∧ s.busy = true ∧
  s.done = false ∧ s.err = false ∧ s.reject = false ∧ s.errCode.bits = 0#4 ∧ s.lastOp = 0#4 ∧
  s.treeValid = false ∧ s.ctValid = false ∧ s.ie = false ∧ s.len = 0#32 ∧ s.bitCnt = 0#64 ∧
  s.outCnt = 0#64 ∧ s.errInfo = 0#32 ∧ s.errPos = 0#64 ∧ s.freqIdx = 0#8 ∧ s.nodeIdx = 0#9 ∧
  s.codeIdx = 0#8 ∧ s.codeWsel = 0#3 ∧ (∀ b, tableGet s.freq b = 0#64) ∧ s.root = 0x1FF#9 ∧
  s.nLeaf = 0#9 ∧ (∀ b, tableGet s.code b = ⟨false, 0#8, 0#256⟩) ∧ s.pend = ⟨.none, 0#32, 0#64⟩ ∧
  s.irq = false ∧ s.inReady = false ∧ s.outValid = false

/-- A reset clock edge (R340), whatever the engine was doing: every register, flag and memory with a reset
value takes it, a running command is abandoned without a report, the OUT byte is withdrawn, and the bytes the
host took or still offers stay the host's (R342). -/
def Obligations.ResetAbandonsTheCommand : Prop :=
  ∀ (s : State) (rest : List HostEvent), s.script = .reset :: rest →
    ∃ t, step s = .next t ∧
      t.seq = .resetInit ∧ t.done = false ∧ t.err = false ∧ t.errCode = .none ∧ t.reject = false ∧
      t.lastOp = 0#4 ∧ t.treeValid = false ∧ t.ctValid = false ∧ t.ie = false ∧ t.len = 0#32 ∧
      t.bitCnt = 0#64 ∧ t.outCnt = 0#64 ∧ t.errInfo = 0#32 ∧ t.errPos = 0#64 ∧ t.freqIdx = 0#8 ∧
      t.nodeIdx = 0#9 ∧ t.codeIdx = 0#8 ∧ t.codeWsel = 0#3 ∧ (∀ b, tableGet t.freq b = 0#64) ∧
      t.root = 0x1FF#9 ∧ t.nLeaf = 0#9 ∧ (∀ b, tableGet t.code b = ⟨false, 0#8, 0#256⟩) ∧
      t.pend = ⟨.none, 0#32, 0#64⟩ ∧ t.inReady = false ∧ t.outValid = false ∧ t.irq = false ∧
      t.inQ = s.inQ ∧ t.taken = s.taken ∧ t.reads = s.reads ∧ t.script = rest

/-- The end of RESET_INIT (R341), which is the engine's turn, whether that turn is the next event, with any
host events after it, or the script is empty (assumption 1): FREQ is zero and CODE absent, the engine is IDLE,
DONE stays as it was (0 after reset), so no interrupt follows; nothing else changes. -/
def Obligations.ResetInitClearsTheMemories : Prop :=
  ∀ (s : State), s.seq = .resetInit →
    ∃ (f : Vector Count 256) (c : Vector CodeEntry 256),
      (s.script = [] →
        step s = .next { s with seq := .idle, point := .entry, freq := f, code := c }) ∧
      (∀ rest, s.script = .engine :: rest →
        step s = .next { s with script := rest, seq := .idle, point := .entry, freq := f, code := c }) ∧
      (∀ b, tableGet f b = 0#64) ∧ (∀ b, tableGet c b = ⟨false, 0#8, 0#256⟩)

/-- R153 and R312: an engine step that takes a running command to IDLE is its `finish`. It reports the
recorded error in STATUS, ERRINFO and ERRPOS, sets DONE, raises `irq` where IE = 1, and no byte is left in
handshake on OUT; any other engine step of a running command leaves the report alone. At all times `irq` is IE
and DONE: it is 0 while BUSY, an accepted command and ACK with bit 0 = 1 drop it, a write to IRQ_EN makes it
the new IE and DONE at once, an illegal word raises it where IE = 1, and a rejected write leaves it. -/
def Obligations.FinishReportsAndRaisesIrq : Prop :=
  (∀ (i : Instr) (s t : State), s.seq = .run i → exec i s = .next t →
    (t.seq = .idle →
      t.done = true ∧ t.errCode = t.pend.code ∧ t.err = decide (t.pend.code ≠ .none) ∧
      t.errInfo = t.pend.info ∧ t.errPos = t.pend.pos ∧ t.irq = s.ie ∧ t.outSlot = none ∧
      t.point = .entry) ∧
    (t.seq ≠ .idle →
      t.seq = .run i ∧ t.done = s.done ∧ t.err = s.err ∧ t.errCode = s.errCode ∧
      t.errInfo = s.errInfo ∧ t.errPos = s.errPos)) ∧
  (∀ s : State, (s.irq = true ↔ s.ie = true ∧ s.done = true) ∧
    (ControlInv s → s.seq ≠ .idle → s.irq = false)) ∧
  (∀ (i : Instr) (s : State), s.seq = .idle → ∃ t, exec i s = .next t ∧ t.irq = false) ∧
  (∀ (s : State) (off : BitVec 8) (v : Word) (rest : List HostEvent), s.script = .write off v :: rest →
    (off &&& 0xFC#8 = 0x0C#8 → v.getLsbD 0 = true → ∃ t, step s = .next t ∧ t.irq = false) ∧
    (off &&& 0xFC#8 = 0x10#8 → ∃ t, step s = .next t ∧ t.irq = (v.getLsbD 0 && s.done)) ∧
    (off &&& 0xFC#8 = 0x04#8 → s.seq = .idle → decode v = none → ∃ t, step s = .next t ∧ t.irq = s.ie) ∧
    (s.seq ≠ .idle →
      off &&& 0xFC#8 ∈ [0x04#8, 0x14#8, 0x18#8, 0x1C#8, 0x38#8, 0x3C#8, 0x40#8, 0x48#8, 0x64#8, 0x68#8] →
      ∃ t, step s = .next t ∧ t.irq = s.irq))

/-! ### Streams -/

/-- R86: in every sequencer state a byte the host offers joins IN behind those offered before it, and nothing
else changes; the engine takes a byte only at an `InPop()` (`in_ready` = 1), it takes the oldest byte offered,
and it holds at `InPop()` while none is offered. -/
def Obligations.InPopTakesTheOldestByte : Prop :=
  (∀ (s : State) (b : Byte) (rest : List HostEvent), s.script = .offer b :: rest →
    step s = .next { s with script := rest, inQ := s.inQ ++ [b] }) ∧
  (∀ (i : Instr) (s t : State), s.seq = .run i → exec i s = .next t →
    (t.inQ ≠ s.inQ → s.inReady = true ∧ ∃ b, s.inQ = b :: t.inQ) ∧
    (s.inReady = true → (s.inQ = [] → t = s) ∧ ∀ b rest, s.inQ = b :: rest → t.inQ = rest))

/-- R87: the engine pushes a byte only into an empty slot, only COMPRESS and DECOMPRESS push, a full slot
holds every command, and the host's `take` empties it. -/
def Obligations.OutPushHoldsUntilTaken : Prop :=
  (∀ (i : Instr) (s : State) (v : Byte), s.seq = .run i → s.outSlot = some v → exec i s = .next s) ∧
  (∀ (i : Instr) (s t : State), s.seq = .run i → exec i s = .next t → t.outSlot ≠ s.outSlot →
    s.outSlot = none ∧ (i = .compress ∨ i = .decompress)) ∧
  (∀ (i : Instr) (s t : State), exec i s = .next t → t.taken = s.taken) ∧
  (∀ (s : State) (rest : List HostEvent) (v : Byte), s.script = .take :: rest → s.outSlot = some v →
    step s = .next { s with script := rest, outSlot := none, taken := s.taken ++ [v] })

/-! ### INIT and RECORD -/

/-- INIT (R157): FREQ, CODE, the validity flags, ROOT, NLEAF, BITCNT and OUTCNT are cleared, success is
reported, and nothing else changes. -/
def Obligations.InitClearsTheCoder : Prop :=
  ∀ s : State, Running .init s → s.pend = ⟨.none, 0#32, 0#64⟩ →
    ∃ (f : Vector Count 256) (c : Vector CodeEntry 256),
      exec .init s = .next (reportSuccess { s with
        freq := f, code := c, treeValid := false, ctValid := false
        root := 0x1FF#9, nLeaf := 0#9, bitCnt := 0#64, outCnt := 0#64 }) ∧
      (∀ b, tableGet f b = 0#64) ∧ (∀ b, tableGet c b = ⟨false, 0#8, 0#256⟩)

/-- R171 and the loop of R170: a popped byte adds exactly 1 to its counter, unless that counter holds 2^64 −
1, where the increment is refused with COUNTER_OVERFLOW; after an error bytes are drained (R156). Nothing else
changes. -/
def Obligations.RecordCountsOneByte : Prop :=
  ∀ (s : State) (i : Nat) (b : Byte) (rest : List Byte),
    Running .record s → s.point = .atPop i → i < s.len.toNat → s.inQ = b :: rest →
    (s.pend.code = .none → (tableGet s.freq b).toNat < 2 ^ 64 - 1 →
      ∃ f : Vector Count 256,
        exec .record s = .next { s with inQ := rest, freq := f, point := .atPop (i + 1) } ∧
        ∀ c, (tableGet f c).toNat = (tableGet s.freq c).toNat + if c = b then 1 else 0) ∧
    (s.pend.code = .none → (tableGet s.freq b).toNat = 2 ^ 64 - 1 →
      exec .record s = .next { s with
        inQ := rest, point := .atPop (i + 1)
        pend := ⟨.counterOverflow, b.setWidth 32, BitVec.ofNat 64 i⟩ }) ∧
    (s.pend.code ≠ .none →
      exec .record s = .next { s with inQ := rest, point := .atPop (i + 1) })

/-- The start and the end of RECORD (R170): it pops nothing before its loop, and after LEN bytes (none for LEN
= 0) it reports success or the recorded error. -/
def Obligations.RecordStartsAndEnds : Prop :=
  ∀ s : State, Running .record s →
    (s.point = .entry → exec .record s = .next { s with point := .atPop 0 }) ∧
    (∀ i, s.point = .atPop i → s.len.toNat ≤ i →
      (s.pend = ⟨.none, 0#32, 0#64⟩ → exec .record s = .next (reportSuccess s)) ∧
      (∀ c x p, c ≠ .none → s.pend = ⟨c, x, p⟩ → exec .record s = .next (reportError c x p s)))

/-- RECORD of a whole message (R170, R172), in the run where the message is on IN before the command and only
the engine moves after it, one of the runs of R124 (assumption 18): from IDLE, with no counter that would
overflow, it ends with success, takes exactly the LEN message bytes, adds to each counter the number of times
its byte occurs, and changes nothing else. -/
def Obligations.RecordCountsTheMessage : Prop :=
  ∀ (s : State) (m rest : List Byte),
    s.seq = .idle → s.outSlot = none → s.script = hostCmd .record → s.inQ = m ++ rest →
    s.len.toNat = m.length → (∀ b, (tableGet s.freq b).toNat + m.count b < 2 ^ 64) →
    ∃ f : Vector Count 256,
      run (m.length + 3) s = .next (reportSuccess { s with
        script := [], inQ := rest, freq := f, lastOp := 2#4, pend := ⟨.none, 0#32, 0#64⟩ }) ∧
      ∀ b, (tableGet f b).toNat = (tableGet s.freq b).toNat + m.count b

/-! ### The priority queue and BUILD_TREE -/

/-- R191: `PQInsert(i)` puts `i` after every entry whose weight is not greater than its own that stands before
the first greater one, and immediately before that first strictly greater entry, or at the end. -/
def Obligations.PqInsertPlace : Prop :=
  ∀ (t : Vector Node 511) (i : NodeIdx) (q : List NodeIdx),
    ∃ a c, q = a ++ c ∧ pqInsert t i q = a ++ i :: c ∧
      (∀ j ∈ a, (weightOf t j).toNat ≤ (weightOf t i).toNat) ∧
      (∀ j, c.head? = some j → (weightOf t i).toNat < (weightOf t j).toNat)

/-- R190: inserting keeps the queue in non-decreasing weight, and keeps the order of the entries that were
there (equal weights stay in insertion order). -/
def Obligations.PqInsertKeepsOrder : Prop :=
  ∀ (t : Vector Node 511) (i : NodeIdx) (q : List NodeIdx),
    q.Pairwise (fun a b => (weightOf t a).toNat ≤ (weightOf t b).toNat) →
    (pqInsert t i q).Pairwise (fun a b => (weightOf t a).toNat ≤ (weightOf t b).toNat) ∧
    q.Sublist (pqInsert t i q) ∧ (pqInsert t i q).length = q.length + 1

/-- R192: `PQExtractMin()` removes and returns the first entry; from an empty queue it records EMPTY_QUEUE,
unless an error is recorded already (R14), and returns NULL. R196: a merge that makes node `z` extracts the
first entry `x` and then the second `y`; NODE[z] becomes an INTERNAL node of value 0 and weight w(x) + w(y),
with `x` as its left child, `y` as its right child and no parent; the parent of `x` and of `y` becomes `z`;
every other entry and field stays, and `z` is inserted into what is left of the queue. -/
def Obligations.PqExtractTakesTheFirst : Prop :=
  (∀ b : Builder,
    (∀ q qs, b.pq = q :: qs → pqExtractMin b = (q, { b with pq := qs })) ∧
    (b.pq = [] → b.pend.code = .none →
      pqExtractMin b = (0x1FF#9, { b with pend := ⟨.emptyQueue, 0#32, 0#64⟩ })) ∧
    (b.pq = [] → b.pend.code ≠ .none → pqExtractMin b = (0x1FF#9, b))) ∧
  ErrorCode.emptyQueue.bits = 2#4 ∧
  (∀ (b : Builder) (x y z : NodeIdx) (qs : List NodeIdx) (nx ny : Node),
    b.pq = x :: y :: qs → b.pend.code = .none → b.node[x.toNat]? = some nx → b.node[y.toNat]? = some ny →
    z ≠ 0x1FF#9 → x ≠ y → x ≠ z → y ≠ z →
    ∃ t : Vector Node 511,
      mergeOnce z b = { b with node := t, pq := pqInsert t z qs } ∧
      t[z.toNat]? = some ⟨.internal, 0#8, nx.weight + ny.weight, x, y, 0x1FF#9⟩ ∧
      t[x.toNat]? = some { nx with parent := z } ∧ t[y.toNat]? = some { ny with parent := z } ∧
      (∀ i : Nat, i ≠ x.toNat → i ≠ y.toNat → i ≠ z.toNat → t[i]? = b.node[i]?))

/-- R199: with no byte value recorded, BUILD_TREE reports EMPTY_ALPHABET and changes nothing else, so an
earlier tree and code table stay valid. -/
def Obligations.BuildTreeOfNothing : Prop :=
  ∀ s : State, Running .buildTree s → s.pend = ⟨.none, 0#32, 0#64⟩ →
    (∀ b, tableGet s.freq b = 0#64) →
    exec .buildTree s = .next (reportError .emptyAlphabet 0#32 0#64 s) ∧
    ErrorCode.emptyAlphabet.bits = 1#4

/-- BUILD_TREE of one distinct symbol (R198): the leaf, the pad node over it, ROOT = 1, NLEAF = 1. -/
def Obligations.BuildTreeOfOneSymbol : Prop :=
  ∀ (s : State) (b : Byte), Running .buildTree s → s.pend = ⟨.none, 0#32, 0#64⟩ →
    (∀ c, tableGet s.freq c ≠ 0#64 ↔ c = b) →
    ∃ (t : Vector Node 511) (q : List NodeIdx),
      exec .buildTree s = .next (reportSuccess { s with
        node := t, pq := q, ctValid := false, treeValid := true, root := 1#9, nLeaf := 1#9 }) ∧
      t[0]? = some ⟨.leaf, b, (tableGet s.freq b).setWidth 72, 0x1FF#9, 0x1FF#9, 1#9⟩ ∧
      t[1]? = some ⟨.internal, 0#8, (tableGet s.freq b).setWidth 72, 0#9, 0x1FF#9, 0x1FF#9⟩

/-- BUILD_TREE with `n` ≥ 1 distinct byte values always succeeds (R194, R200: EMPTY_QUEUE is unreachable):
ROOT and NLEAF are as R53 says, TREE_VALID is set and CT_VALID cleared (R197), and only NODE and PQ change
besides. -/
def Obligations.BuildTreeSucceeds : Prop :=
  ∀ s : State, Running .buildTree s → s.pend = ⟨.none, 0#32, 0#64⟩ → 1 ≤ nDistinct s.freq →
    ∃ (t : Vector Node 511) (q : List NodeIdx),
      exec .buildTree s = .next (reportSuccess { s with
        node := t, pq := q, ctValid := false, treeValid := true
        root := BitVec.ofNat 9 (if nDistinct s.freq = 1 then 1 else 2 * nDistinct s.freq - 2)
        nLeaf := BitVec.ofNat 9 (nDistinct s.freq) })

/-- The leaves (R195, R53): leaf k is NODE[k], for the k-th byte value with a non-zero counter in ascending
order, and its weight is that counter. -/
def Obligations.BuildTreeLeaves : Prop :=
  ∀ (s t : State), Running .buildTree s → s.pend = ⟨.none, 0#32, 0#64⟩ → 1 ≤ nDistinct s.freq →
    exec .buildTree s = .next t →
    ∀ k b, (allBytes.filter (fun c => decide (tableGet s.freq c ≠ 0#64)))[k]? = some b →
      NodeIs t.node k (fun a => a.kind = .leaf ∧ a.value = b ∧
        a.weight.toNat = (tableGet s.freq b).toNat)

/-- The shape (R53, R202): NODE holds a tree of NLEAF leaves with every link in place. -/
def Obligations.BuildTreeShape : Prop :=
  ∀ (s t : State), Running .buildTree s → s.pend = ⟨.none, 0#32, 0#64⟩ → 1 ≤ nDistinct s.freq →
    exec .buildTree s = .next t → TreeOk t.node t.root (nDistinct s.freq)

/-- The weights (R201, R202): an internal node of a tree with n ≥ 2 weighs exactly its two children together,
and the root weighs the sum of all counters. The merge order (R190, R191, R196): ordered by weight, and by
node index where weights are equal (leaves ascend and enter first, then the internal nodes in the order of
their making), the left child of each internal node comes before its right child, and its right child before
the left child of the next internal node. So each merge took the two first of what was left, in that order,
and with the shape the whole tree is determined. -/
def Obligations.BuildTreeWeights : Prop :=
  ∀ (s t : State), Running .buildTree s → s.pend = ⟨.none, 0#32, 0#64⟩ → 1 ≤ nDistinct s.freq →
    exec .buildTree s = .next t →
    (weightOf t.node t.root).toNat = (allBytes.map (fun b => (tableGet s.freq b).toNat)).sum ∧
    (2 ≤ nDistinct s.freq → ∀ i, nDistinct s.freq ≤ i → i ≤ t.root.toNat →
      NodeIs t.node i (fun a => a.weight.toNat = (weightOf t.node a.left).toNat + (weightOf t.node a.right).toNat)) ∧
    (2 ≤ nDistinct s.freq →
      let before (x y : NodeIdx) : Prop :=
        (weightOf t.node x).toNat < (weightOf t.node y).toNat ∨
        ((weightOf t.node x).toNat = (weightOf t.node y).toNat ∧ x.toNat < y.toNat)
      ∀ i, nDistinct s.freq ≤ i → i ≤ t.root.toNat →
        NodeIs t.node i (fun a => before a.left a.right ∧
          (i < t.root.toNat → NodeIs t.node (i + 1) (fun c => before a.right c.left))))

/-- R203: the tree, that is every field of nodes 0..ROOT, ROOT and NLEAF, is a function of FREQ alone:
whatever else two states hold, old NODE contents and queue included, BUILD_TREE makes the same tree. -/
def Obligations.BuildTreeDependsOnFreqOnly : Prop :=
  ∀ (s1 s2 t1 t2 : State), Running .buildTree s1 → Running .buildTree s2 →
    s1.pend = ⟨.none, 0#32, 0#64⟩ → s2.pend = ⟨.none, 0#32, 0#64⟩ →
    s1.freq = s2.freq → 1 ≤ nDistinct s1.freq →
    exec .buildTree s1 = .next t1 → exec .buildTree s2 = .next t2 →
    t1.root = t2.root ∧ t1.nLeaf = t2.nLeaf ∧
    ∀ i, i ≤ t1.root.toNat → t1.node[i]? = t2.node[i]?

/-! ### BUILD_CODES -/

/-- The readiness checks (R155 step 2): BUILD_CODES and DECOMPRESS without a tree and COMPRESS without a code
table record NOT_READY with info = 0 and pos = 0, first of all their checks; BUILD_CODES ends at once, and
COMPRESS and DECOMPRESS go on to drain their input (R156). -/
def Obligations.NotReadyIsReported : Prop :=
  (∀ s : State, Running .buildCodes s → s.pend = ⟨.none, 0#32, 0#64⟩ → s.treeValid = false →
    exec .buildCodes s = .next (reportError .notReady 0#32 0#64 s)) ∧
  (∀ s : State, Running .compress s → s.point = .entry → s.pend = ⟨.none, 0#32, 0#64⟩ → s.ctValid = false →
    exec .compress s = .next { s with
      acc := 0#8, k := 0, nbits := 0#64, packOut := 0#64
      pend := ⟨.notReady, 0#32, 0#64⟩, point := .atPop 0 }) ∧
  (∀ s : State, Running .decompress s → s.point = .entry → s.pend = ⟨.none, 0#32, 0#64⟩ → s.treeValid = false →
    exec .decompress s = .next { s with
      unpackOut := 0#64, cur := s.root
      pend := ⟨.notReady, 0#32, 0#64⟩, point := .atPop 0 })

/-- BUILD_CODES over a valid tree (R220, R224): it succeeds, changes only CODE, CT_VALID and the report, and
leaves for each leaf's value the branches from ROOT to that leaf, and every other entry absent. -/
def Obligations.BuildCodesWritesThePaths : Prop :=
  ∀ s : State, Running .buildCodes s → s.pend = ⟨.none, 0#32, 0#64⟩ → s.treeValid = true →
    TreeOk s.node s.root s.nLeaf.toNat →
    ∃ code : Vector CodeEntry 256,
      exec .buildCodes s = .next (reportSuccess { s with code := code, ctValid := true }) ∧
      (∀ k n, k < s.nLeaf.toNat → s.node[k]? = some n →
        (tableGet code n.value).present = true ∧
        descend s.node s.root (codeString (tableGet code n.value)) = some (BitVec.ofNat 9 k)) ∧
      (∀ b, (∀ k n, k < s.nLeaf.toNat → s.node[k]? = some n → n.value ≠ b) →
        tableGet code b = ⟨false, 0#8, 0#256⟩)

/-- R223, R222 and R118: for n ≥ 2 every code has length 1 to n − 1, for n = 1 the code is "0", and the code
vector's bits from the length up are 0. -/
def Obligations.CodeLengths : Prop :=
  ∀ (t : Vector Node 511) (root : NodeIdx) (n : Nat) (code : Vector CodeEntry 256) (b : Byte),
    TreeOk t root n → codeTable t root n = .ok code → (tableGet code b).present = true →
    (2 ≤ n → 1 ≤ (tableGet code b).len.toNat ∧ (tableGet code b).len.toNat ≤ n - 1) ∧
    (n = 1 → codeString (tableGet code b) = [false]) ∧
    (∀ j, (tableGet code b).len.toNat ≤ j → (tableGet code b).bits.getLsbD j = false)

/-- R225: no present code is a prefix of another present code. -/
def Obligations.CodesArePrefixFree : Prop :=
  ∀ (t : Vector Node 511) (root : NodeIdx) (n : Nat) (code : Vector CodeEntry 256) (b c : Byte),
    TreeOk t root n → codeTable t root n = .ok code → b ≠ c →
    (tableGet code b).present = true → (tableGet code c).present = true →
    ¬ codeString (tableGet code b) <+: codeString (tableGet code c)

/-! ### COMPRESS -/

/-- A message byte of COMPRESS (R240, R244): a present byte's code is next; the first absent one records
UNKNOWN_SYMBOL with the byte and its index; after an error bytes are drained (R156). -/
def Obligations.CompressTakesOneByte : Prop :=
  ∀ (s : State) (i : Nat) (b : Byte) (rest : List Byte),
    Running .compress s → s.point = .atPop i → i < s.len.toNat → s.inQ = b :: rest →
    (s.pend.code = .none → (tableGet s.code b).present = true →
      exec .compress s = .next { s with inQ := rest, point := .atCode i b 0 }) ∧
    (s.pend.code = .none → (tableGet s.code b).present = false →
      exec .compress s = .next { s with
        inQ := rest, point := .atPop (i + 1)
        pend := ⟨.unknownSymbol, b.setWidth 32, BitVec.ofNat 64 i⟩ }) ∧
    (s.pend.code ≠ .none →
      exec .compress s = .next { s with inQ := rest, point := .atPop (i + 1) })

/-- A code character of COMPRESS (R240, R242): it enters the accumulator at bit 0, the bits before it move up;
the eighth bit pushes the byte; after the last character the next byte's turn comes. -/
def Obligations.CompressPacksOneBit : Prop :=
  ∀ (s : State) (i : Nat) (b : Byte) (j : Nat),
    Running .compress s → s.point = .atCode i b j →
    (j < (tableGet s.code b).len.toNat →
      ∃ a : Byte, a.toNat = (2 * s.acc.toNat + ((tableGet s.code b).bits.getLsbD j).toNat) % 256 ∧
        (s.k < 7 → exec .compress s = .next { s with
          acc := a, k := s.k + 1, nbits := s.nbits + 1#64, point := .atCode i b (j + 1) }) ∧
        (s.k = 7 → exec .compress s = .next { s with
          outSlot := some a, acc := 0#8, k := 0, nbits := s.nbits + 1#64, packOut := s.packOut + 1#64
          point := .atCode i b (j + 1) })) ∧
    ((tableGet s.code b).len.toNat ≤ j →
      exec .compress s = .next { s with point := .atPop (i + 1) })

/-- R243: after the last input byte, 1 to 7 remaining bits go out in the high positions of a byte whose low
bits are 0; with no bits left, or after an error, nothing is pushed. -/
def Obligations.CompressFinalByte : Prop :=
  ∀ (s : State) (i : Nat), Running .compress s → s.point = .atPop i → s.len.toNat ≤ i →
    (s.pend.code = .none → 1 ≤ s.k → s.k ≤ 7 →
      ∃ v : Byte,
        exec .compress s = .next { s with
          outSlot := some v, packOut := s.packOut + 1#64, point := .atEnd } ∧
        (∀ j, j < s.k → v.getLsbD (8 - s.k + j) = s.acc.getLsbD j) ∧
        (∀ j, j < 8 - s.k → v.getLsbD j = false)) ∧
    (s.pend.code ≠ .none ∨ s.k = 0 → exec .compress s = .next { s with point := .atEnd })

/-- The start and the results of COMPRESS (R240, R241): the working state is cleared; at the end BITCNT and
OUTCNT take its counts and success, or the recorded error, is reported. -/
def Obligations.CompressStartsAndEnds : Prop :=
  ∀ s : State, Running .compress s →
    (s.point = .entry → s.ctValid = true → exec .compress s = .next { s with
      acc := 0#8, k := 0, nbits := 0#64, packOut := 0#64, point := .atPop 0 }) ∧
    (s.point = .atEnd → s.pend = ⟨.none, 0#32, 0#64⟩ →
      exec .compress s = .next (reportSuccess { s with bitCnt := s.nbits, outCnt := s.packOut })) ∧
    (∀ c x p, s.point = .atEnd → c ≠ .none → s.pend = ⟨c, x, p⟩ →
      exec .compress s = .next (reportError c x p { s with bitCnt := s.nbits, outCnt := s.packOut }))

/-- COMPRESS of a whole message (R119, R120, R121, R123, R241), in the run where the message is on IN before
the command and the host only takes, once after each engine turn, one of the runs of R124 (assumption 18):
from IDLE with a code table in which every message byte is present, a host that takes each pushed byte gets
exactly ceil(|S| / 8) bytes, logical bit i of S at bit 7 − (i mod 8) of byte i / 8 and padding bits 0; BITCNT
= |S|, OUTCNT = ceil(|S| / 8), exactly LEN bytes are taken, and the coder state does not change. -/
def Obligations.CompressPacksTheMessage : Prop :=
  ∀ (s : State) (m rest : List Byte),
    s.seq = .idle → s.outSlot = none → s.ctValid = true → s.inQ = m ++ rest → s.len.toNat = m.length →
    (∀ b ∈ m, (tableGet s.code b).present = true) →
    s.script = hostCmd .compress ++ hostDrain (2 * m.length + (logicalBits s.code m).length + 3) →
    ∃ (t : State) (p : List Byte),
      run s.script.length s = .next t ∧ t.taken = s.taken ++ p ∧
      p.length = ((logicalBits s.code m).length + 7) / 8 ∧
      (∀ i, i < 8 * p.length →
        (p.getD (i / 8) 0#8).getLsbD (7 - i % 8) = (logicalBits s.code m).getD i false) ∧
      t.bitCnt.toNat = (logicalBits s.code m).length ∧ t.outCnt.toNat = p.length ∧
      t.seq = .idle ∧ t.done = true ∧ t.err = false ∧ t.errCode = .none ∧ t.inQ = rest ∧
      t.outSlot = none ∧ t.freq = s.freq ∧ t.node = s.node ∧ t.root = s.root ∧ t.nLeaf = s.nLeaf ∧
      t.code = s.code ∧ t.treeValid = s.treeValid ∧ t.ctValid = s.ctValid ∧ t.len = s.len

/-! ### DECOMPRESS -/

/-- One bit of DECOMPRESS (R262, R263, R264): bit t of packed byte q is logical bit 8q + t, taken from bit 7 −
t of the byte; 0 leads left and 1 right; a leaf emits its value and the cursor returns to ROOT; a missing
child, and a descent from a leaf, is STREAM_CORRUPTION with the cursor's index and the bit's index; bits from
BITCNT on, and bits after an error, are ignored, wherever the cursor is (so too where there is no tree and the
cursor is NULL, R155, R156). -/
def Obligations.DecompressDecodesOneBit : Prop :=
  ∀ (s : State) (q t : Nat) (byte : Byte),
    Running .decompress s → s.point = .atBit q byte t → t < 8 →
    let p : Point := if t = 7 then .atPop (q + 1) else .atBit q byte (t + 1)
    (s.pend.code ≠ .none ∨ s.bitCnt.toNat ≤ 8 * q + t → exec .decompress s = .next { s with point := p }) ∧
    ∀ n : Node, s.node[s.cur.toNat]? = some n →
    let child : NodeIdx := if byte.getLsbD (7 - t) then n.right else n.left
    (s.pend.code = .none → 8 * q + t < s.bitCnt.toNat → n.kind = .leaf →
      exec .decompress s = .next { s with
        point := p, pend := ⟨.streamCorruption, s.cur.setWidth 32, BitVec.ofNat 64 (8 * q + t)⟩ }) ∧
    (s.pend.code = .none → 8 * q + t < s.bitCnt.toNat → n.kind = .internal →
      (child = 0x1FF#9 →
        exec .decompress s = .next { s with
          point := p, pend := ⟨.streamCorruption, s.cur.setWidth 32, BitVec.ofNat 64 (8 * q + t)⟩ }) ∧
      (∀ d, s.node[child.toNat]? = some d → d.kind = .leaf →
        exec .decompress s = .next { s with
          point := p, outSlot := some d.value, unpackOut := s.unpackOut + 1#64, cur := s.root }) ∧
      (∀ d, s.node[child.toNat]? = some d → d.kind = .internal →
        exec .decompress s = .next { s with point := p, cur := child }))

/-- The start, the pops and the end of DECOMPRESS (R260, R261): the cursor starts at ROOT, exactly ceil(BITCNT
/ 8) bytes are popped whatever happened, then OUTCNT takes the count and success, or the recorded error, is
reported. -/
def Obligations.DecompressStartsAndEnds : Prop :=
  ∀ s : State, Running .decompress s →
    (s.point = .entry → s.treeValid = true →
      exec .decompress s = .next { s with unpackOut := 0#64, cur := s.root, point := .atPop 0 }) ∧
    (∀ q b rest, s.point = .atPop q → q < (s.bitCnt.toNat + 7) / 8 → s.inQ = b :: rest →
      exec .decompress s = .next { s with inQ := rest, point := .atBit q b 0 }) ∧
    (∀ q, s.point = .atPop q → (s.bitCnt.toNat + 7) / 8 ≤ q →
      (s.pend = ⟨.none, 0#32, 0#64⟩ →
        exec .decompress s = .next (reportSuccess { s with outCnt := s.unpackOut })) ∧
      (∀ c x p, c ≠ .none → s.pend = ⟨c, x, p⟩ →
        exec .decompress s = .next (reportError c x p { s with outCnt := s.unpackOut })))

/-- DECOMPRESS of a whole bitstream (R260, R261, R264), in the run where the packed bytes are on IN before the
command and the host only takes, once after each engine turn, one of the runs of R124 (assumption 18): from
IDLE with a valid tree, a host that takes each pushed byte gets exactly the bytes that the tree walk decodes
from the first BITCNT bits, OUTCNT counts them, exactly ceil(BITCNT / 8) bytes are taken, and the coder state
does not change; with two or more symbols there is no error. -/
def Obligations.DecompressDecodesTheStream : Prop :=
  ∀ (s : State) (p rest : List Byte),
    s.seq = .idle → s.outSlot = none → s.treeValid = true → TreeOk s.node s.root s.nLeaf.toNat →
    s.inQ = p ++ rest → p.length = (s.bitCnt.toNat + 7) / 8 →
    s.script = hostCmd .decompress ++ hostDrain (9 * p.length + 2) →
    ∃ t, run s.script.length s = .next t ∧
      t.taken = s.taken ++ decodeBits s.node s.root s.root ((packedBits p).take s.bitCnt.toNat) ∧
      t.outCnt.toNat = (decodeBits s.node s.root s.root ((packedBits p).take s.bitCnt.toNat)).length ∧
      (2 ≤ s.nLeaf.toNat → t.errCode = .none) ∧
      (t.errCode = .none ∨ t.errCode = .streamCorruption) ∧
      t.seq = .idle ∧ t.done = true ∧ t.inQ = rest ∧ t.outSlot = none ∧ t.bitCnt = s.bitCnt ∧
      t.freq = s.freq ∧ t.node = s.node ∧ t.root = s.root ∧ t.nLeaf = s.nLeaf ∧ t.code = s.code ∧
      t.treeValid = s.treeValid ∧ t.ctValid = s.ctValid

/-- R266, the round trip, in the run where each command's bytes are on IN before it and the host only takes,
once after each engine turn, one of the runs of R124 (assumption 18): any message whose bytes all have codes,
the codes being those BUILD_CODES derives from the current tree, is compressed and then decompressed to
itself, with OUTCNT = N and no error. -/
def Obligations.RoundTrip : Prop :=
  ∀ (s : State) (m : List Byte),
    s.seq = .idle → s.outSlot = none → s.treeValid = true → s.ctValid = true →
    TreeOk s.node s.root s.nLeaf.toNat → codeTable s.node s.root s.nLeaf.toNat = .ok s.code →
    s.len.toNat = m.length → (∀ b ∈ m, (tableGet s.code b).present = true) → s.inQ = m → s.taken = [] →
    s.script = hostCmd .compress ++ hostDrain (2 * m.length + (logicalBits s.code m).length + 3) →
    ∃ t u, run s.script.length s = .next t ∧ t.err = false ∧ t.done = true ∧
      t.taken.length = (t.bitCnt.toNat + 7) / 8 ∧
      run (1 + 2 * (9 * t.taken.length + 2))
        { t with taken := [], inQ := t.taken, script := hostCmd .decompress ++ hostDrain (9 * t.taken.length + 2) }
        = .next u ∧
      u.taken = m ∧ u.outCnt.toNat = m.length ∧ u.err = false ∧ u.done = true ∧ u.seq = .idle

/-! ### The whole machine -/

/-- The invariant holds at reset. -/
def Obligations.InvariantAtReset : Prop := Inv State.reset

/-- Every step keeps what the control state promises: the report reads 0 while BUSY, CT_VALID implies
TREE_VALID, without a tree ROOT is NULL, no byte is left on OUT by a finished command (R28, R29, R38, R39,
R42, R54, R58, R61, R93). -/
def Obligations.StepKeepsControlInvariant : Prop :=
  ∀ s t : State, ControlInv s → step s = .next t → ControlInv t

/-- Every step keeps the whole invariant: besides the control state, a valid tree is a tree, the code table is
the one derived from the current tree (R58), and the cursor is an internal node (R263). -/
def Obligations.StepKeepsInvariant : Prop :=
  ∀ s t : State, Inv s → step s = .next t → Inv t

/-- In every state that meets the invariant the machine goes on: no step faults or is refused (R309: the
hardware never locks up). -/
def Obligations.InvariantStatesAreSafe : Prop :=
  ∀ s : State, Inv s → StepSafe s

/-- R263: against a tree of two or more symbols DECOMPRESS records no error after it has started. -/
def Obligations.NoCorruptionWithTwoSymbols : Prop :=
  ∀ s t : State, Inv s → s.seq = .run .decompress → 2 ≤ s.nLeaf.toNat → s.treeValid = true →
    s.pend.code = .none → exec .decompress s = .next t → t.pend.code = .none

/-- R154, R156 and R351: from any IDLE state that meets the invariant, every command ends, whatever its
outcome, in the run where the host has offered the bytes it needs before the command and then only takes, once
after each engine turn, one of the runs of R124 (assumption 18); it takes exactly its bytes from IN: LEN for
RECORD and COMPRESS, ceil(BITCNT / 8) for DECOMPRESS, none for the others. -/
def Obligations.EveryCommandEnds : Prop :=
  ∀ (s : State) (i : Instr) (m rest : List Byte),
    Inv s → s.seq = .idle → s.inQ = m ++ rest →
    m.length = (match i with
      | .record | .compress => s.len.toNat
      | .decompress => (s.bitCnt.toNat + 7) / 8
      | .init | .buildTree | .buildCodes => 0) →
    ∃ n t, run (1 + 2 * n) { s with script := hostCmd i ++ hostDrain n } = .next t ∧
      t.seq = .idle ∧ t.done = true ∧ t.lastOp = opcode i ∧ t.inQ = rest ∧ t.outSlot = none

/-- R21: the engine leaves IDLE only when the host writes a legal word to CMD, or by reset; it returns to IDLE
only by `finish` (DONE is set) or from RESET_INIT. -/
def Obligations.OnlyLegalWordsLeaveIdle : Prop :=
  ∀ s t : State, step s = .next t →
    (s.seq = .idle → t.seq ≠ .idle →
      (∃ off v rest i, (s.script = .write off v :: rest ∨ s.script = .writeRead off v :: rest) ∧
        off &&& 0xFC#8 = 0x04#8 ∧ decode v = some i ∧ t.seq = .run i) ∨
      (t.seq = .resetInit ∧ ∃ rest, s.script = .reset :: rest)) ∧
    (s.seq ≠ .idle → t.seq = .idle → t.done = true ∨ s.seq = .resetInit)

/-- R98 and R51: only BUILD_TREE writes NODE, only BUILD_TREE and INIT write ROOT and NLEAF, only BUILD_CODES
and INIT write CODE, only INIT, RECORD and idle writes to FREQ_LO and FREQ_HI write FREQ; reset and RESET_INIT
apart. -/
def Obligations.WritersOfTheMemories : Prop :=
  ∀ s t : State, step s = .next t → (∀ rest, s.script ≠ .reset :: rest) → s.seq ≠ .resetInit →
    (t.node ≠ s.node → s.seq = .run .buildTree) ∧
    (t.root ≠ s.root ∨ t.nLeaf ≠ s.nLeaf ∨ t.treeValid ≠ s.treeValid →
      s.seq = .run .buildTree ∨ s.seq = .run .init) ∧
    (t.code ≠ s.code → s.seq = .run .buildCodes ∨ s.seq = .run .init) ∧
    (t.ctValid ≠ s.ctValid → s.seq = .run .buildTree ∨ s.seq = .run .buildCodes ∨ s.seq = .run .init) ∧
    (t.freq ≠ s.freq → s.seq = .run .record ∨ s.seq = .run .init ∨
      (s.seq = .idle ∧ ∃ off v rest, (s.script = .write off v :: rest ∨ s.script = .writeRead off v :: rest) ∧
        (off &&& 0xFC#8 = 0x3C#8 ∨ off &&& 0xFC#8 = 0x40#8)))

/-- R30: REJECT is set only by a write to a locked register while BUSY, and cleared only by a write to ACK
with bit 0 = 1 or by reset. -/
def Obligations.RejectIsSticky : Prop :=
  ∀ s t : State, step s = .next t →
    (s.reject = false → t.reject = true → s.seq ≠ .idle ∧
      ∃ off v rest, (s.script = .write off v :: rest ∨ s.script = .writeRead off v :: rest) ∧
        off &&& 0xFC#8 ∈ [0x04#8, 0x14#8, 0x18#8, 0x1C#8, 0x38#8, 0x3C#8, 0x40#8, 0x48#8, 0x64#8, 0x68#8]) ∧
    (s.reject = true → t.reject = false →
      (∃ rest, s.script = .reset :: rest) ∨
      ∃ off v rest, (s.script = .write off v :: rest ∨ s.script = .writeRead off v :: rest) ∧
        off &&& 0xFC#8 = 0x0C#8 ∧ v.getLsbD 0 = true)

/-! ### Host programs -/

/-- LOADFREQ (R282): run while IDLE it sets every counter to the host's table, rejects nothing, and changes
nothing else but FREQ_IDX. -/
def Obligations.LoadFreqSetsEveryCounter : Prop :=
  ∀ (s : State) (c : Byte → Count), s.seq = .idle → s.script = hostLoadFreq c →
    ∃ (f : Vector Count 256) (w : Word),
      run 769 s = .next { s with script := [], freq := f, freqIdx := 0xFF#8, reads := s.reads ++ [w] } ∧
      (∀ b, tableGet f b = c b) ∧ w.getLsbD 3 = s.reject

/-- SAVEFREQ (R283): run while IDLE it reads every counter, low word first, and changes nothing else but
FREQ_IDX. -/
def Obligations.SaveFreqReadsEveryCounter : Prop :=
  ∀ s : State, s.seq = .idle → s.script = hostSaveFreq → s.reads = [] →
    ∃ r : List Word,
      run 768 s = .next { s with script := [], freqIdx := 0xFF#8, reads := r } ∧ r.length = 512 ∧
      ∀ b : Byte, r.getD (2 * b.toNat + 1) 0#32 ++ r.getD (2 * b.toNat) 0#32 = tableGet s.freq b
end

