-- ==== Sys2Proof/Laws/Decode.lean ====
section
/-! SUPPORT. Decoding: the encoder's words, the legal words, and the offsets of the registers. -/

namespace Sys2Proof

/-- Two words with the same number are equal. -/
theorem word_ext {w v : Word} (h : w.toNat = v.toNat) : w = v := BitVec.eq_of_toNat_eq h

/-- A word whose reserved bits are 0 is its opcode, zero-extended (R111). -/
theorem eq_of_rsvd {w : Word} (h : cmdRsvd w = 0#28) : w = 0#28 ++ cmdOp w := by
  rw [← h]
  apply BitVec.eq_of_getLsbD_eq
  intro i hi
  simp only [cmdRsvd, cmdOp, BitVec.getLsbD_append, BitVec.getLsbD_extractLsb']
  by_cases h4 : i < 4
  · simp [h4]
  · have h2 : i - 4 < 28 := by omega
    have h3 : 4 + (i - 4) = i := by omega
    simp [h4, h2, h3]

/-- Only the word of a command decodes to it (R112). -/
theorem decode_eq_some {w : Word} {i : Instr} (h : decode w = some i) : w = encode i := by
  unfold decode at h
  split at h
  · next hr =>
    rw [eq_of_rsvd hr]
    have op : ∀ n : BitVec 4, (cmdOp w).toNat = n.toNat → cmdOp w = n := fun n e => BitVec.eq_of_toNat_eq e
    split at h
    · next e => cases h; rw [op 1#4 (by simpa using e)]; rfl
    · next e => cases h; rw [op 2#4 (by simpa using e)]; rfl
    · next e => cases h; rw [op 3#4 (by simpa using e)]; rfl
    · next e => cases h; rw [op 4#4 (by simpa using e)]; rfl
    · next e => cases h; rw [op 5#4 (by simpa using e)]; rfl
    · next e => cases h; rw [op 6#4 (by simpa using e)]; rfl
    · cases h
  · cases h

/-- Offset bits [1:0] do not matter (R81). -/
theorem regOf_and (off : BitVec 8) : regOf (off &&& 0xFC#8) = regOf off := by
  revert off
  decide +kernel

/-- An access at an offset whose word is `c` is an access to the register at `c` (R81). -/
theorem regOf_of_and {off c : BitVec 8} (h : off &&& 0xFC#8 = c) : regOf off = regOf c := by
  rw [← h, regOf_and]

/-- The offset of a register's word (R23). -/
theorem and_of_regOf {off : BitVec 8} {r : Reg} (h : regOf off = r) (hr : r ≠ .reserved) :
    off &&& 0xFC#8 = Machine.offsetOf r := by
  revert off
  cases r <;> first | (exfalso; exact hr rfl) | decide +kernel

/-- Offsets from 0x74 on are reserved (R50). -/
theorem regOf_reserved {off : BitVec 8} (h : 0x74 ≤ off.toNat) : regOf off = .reserved := by
  revert off
  decide +kernel

theorem regOf_offsetOf (r : Reg) : regOf (Machine.offsetOf r) = r := by
  cases r <;> rfl

end Sys2Proof
end

