-- ==== Sys2Proof/Laws/State.lean ====
section
/-! SUPPORT. For each shared update of State, one lemma per field, true by rfl: no later proof unfolds a
record update. -/

namespace Sys2Proof.Machine

open Sys2Proof

@[simp] theorem latchWord_seq (w : Word) (s : State) : (latchWord w s).seq = s.seq := rfl
@[simp] theorem latchWord_point (w : Word) (s : State) : (latchWord w s).point = s.point := rfl
@[simp] theorem latchWord_done (w : Word) (s : State) : (latchWord w s).done = false := rfl
@[simp] theorem latchWord_err (w : Word) (s : State) : (latchWord w s).err = false := rfl
@[simp] theorem latchWord_reject (w : Word) (s : State) : (latchWord w s).reject = s.reject := rfl
@[simp] theorem latchWord_errCode (w : Word) (s : State) : (latchWord w s).errCode = .none := rfl
@[simp] theorem latchWord_treeValid (w : Word) (s : State) : (latchWord w s).treeValid = s.treeValid := rfl
@[simp] theorem latchWord_ctValid (w : Word) (s : State) : (latchWord w s).ctValid = s.ctValid := rfl
@[simp] theorem latchWord_lastOp (w : Word) (s : State) : (latchWord w s).lastOp = cmdOp w := rfl
@[simp] theorem latchWord_ie (w : Word) (s : State) : (latchWord w s).ie = s.ie := rfl
@[simp] theorem latchWord_len (w : Word) (s : State) : (latchWord w s).len = s.len := rfl
@[simp] theorem latchWord_bitCnt (w : Word) (s : State) : (latchWord w s).bitCnt = s.bitCnt := rfl
@[simp] theorem latchWord_outCnt (w : Word) (s : State) : (latchWord w s).outCnt = s.outCnt := rfl
@[simp] theorem latchWord_errInfo (w : Word) (s : State) : (latchWord w s).errInfo = 0#32 := rfl
@[simp] theorem latchWord_errPos (w : Word) (s : State) : (latchWord w s).errPos = 0#64 := rfl
@[simp] theorem latchWord_freqIdx (w : Word) (s : State) : (latchWord w s).freqIdx = s.freqIdx := rfl
@[simp] theorem latchWord_nodeIdx (w : Word) (s : State) : (latchWord w s).nodeIdx = s.nodeIdx := rfl
@[simp] theorem latchWord_codeIdx (w : Word) (s : State) : (latchWord w s).codeIdx = s.codeIdx := rfl
@[simp] theorem latchWord_codeWsel (w : Word) (s : State) : (latchWord w s).codeWsel = s.codeWsel := rfl
@[simp] theorem latchWord_freq (w : Word) (s : State) : (latchWord w s).freq = s.freq := rfl
@[simp] theorem latchWord_node (w : Word) (s : State) : (latchWord w s).node = s.node := rfl
@[simp] theorem latchWord_root (w : Word) (s : State) : (latchWord w s).root = s.root := rfl
@[simp] theorem latchWord_nLeaf (w : Word) (s : State) : (latchWord w s).nLeaf = s.nLeaf := rfl
@[simp] theorem latchWord_pq (w : Word) (s : State) : (latchWord w s).pq = s.pq := rfl
@[simp] theorem latchWord_code (w : Word) (s : State) : (latchWord w s).code = s.code := rfl
@[simp] theorem latchWord_acc (w : Word) (s : State) : (latchWord w s).acc = s.acc := rfl
@[simp] theorem latchWord_k (w : Word) (s : State) : (latchWord w s).k = s.k := rfl
@[simp] theorem latchWord_nbits (w : Word) (s : State) : (latchWord w s).nbits = s.nbits := rfl
@[simp] theorem latchWord_packOut (w : Word) (s : State) : (latchWord w s).packOut = s.packOut := rfl
@[simp] theorem latchWord_cur (w : Word) (s : State) : (latchWord w s).cur = s.cur := rfl
@[simp] theorem latchWord_unpackOut (w : Word) (s : State) : (latchWord w s).unpackOut = s.unpackOut := rfl
@[simp] theorem latchWord_pend (w : Word) (s : State) : (latchWord w s).pend = ErrReport.clear := rfl
@[simp] theorem latchWord_outSlot (w : Word) (s : State) : (latchWord w s).outSlot = s.outSlot := rfl
@[simp] theorem latchWord_inQ (w : Word) (s : State) : (latchWord w s).inQ = s.inQ := rfl
@[simp] theorem latchWord_script (w : Word) (s : State) : (latchWord w s).script = s.script := rfl
@[simp] theorem latchWord_taken (w : Word) (s : State) : (latchWord w s).taken = s.taken := rfl
@[simp] theorem latchWord_reads (w : Word) (s : State) : (latchWord w s).reads = s.reads := rfl
@[simp] theorem latchWord_draws (w : Word) (s : State) : (latchWord w s).draws = s.draws := rfl

@[simp] theorem accept_seq (i : Instr) (s : State) : (accept i s).seq = .run i := rfl
@[simp] theorem accept_point (i : Instr) (s : State) : (accept i s).point = .entry := rfl
@[simp] theorem accept_done (i : Instr) (s : State) : (accept i s).done = false := rfl
@[simp] theorem accept_err (i : Instr) (s : State) : (accept i s).err = false := rfl
@[simp] theorem accept_reject (i : Instr) (s : State) : (accept i s).reject = s.reject := rfl
@[simp] theorem accept_errCode (i : Instr) (s : State) : (accept i s).errCode = .none := rfl
@[simp] theorem accept_treeValid (i : Instr) (s : State) : (accept i s).treeValid = s.treeValid := rfl
@[simp] theorem accept_ctValid (i : Instr) (s : State) : (accept i s).ctValid = s.ctValid := rfl
@[simp] theorem accept_lastOp (i : Instr) (s : State) : (accept i s).lastOp = cmdOp (encode i) := rfl
@[simp] theorem accept_ie (i : Instr) (s : State) : (accept i s).ie = s.ie := rfl
@[simp] theorem accept_len (i : Instr) (s : State) : (accept i s).len = s.len := rfl
@[simp] theorem accept_bitCnt (i : Instr) (s : State) : (accept i s).bitCnt = s.bitCnt := rfl
@[simp] theorem accept_outCnt (i : Instr) (s : State) : (accept i s).outCnt = s.outCnt := rfl
@[simp] theorem accept_errInfo (i : Instr) (s : State) : (accept i s).errInfo = 0#32 := rfl
@[simp] theorem accept_errPos (i : Instr) (s : State) : (accept i s).errPos = 0#64 := rfl
@[simp] theorem accept_freqIdx (i : Instr) (s : State) : (accept i s).freqIdx = s.freqIdx := rfl
@[simp] theorem accept_nodeIdx (i : Instr) (s : State) : (accept i s).nodeIdx = s.nodeIdx := rfl
@[simp] theorem accept_codeIdx (i : Instr) (s : State) : (accept i s).codeIdx = s.codeIdx := rfl
@[simp] theorem accept_codeWsel (i : Instr) (s : State) : (accept i s).codeWsel = s.codeWsel := rfl
@[simp] theorem accept_freq (i : Instr) (s : State) : (accept i s).freq = s.freq := rfl
@[simp] theorem accept_node (i : Instr) (s : State) : (accept i s).node = s.node := rfl
@[simp] theorem accept_root (i : Instr) (s : State) : (accept i s).root = s.root := rfl
@[simp] theorem accept_nLeaf (i : Instr) (s : State) : (accept i s).nLeaf = s.nLeaf := rfl
@[simp] theorem accept_pq (i : Instr) (s : State) : (accept i s).pq = s.pq := rfl
@[simp] theorem accept_code (i : Instr) (s : State) : (accept i s).code = s.code := rfl
@[simp] theorem accept_acc (i : Instr) (s : State) : (accept i s).acc = s.acc := rfl
@[simp] theorem accept_k (i : Instr) (s : State) : (accept i s).k = s.k := rfl
@[simp] theorem accept_nbits (i : Instr) (s : State) : (accept i s).nbits = s.nbits := rfl
@[simp] theorem accept_packOut (i : Instr) (s : State) : (accept i s).packOut = s.packOut := rfl
@[simp] theorem accept_cur (i : Instr) (s : State) : (accept i s).cur = s.cur := rfl
@[simp] theorem accept_unpackOut (i : Instr) (s : State) : (accept i s).unpackOut = s.unpackOut := rfl
@[simp] theorem accept_pend (i : Instr) (s : State) : (accept i s).pend = ErrReport.clear := rfl
@[simp] theorem accept_outSlot (i : Instr) (s : State) : (accept i s).outSlot = s.outSlot := rfl
@[simp] theorem accept_inQ (i : Instr) (s : State) : (accept i s).inQ = s.inQ := rfl
@[simp] theorem accept_script (i : Instr) (s : State) : (accept i s).script = s.script := rfl
@[simp] theorem accept_taken (i : Instr) (s : State) : (accept i s).taken = s.taken := rfl
@[simp] theorem accept_reads (i : Instr) (s : State) : (accept i s).reads = s.reads := rfl
@[simp] theorem accept_draws (i : Instr) (s : State) : (accept i s).draws = s.draws := rfl

@[simp] theorem finish_seq (s : State) : (finish s).seq = .idle := rfl
@[simp] theorem finish_point (s : State) : (finish s).point = .entry := rfl
@[simp] theorem finish_done (s : State) : (finish s).done = true := rfl
@[simp] theorem finish_err (s : State) : (finish s).err = decide (s.pend.code ≠ .none) := rfl
@[simp] theorem finish_reject (s : State) : (finish s).reject = s.reject := rfl
@[simp] theorem finish_errCode (s : State) : (finish s).errCode = s.pend.code := rfl
@[simp] theorem finish_treeValid (s : State) : (finish s).treeValid = s.treeValid := rfl
@[simp] theorem finish_ctValid (s : State) : (finish s).ctValid = s.ctValid := rfl
@[simp] theorem finish_lastOp (s : State) : (finish s).lastOp = s.lastOp := rfl
@[simp] theorem finish_ie (s : State) : (finish s).ie = s.ie := rfl
@[simp] theorem finish_len (s : State) : (finish s).len = s.len := rfl
@[simp] theorem finish_bitCnt (s : State) : (finish s).bitCnt = s.bitCnt := rfl
@[simp] theorem finish_outCnt (s : State) : (finish s).outCnt = s.outCnt := rfl
@[simp] theorem finish_errInfo (s : State) : (finish s).errInfo = s.pend.info := rfl
@[simp] theorem finish_errPos (s : State) : (finish s).errPos = s.pend.pos := rfl
@[simp] theorem finish_freqIdx (s : State) : (finish s).freqIdx = s.freqIdx := rfl
@[simp] theorem finish_nodeIdx (s : State) : (finish s).nodeIdx = s.nodeIdx := rfl
@[simp] theorem finish_codeIdx (s : State) : (finish s).codeIdx = s.codeIdx := rfl
@[simp] theorem finish_codeWsel (s : State) : (finish s).codeWsel = s.codeWsel := rfl
@[simp] theorem finish_freq (s : State) : (finish s).freq = s.freq := rfl
@[simp] theorem finish_node (s : State) : (finish s).node = s.node := rfl
@[simp] theorem finish_root (s : State) : (finish s).root = s.root := rfl
@[simp] theorem finish_nLeaf (s : State) : (finish s).nLeaf = s.nLeaf := rfl
@[simp] theorem finish_pq (s : State) : (finish s).pq = s.pq := rfl
@[simp] theorem finish_code (s : State) : (finish s).code = s.code := rfl
@[simp] theorem finish_acc (s : State) : (finish s).acc = s.acc := rfl
@[simp] theorem finish_k (s : State) : (finish s).k = s.k := rfl
@[simp] theorem finish_nbits (s : State) : (finish s).nbits = s.nbits := rfl
@[simp] theorem finish_packOut (s : State) : (finish s).packOut = s.packOut := rfl
@[simp] theorem finish_cur (s : State) : (finish s).cur = s.cur := rfl
@[simp] theorem finish_unpackOut (s : State) : (finish s).unpackOut = s.unpackOut := rfl
@[simp] theorem finish_pend (s : State) : (finish s).pend = s.pend := rfl
@[simp] theorem finish_outSlot (s : State) : (finish s).outSlot = s.outSlot := rfl
@[simp] theorem finish_inQ (s : State) : (finish s).inQ = s.inQ := rfl
@[simp] theorem finish_script (s : State) : (finish s).script = s.script := rfl
@[simp] theorem finish_taken (s : State) : (finish s).taken = s.taken := rfl
@[simp] theorem finish_reads (s : State) : (finish s).reads = s.reads := rfl
@[simp] theorem finish_draws (s : State) : (finish s).draws = s.draws := rfl

@[simp] theorem rejectWrite_seq (s : State) : (rejectWrite s).seq = s.seq := rfl
@[simp] theorem rejectWrite_point (s : State) : (rejectWrite s).point = s.point := rfl
@[simp] theorem rejectWrite_done (s : State) : (rejectWrite s).done = s.done := rfl
@[simp] theorem rejectWrite_err (s : State) : (rejectWrite s).err = s.err := rfl
@[simp] theorem rejectWrite_reject (s : State) : (rejectWrite s).reject = true := rfl
@[simp] theorem rejectWrite_errCode (s : State) : (rejectWrite s).errCode = s.errCode := rfl
@[simp] theorem rejectWrite_treeValid (s : State) : (rejectWrite s).treeValid = s.treeValid := rfl
@[simp] theorem rejectWrite_ctValid (s : State) : (rejectWrite s).ctValid = s.ctValid := rfl
@[simp] theorem rejectWrite_lastOp (s : State) : (rejectWrite s).lastOp = s.lastOp := rfl
@[simp] theorem rejectWrite_ie (s : State) : (rejectWrite s).ie = s.ie := rfl
@[simp] theorem rejectWrite_len (s : State) : (rejectWrite s).len = s.len := rfl
@[simp] theorem rejectWrite_bitCnt (s : State) : (rejectWrite s).bitCnt = s.bitCnt := rfl
@[simp] theorem rejectWrite_outCnt (s : State) : (rejectWrite s).outCnt = s.outCnt := rfl
@[simp] theorem rejectWrite_errInfo (s : State) : (rejectWrite s).errInfo = s.errInfo := rfl
@[simp] theorem rejectWrite_errPos (s : State) : (rejectWrite s).errPos = s.errPos := rfl
@[simp] theorem rejectWrite_freqIdx (s : State) : (rejectWrite s).freqIdx = s.freqIdx := rfl
@[simp] theorem rejectWrite_nodeIdx (s : State) : (rejectWrite s).nodeIdx = s.nodeIdx := rfl
@[simp] theorem rejectWrite_codeIdx (s : State) : (rejectWrite s).codeIdx = s.codeIdx := rfl
@[simp] theorem rejectWrite_codeWsel (s : State) : (rejectWrite s).codeWsel = s.codeWsel := rfl
@[simp] theorem rejectWrite_freq (s : State) : (rejectWrite s).freq = s.freq := rfl
@[simp] theorem rejectWrite_node (s : State) : (rejectWrite s).node = s.node := rfl
@[simp] theorem rejectWrite_root (s : State) : (rejectWrite s).root = s.root := rfl
@[simp] theorem rejectWrite_nLeaf (s : State) : (rejectWrite s).nLeaf = s.nLeaf := rfl
@[simp] theorem rejectWrite_pq (s : State) : (rejectWrite s).pq = s.pq := rfl
@[simp] theorem rejectWrite_code (s : State) : (rejectWrite s).code = s.code := rfl
@[simp] theorem rejectWrite_acc (s : State) : (rejectWrite s).acc = s.acc := rfl
@[simp] theorem rejectWrite_k (s : State) : (rejectWrite s).k = s.k := rfl
@[simp] theorem rejectWrite_nbits (s : State) : (rejectWrite s).nbits = s.nbits := rfl
@[simp] theorem rejectWrite_packOut (s : State) : (rejectWrite s).packOut = s.packOut := rfl
@[simp] theorem rejectWrite_cur (s : State) : (rejectWrite s).cur = s.cur := rfl
@[simp] theorem rejectWrite_unpackOut (s : State) : (rejectWrite s).unpackOut = s.unpackOut := rfl
@[simp] theorem rejectWrite_pend (s : State) : (rejectWrite s).pend = s.pend := rfl
@[simp] theorem rejectWrite_outSlot (s : State) : (rejectWrite s).outSlot = s.outSlot := rfl
@[simp] theorem rejectWrite_inQ (s : State) : (rejectWrite s).inQ = s.inQ := rfl
@[simp] theorem rejectWrite_script (s : State) : (rejectWrite s).script = s.script := rfl
@[simp] theorem rejectWrite_taken (s : State) : (rejectWrite s).taken = s.taken := rfl
@[simp] theorem rejectWrite_reads (s : State) : (rejectWrite s).reads = s.reads := rfl
@[simp] theorem rejectWrite_draws (s : State) : (rejectWrite s).draws = s.draws := rfl

@[simp] theorem outPush_seq (v : Byte) (s : State) : (outPush v s).seq = s.seq := rfl
@[simp] theorem outPush_point (v : Byte) (s : State) : (outPush v s).point = s.point := rfl
@[simp] theorem outPush_done (v : Byte) (s : State) : (outPush v s).done = s.done := rfl
@[simp] theorem outPush_err (v : Byte) (s : State) : (outPush v s).err = s.err := rfl
@[simp] theorem outPush_reject (v : Byte) (s : State) : (outPush v s).reject = s.reject := rfl
@[simp] theorem outPush_errCode (v : Byte) (s : State) : (outPush v s).errCode = s.errCode := rfl
@[simp] theorem outPush_treeValid (v : Byte) (s : State) : (outPush v s).treeValid = s.treeValid := rfl
@[simp] theorem outPush_ctValid (v : Byte) (s : State) : (outPush v s).ctValid = s.ctValid := rfl
@[simp] theorem outPush_lastOp (v : Byte) (s : State) : (outPush v s).lastOp = s.lastOp := rfl
@[simp] theorem outPush_ie (v : Byte) (s : State) : (outPush v s).ie = s.ie := rfl
@[simp] theorem outPush_len (v : Byte) (s : State) : (outPush v s).len = s.len := rfl
@[simp] theorem outPush_bitCnt (v : Byte) (s : State) : (outPush v s).bitCnt = s.bitCnt := rfl
@[simp] theorem outPush_outCnt (v : Byte) (s : State) : (outPush v s).outCnt = s.outCnt := rfl
@[simp] theorem outPush_errInfo (v : Byte) (s : State) : (outPush v s).errInfo = s.errInfo := rfl
@[simp] theorem outPush_errPos (v : Byte) (s : State) : (outPush v s).errPos = s.errPos := rfl
@[simp] theorem outPush_freqIdx (v : Byte) (s : State) : (outPush v s).freqIdx = s.freqIdx := rfl
@[simp] theorem outPush_nodeIdx (v : Byte) (s : State) : (outPush v s).nodeIdx = s.nodeIdx := rfl
@[simp] theorem outPush_codeIdx (v : Byte) (s : State) : (outPush v s).codeIdx = s.codeIdx := rfl
@[simp] theorem outPush_codeWsel (v : Byte) (s : State) : (outPush v s).codeWsel = s.codeWsel := rfl
@[simp] theorem outPush_freq (v : Byte) (s : State) : (outPush v s).freq = s.freq := rfl
@[simp] theorem outPush_node (v : Byte) (s : State) : (outPush v s).node = s.node := rfl
@[simp] theorem outPush_root (v : Byte) (s : State) : (outPush v s).root = s.root := rfl
@[simp] theorem outPush_nLeaf (v : Byte) (s : State) : (outPush v s).nLeaf = s.nLeaf := rfl
@[simp] theorem outPush_pq (v : Byte) (s : State) : (outPush v s).pq = s.pq := rfl
@[simp] theorem outPush_code (v : Byte) (s : State) : (outPush v s).code = s.code := rfl
@[simp] theorem outPush_acc (v : Byte) (s : State) : (outPush v s).acc = s.acc := rfl
@[simp] theorem outPush_k (v : Byte) (s : State) : (outPush v s).k = s.k := rfl
@[simp] theorem outPush_nbits (v : Byte) (s : State) : (outPush v s).nbits = s.nbits := rfl
@[simp] theorem outPush_packOut (v : Byte) (s : State) : (outPush v s).packOut = s.packOut := rfl
@[simp] theorem outPush_cur (v : Byte) (s : State) : (outPush v s).cur = s.cur := rfl
@[simp] theorem outPush_unpackOut (v : Byte) (s : State) : (outPush v s).unpackOut = s.unpackOut := rfl
@[simp] theorem outPush_pend (v : Byte) (s : State) : (outPush v s).pend = s.pend := rfl
@[simp] theorem outPush_outSlot (v : Byte) (s : State) : (outPush v s).outSlot = some v := rfl
@[simp] theorem outPush_inQ (v : Byte) (s : State) : (outPush v s).inQ = s.inQ := rfl
@[simp] theorem outPush_script (v : Byte) (s : State) : (outPush v s).script = s.script := rfl
@[simp] theorem outPush_taken (v : Byte) (s : State) : (outPush v s).taken = s.taken := rfl
@[simp] theorem outPush_reads (v : Byte) (s : State) : (outPush v s).reads = s.reads := rfl
@[simp] theorem outPush_draws (v : Byte) (s : State) : (outPush v s).draws = s.draws := rfl

@[simp] theorem offerIn_seq (b : Byte) (s : State) : (offerIn b s).seq = s.seq := rfl
@[simp] theorem offerIn_point (b : Byte) (s : State) : (offerIn b s).point = s.point := rfl
@[simp] theorem offerIn_done (b : Byte) (s : State) : (offerIn b s).done = s.done := rfl
@[simp] theorem offerIn_err (b : Byte) (s : State) : (offerIn b s).err = s.err := rfl
@[simp] theorem offerIn_reject (b : Byte) (s : State) : (offerIn b s).reject = s.reject := rfl
@[simp] theorem offerIn_errCode (b : Byte) (s : State) : (offerIn b s).errCode = s.errCode := rfl
@[simp] theorem offerIn_treeValid (b : Byte) (s : State) : (offerIn b s).treeValid = s.treeValid := rfl
@[simp] theorem offerIn_ctValid (b : Byte) (s : State) : (offerIn b s).ctValid = s.ctValid := rfl
@[simp] theorem offerIn_lastOp (b : Byte) (s : State) : (offerIn b s).lastOp = s.lastOp := rfl
@[simp] theorem offerIn_ie (b : Byte) (s : State) : (offerIn b s).ie = s.ie := rfl
@[simp] theorem offerIn_len (b : Byte) (s : State) : (offerIn b s).len = s.len := rfl
@[simp] theorem offerIn_bitCnt (b : Byte) (s : State) : (offerIn b s).bitCnt = s.bitCnt := rfl
@[simp] theorem offerIn_outCnt (b : Byte) (s : State) : (offerIn b s).outCnt = s.outCnt := rfl
@[simp] theorem offerIn_errInfo (b : Byte) (s : State) : (offerIn b s).errInfo = s.errInfo := rfl
@[simp] theorem offerIn_errPos (b : Byte) (s : State) : (offerIn b s).errPos = s.errPos := rfl
@[simp] theorem offerIn_freqIdx (b : Byte) (s : State) : (offerIn b s).freqIdx = s.freqIdx := rfl
@[simp] theorem offerIn_nodeIdx (b : Byte) (s : State) : (offerIn b s).nodeIdx = s.nodeIdx := rfl
@[simp] theorem offerIn_codeIdx (b : Byte) (s : State) : (offerIn b s).codeIdx = s.codeIdx := rfl
@[simp] theorem offerIn_codeWsel (b : Byte) (s : State) : (offerIn b s).codeWsel = s.codeWsel := rfl
@[simp] theorem offerIn_freq (b : Byte) (s : State) : (offerIn b s).freq = s.freq := rfl
@[simp] theorem offerIn_node (b : Byte) (s : State) : (offerIn b s).node = s.node := rfl
@[simp] theorem offerIn_root (b : Byte) (s : State) : (offerIn b s).root = s.root := rfl
@[simp] theorem offerIn_nLeaf (b : Byte) (s : State) : (offerIn b s).nLeaf = s.nLeaf := rfl
@[simp] theorem offerIn_pq (b : Byte) (s : State) : (offerIn b s).pq = s.pq := rfl
@[simp] theorem offerIn_code (b : Byte) (s : State) : (offerIn b s).code = s.code := rfl
@[simp] theorem offerIn_acc (b : Byte) (s : State) : (offerIn b s).acc = s.acc := rfl
@[simp] theorem offerIn_k (b : Byte) (s : State) : (offerIn b s).k = s.k := rfl
@[simp] theorem offerIn_nbits (b : Byte) (s : State) : (offerIn b s).nbits = s.nbits := rfl
@[simp] theorem offerIn_packOut (b : Byte) (s : State) : (offerIn b s).packOut = s.packOut := rfl
@[simp] theorem offerIn_cur (b : Byte) (s : State) : (offerIn b s).cur = s.cur := rfl
@[simp] theorem offerIn_unpackOut (b : Byte) (s : State) : (offerIn b s).unpackOut = s.unpackOut := rfl
@[simp] theorem offerIn_pend (b : Byte) (s : State) : (offerIn b s).pend = s.pend := rfl
@[simp] theorem offerIn_outSlot (b : Byte) (s : State) : (offerIn b s).outSlot = s.outSlot := rfl
@[simp] theorem offerIn_inQ (b : Byte) (s : State) : (offerIn b s).inQ = s.inQ ++ [b] := rfl
@[simp] theorem offerIn_script (b : Byte) (s : State) : (offerIn b s).script = s.script := rfl
@[simp] theorem offerIn_taken (b : Byte) (s : State) : (offerIn b s).taken = s.taken := rfl
@[simp] theorem offerIn_reads (b : Byte) (s : State) : (offerIn b s).reads = s.reads := rfl
@[simp] theorem offerIn_draws (b : Byte) (s : State) : (offerIn b s).draws = s.draws := rfl

@[simp] theorem endResetInit_seq (s : State) : (endResetInit s).seq = .idle := rfl
@[simp] theorem endResetInit_point (s : State) : (endResetInit s).point = .entry := rfl
@[simp] theorem endResetInit_done (s : State) : (endResetInit s).done = s.done := rfl
@[simp] theorem endResetInit_err (s : State) : (endResetInit s).err = s.err := rfl
@[simp] theorem endResetInit_reject (s : State) : (endResetInit s).reject = s.reject := rfl
@[simp] theorem endResetInit_errCode (s : State) : (endResetInit s).errCode = s.errCode := rfl
@[simp] theorem endResetInit_treeValid (s : State) : (endResetInit s).treeValid = s.treeValid := rfl
@[simp] theorem endResetInit_ctValid (s : State) : (endResetInit s).ctValid = s.ctValid := rfl
@[simp] theorem endResetInit_lastOp (s : State) : (endResetInit s).lastOp = s.lastOp := rfl
@[simp] theorem endResetInit_ie (s : State) : (endResetInit s).ie = s.ie := rfl
@[simp] theorem endResetInit_len (s : State) : (endResetInit s).len = s.len := rfl
@[simp] theorem endResetInit_bitCnt (s : State) : (endResetInit s).bitCnt = s.bitCnt := rfl
@[simp] theorem endResetInit_outCnt (s : State) : (endResetInit s).outCnt = s.outCnt := rfl
@[simp] theorem endResetInit_errInfo (s : State) : (endResetInit s).errInfo = s.errInfo := rfl
@[simp] theorem endResetInit_errPos (s : State) : (endResetInit s).errPos = s.errPos := rfl
@[simp] theorem endResetInit_freqIdx (s : State) : (endResetInit s).freqIdx = s.freqIdx := rfl
@[simp] theorem endResetInit_nodeIdx (s : State) : (endResetInit s).nodeIdx = s.nodeIdx := rfl
@[simp] theorem endResetInit_codeIdx (s : State) : (endResetInit s).codeIdx = s.codeIdx := rfl
@[simp] theorem endResetInit_codeWsel (s : State) : (endResetInit s).codeWsel = s.codeWsel := rfl
@[simp] theorem endResetInit_freq (s : State) : (endResetInit s).freq = Vector.replicate 256 0#64 := rfl
@[simp] theorem endResetInit_node (s : State) : (endResetInit s).node = s.node := rfl
@[simp] theorem endResetInit_root (s : State) : (endResetInit s).root = s.root := rfl
@[simp] theorem endResetInit_nLeaf (s : State) : (endResetInit s).nLeaf = s.nLeaf := rfl
@[simp] theorem endResetInit_pq (s : State) : (endResetInit s).pq = s.pq := rfl
@[simp] theorem endResetInit_code (s : State) : (endResetInit s).code = Vector.replicate 256 CodeEntry.absent := rfl
@[simp] theorem endResetInit_acc (s : State) : (endResetInit s).acc = s.acc := rfl
@[simp] theorem endResetInit_k (s : State) : (endResetInit s).k = s.k := rfl
@[simp] theorem endResetInit_nbits (s : State) : (endResetInit s).nbits = s.nbits := rfl
@[simp] theorem endResetInit_packOut (s : State) : (endResetInit s).packOut = s.packOut := rfl
@[simp] theorem endResetInit_cur (s : State) : (endResetInit s).cur = s.cur := rfl
@[simp] theorem endResetInit_unpackOut (s : State) : (endResetInit s).unpackOut = s.unpackOut := rfl
@[simp] theorem endResetInit_pend (s : State) : (endResetInit s).pend = s.pend := rfl
@[simp] theorem endResetInit_outSlot (s : State) : (endResetInit s).outSlot = s.outSlot := rfl
@[simp] theorem endResetInit_inQ (s : State) : (endResetInit s).inQ = s.inQ := rfl
@[simp] theorem endResetInit_script (s : State) : (endResetInit s).script = s.script := rfl
@[simp] theorem endResetInit_taken (s : State) : (endResetInit s).taken = s.taken := rfl
@[simp] theorem endResetInit_reads (s : State) : (endResetInit s).reads = s.reads := rfl
@[simp] theorem endResetInit_draws (s : State) : (endResetInit s).draws = s.draws := rfl

@[simp] theorem clearCoder_seq (s : State) : (clearCoder s).seq = s.seq := rfl
@[simp] theorem clearCoder_point (s : State) : (clearCoder s).point = s.point := rfl
@[simp] theorem clearCoder_done (s : State) : (clearCoder s).done = s.done := rfl
@[simp] theorem clearCoder_err (s : State) : (clearCoder s).err = s.err := rfl
@[simp] theorem clearCoder_reject (s : State) : (clearCoder s).reject = s.reject := rfl
@[simp] theorem clearCoder_errCode (s : State) : (clearCoder s).errCode = s.errCode := rfl
@[simp] theorem clearCoder_treeValid (s : State) : (clearCoder s).treeValid = false := rfl
@[simp] theorem clearCoder_ctValid (s : State) : (clearCoder s).ctValid = false := rfl
@[simp] theorem clearCoder_lastOp (s : State) : (clearCoder s).lastOp = s.lastOp := rfl
@[simp] theorem clearCoder_ie (s : State) : (clearCoder s).ie = s.ie := rfl
@[simp] theorem clearCoder_len (s : State) : (clearCoder s).len = s.len := rfl
@[simp] theorem clearCoder_bitCnt (s : State) : (clearCoder s).bitCnt = 0#64 := rfl
@[simp] theorem clearCoder_outCnt (s : State) : (clearCoder s).outCnt = 0#64 := rfl
@[simp] theorem clearCoder_errInfo (s : State) : (clearCoder s).errInfo = s.errInfo := rfl
@[simp] theorem clearCoder_errPos (s : State) : (clearCoder s).errPos = s.errPos := rfl
@[simp] theorem clearCoder_freqIdx (s : State) : (clearCoder s).freqIdx = s.freqIdx := rfl
@[simp] theorem clearCoder_nodeIdx (s : State) : (clearCoder s).nodeIdx = s.nodeIdx := rfl
@[simp] theorem clearCoder_codeIdx (s : State) : (clearCoder s).codeIdx = s.codeIdx := rfl
@[simp] theorem clearCoder_codeWsel (s : State) : (clearCoder s).codeWsel = s.codeWsel := rfl
@[simp] theorem clearCoder_freq (s : State) : (clearCoder s).freq = Vector.replicate 256 0#64 := rfl
@[simp] theorem clearCoder_node (s : State) : (clearCoder s).node = s.node := rfl
@[simp] theorem clearCoder_root (s : State) : (clearCoder s).root = Config.null := rfl
@[simp] theorem clearCoder_nLeaf (s : State) : (clearCoder s).nLeaf = 0#9 := rfl
@[simp] theorem clearCoder_pq (s : State) : (clearCoder s).pq = s.pq := rfl
@[simp] theorem clearCoder_code (s : State) : (clearCoder s).code = Vector.replicate 256 CodeEntry.absent := rfl
@[simp] theorem clearCoder_acc (s : State) : (clearCoder s).acc = s.acc := rfl
@[simp] theorem clearCoder_k (s : State) : (clearCoder s).k = s.k := rfl
@[simp] theorem clearCoder_nbits (s : State) : (clearCoder s).nbits = s.nbits := rfl
@[simp] theorem clearCoder_packOut (s : State) : (clearCoder s).packOut = s.packOut := rfl
@[simp] theorem clearCoder_cur (s : State) : (clearCoder s).cur = s.cur := rfl
@[simp] theorem clearCoder_unpackOut (s : State) : (clearCoder s).unpackOut = s.unpackOut := rfl
@[simp] theorem clearCoder_pend (s : State) : (clearCoder s).pend = s.pend := rfl
@[simp] theorem clearCoder_outSlot (s : State) : (clearCoder s).outSlot = s.outSlot := rfl
@[simp] theorem clearCoder_inQ (s : State) : (clearCoder s).inQ = s.inQ := rfl
@[simp] theorem clearCoder_script (s : State) : (clearCoder s).script = s.script := rfl
@[simp] theorem clearCoder_taken (s : State) : (clearCoder s).taken = s.taken := rfl
@[simp] theorem clearCoder_reads (s : State) : (clearCoder s).reads = s.reads := rfl
@[simp] theorem clearCoder_draws (s : State) : (clearCoder s).draws = s.draws := rfl

@[simp] theorem packResults_seq (s : State) : (packResults s).seq = s.seq := rfl
@[simp] theorem packResults_point (s : State) : (packResults s).point = s.point := rfl
@[simp] theorem packResults_done (s : State) : (packResults s).done = s.done := rfl
@[simp] theorem packResults_err (s : State) : (packResults s).err = s.err := rfl
@[simp] theorem packResults_reject (s : State) : (packResults s).reject = s.reject := rfl
@[simp] theorem packResults_errCode (s : State) : (packResults s).errCode = s.errCode := rfl
@[simp] theorem packResults_treeValid (s : State) : (packResults s).treeValid = s.treeValid := rfl
@[simp] theorem packResults_ctValid (s : State) : (packResults s).ctValid = s.ctValid := rfl
@[simp] theorem packResults_lastOp (s : State) : (packResults s).lastOp = s.lastOp := rfl
@[simp] theorem packResults_ie (s : State) : (packResults s).ie = s.ie := rfl
@[simp] theorem packResults_len (s : State) : (packResults s).len = s.len := rfl
@[simp] theorem packResults_bitCnt (s : State) : (packResults s).bitCnt = s.nbits := rfl
@[simp] theorem packResults_outCnt (s : State) : (packResults s).outCnt = s.packOut := rfl
@[simp] theorem packResults_errInfo (s : State) : (packResults s).errInfo = s.errInfo := rfl
@[simp] theorem packResults_errPos (s : State) : (packResults s).errPos = s.errPos := rfl
@[simp] theorem packResults_freqIdx (s : State) : (packResults s).freqIdx = s.freqIdx := rfl
@[simp] theorem packResults_nodeIdx (s : State) : (packResults s).nodeIdx = s.nodeIdx := rfl
@[simp] theorem packResults_codeIdx (s : State) : (packResults s).codeIdx = s.codeIdx := rfl
@[simp] theorem packResults_codeWsel (s : State) : (packResults s).codeWsel = s.codeWsel := rfl
@[simp] theorem packResults_freq (s : State) : (packResults s).freq = s.freq := rfl
@[simp] theorem packResults_node (s : State) : (packResults s).node = s.node := rfl
@[simp] theorem packResults_root (s : State) : (packResults s).root = s.root := rfl
@[simp] theorem packResults_nLeaf (s : State) : (packResults s).nLeaf = s.nLeaf := rfl
@[simp] theorem packResults_pq (s : State) : (packResults s).pq = s.pq := rfl
@[simp] theorem packResults_code (s : State) : (packResults s).code = s.code := rfl
@[simp] theorem packResults_acc (s : State) : (packResults s).acc = s.acc := rfl
@[simp] theorem packResults_k (s : State) : (packResults s).k = s.k := rfl
@[simp] theorem packResults_nbits (s : State) : (packResults s).nbits = s.nbits := rfl
@[simp] theorem packResults_packOut (s : State) : (packResults s).packOut = s.packOut := rfl
@[simp] theorem packResults_cur (s : State) : (packResults s).cur = s.cur := rfl
@[simp] theorem packResults_unpackOut (s : State) : (packResults s).unpackOut = s.unpackOut := rfl
@[simp] theorem packResults_pend (s : State) : (packResults s).pend = s.pend := rfl
@[simp] theorem packResults_outSlot (s : State) : (packResults s).outSlot = s.outSlot := rfl
@[simp] theorem packResults_inQ (s : State) : (packResults s).inQ = s.inQ := rfl
@[simp] theorem packResults_script (s : State) : (packResults s).script = s.script := rfl
@[simp] theorem packResults_taken (s : State) : (packResults s).taken = s.taken := rfl
@[simp] theorem packResults_reads (s : State) : (packResults s).reads = s.reads := rfl
@[simp] theorem packResults_draws (s : State) : (packResults s).draws = s.draws := rfl

@[simp] theorem logRead_seq (v : Word) (s : State) : (logRead v s).seq = s.seq := rfl
@[simp] theorem logRead_point (v : Word) (s : State) : (logRead v s).point = s.point := rfl
@[simp] theorem logRead_done (v : Word) (s : State) : (logRead v s).done = s.done := rfl
@[simp] theorem logRead_err (v : Word) (s : State) : (logRead v s).err = s.err := rfl
@[simp] theorem logRead_reject (v : Word) (s : State) : (logRead v s).reject = s.reject := rfl
@[simp] theorem logRead_errCode (v : Word) (s : State) : (logRead v s).errCode = s.errCode := rfl
@[simp] theorem logRead_treeValid (v : Word) (s : State) : (logRead v s).treeValid = s.treeValid := rfl
@[simp] theorem logRead_ctValid (v : Word) (s : State) : (logRead v s).ctValid = s.ctValid := rfl
@[simp] theorem logRead_lastOp (v : Word) (s : State) : (logRead v s).lastOp = s.lastOp := rfl
@[simp] theorem logRead_ie (v : Word) (s : State) : (logRead v s).ie = s.ie := rfl
@[simp] theorem logRead_len (v : Word) (s : State) : (logRead v s).len = s.len := rfl
@[simp] theorem logRead_bitCnt (v : Word) (s : State) : (logRead v s).bitCnt = s.bitCnt := rfl
@[simp] theorem logRead_outCnt (v : Word) (s : State) : (logRead v s).outCnt = s.outCnt := rfl
@[simp] theorem logRead_errInfo (v : Word) (s : State) : (logRead v s).errInfo = s.errInfo := rfl
@[simp] theorem logRead_errPos (v : Word) (s : State) : (logRead v s).errPos = s.errPos := rfl
@[simp] theorem logRead_freqIdx (v : Word) (s : State) : (logRead v s).freqIdx = s.freqIdx := rfl
@[simp] theorem logRead_nodeIdx (v : Word) (s : State) : (logRead v s).nodeIdx = s.nodeIdx := rfl
@[simp] theorem logRead_codeIdx (v : Word) (s : State) : (logRead v s).codeIdx = s.codeIdx := rfl
@[simp] theorem logRead_codeWsel (v : Word) (s : State) : (logRead v s).codeWsel = s.codeWsel := rfl
@[simp] theorem logRead_freq (v : Word) (s : State) : (logRead v s).freq = s.freq := rfl
@[simp] theorem logRead_node (v : Word) (s : State) : (logRead v s).node = s.node := rfl
@[simp] theorem logRead_root (v : Word) (s : State) : (logRead v s).root = s.root := rfl
@[simp] theorem logRead_nLeaf (v : Word) (s : State) : (logRead v s).nLeaf = s.nLeaf := rfl
@[simp] theorem logRead_pq (v : Word) (s : State) : (logRead v s).pq = s.pq := rfl
@[simp] theorem logRead_code (v : Word) (s : State) : (logRead v s).code = s.code := rfl
@[simp] theorem logRead_acc (v : Word) (s : State) : (logRead v s).acc = s.acc := rfl
@[simp] theorem logRead_k (v : Word) (s : State) : (logRead v s).k = s.k := rfl
@[simp] theorem logRead_nbits (v : Word) (s : State) : (logRead v s).nbits = s.nbits := rfl
@[simp] theorem logRead_packOut (v : Word) (s : State) : (logRead v s).packOut = s.packOut := rfl
@[simp] theorem logRead_cur (v : Word) (s : State) : (logRead v s).cur = s.cur := rfl
@[simp] theorem logRead_unpackOut (v : Word) (s : State) : (logRead v s).unpackOut = s.unpackOut := rfl
@[simp] theorem logRead_pend (v : Word) (s : State) : (logRead v s).pend = s.pend := rfl
@[simp] theorem logRead_outSlot (v : Word) (s : State) : (logRead v s).outSlot = s.outSlot := rfl
@[simp] theorem logRead_inQ (v : Word) (s : State) : (logRead v s).inQ = s.inQ := rfl
@[simp] theorem logRead_script (v : Word) (s : State) : (logRead v s).script = s.script := rfl
@[simp] theorem logRead_taken (v : Word) (s : State) : (logRead v s).taken = s.taken := rfl
@[simp] theorem logRead_reads (v : Word) (s : State) : (logRead v s).reads = s.reads ++ [v] := rfl
@[simp] theorem logRead_draws (v : Word) (s : State) : (logRead v s).draws = s.draws := rfl

@[simp] theorem logDraw_seq (f : Word → Word) (s : State) : (logDraw f s).seq = s.seq := rfl
@[simp] theorem logDraw_point (f : Word → Word) (s : State) : (logDraw f s).point = s.point := rfl
@[simp] theorem logDraw_done (f : Word → Word) (s : State) : (logDraw f s).done = s.done := rfl
@[simp] theorem logDraw_err (f : Word → Word) (s : State) : (logDraw f s).err = s.err := rfl
@[simp] theorem logDraw_reject (f : Word → Word) (s : State) : (logDraw f s).reject = s.reject := rfl
@[simp] theorem logDraw_errCode (f : Word → Word) (s : State) : (logDraw f s).errCode = s.errCode := rfl
@[simp] theorem logDraw_treeValid (f : Word → Word) (s : State) : (logDraw f s).treeValid = s.treeValid := rfl
@[simp] theorem logDraw_ctValid (f : Word → Word) (s : State) : (logDraw f s).ctValid = s.ctValid := rfl
@[simp] theorem logDraw_lastOp (f : Word → Word) (s : State) : (logDraw f s).lastOp = s.lastOp := rfl
@[simp] theorem logDraw_ie (f : Word → Word) (s : State) : (logDraw f s).ie = s.ie := rfl
@[simp] theorem logDraw_len (f : Word → Word) (s : State) : (logDraw f s).len = s.len := rfl
@[simp] theorem logDraw_bitCnt (f : Word → Word) (s : State) : (logDraw f s).bitCnt = s.bitCnt := rfl
@[simp] theorem logDraw_outCnt (f : Word → Word) (s : State) : (logDraw f s).outCnt = s.outCnt := rfl
@[simp] theorem logDraw_errInfo (f : Word → Word) (s : State) : (logDraw f s).errInfo = s.errInfo := rfl
@[simp] theorem logDraw_errPos (f : Word → Word) (s : State) : (logDraw f s).errPos = s.errPos := rfl
@[simp] theorem logDraw_freqIdx (f : Word → Word) (s : State) : (logDraw f s).freqIdx = s.freqIdx := rfl
@[simp] theorem logDraw_nodeIdx (f : Word → Word) (s : State) : (logDraw f s).nodeIdx = s.nodeIdx := rfl
@[simp] theorem logDraw_codeIdx (f : Word → Word) (s : State) : (logDraw f s).codeIdx = s.codeIdx := rfl
@[simp] theorem logDraw_codeWsel (f : Word → Word) (s : State) : (logDraw f s).codeWsel = s.codeWsel := rfl
@[simp] theorem logDraw_freq (f : Word → Word) (s : State) : (logDraw f s).freq = s.freq := rfl
@[simp] theorem logDraw_node (f : Word → Word) (s : State) : (logDraw f s).node = s.node := rfl
@[simp] theorem logDraw_root (f : Word → Word) (s : State) : (logDraw f s).root = s.root := rfl
@[simp] theorem logDraw_nLeaf (f : Word → Word) (s : State) : (logDraw f s).nLeaf = s.nLeaf := rfl
@[simp] theorem logDraw_pq (f : Word → Word) (s : State) : (logDraw f s).pq = s.pq := rfl
@[simp] theorem logDraw_code (f : Word → Word) (s : State) : (logDraw f s).code = s.code := rfl
@[simp] theorem logDraw_acc (f : Word → Word) (s : State) : (logDraw f s).acc = s.acc := rfl
@[simp] theorem logDraw_k (f : Word → Word) (s : State) : (logDraw f s).k = s.k := rfl
@[simp] theorem logDraw_nbits (f : Word → Word) (s : State) : (logDraw f s).nbits = s.nbits := rfl
@[simp] theorem logDraw_packOut (f : Word → Word) (s : State) : (logDraw f s).packOut = s.packOut := rfl
@[simp] theorem logDraw_cur (f : Word → Word) (s : State) : (logDraw f s).cur = s.cur := rfl
@[simp] theorem logDraw_unpackOut (f : Word → Word) (s : State) : (logDraw f s).unpackOut = s.unpackOut := rfl
@[simp] theorem logDraw_pend (f : Word → Word) (s : State) : (logDraw f s).pend = s.pend := rfl
@[simp] theorem logDraw_outSlot (f : Word → Word) (s : State) : (logDraw f s).outSlot = s.outSlot := rfl
@[simp] theorem logDraw_inQ (f : Word → Word) (s : State) : (logDraw f s).inQ = s.inQ := rfl
@[simp] theorem logDraw_script (f : Word → Word) (s : State) : (logDraw f s).script = s.script := rfl
@[simp] theorem logDraw_taken (f : Word → Word) (s : State) : (logDraw f s).taken = s.taken := rfl
@[simp] theorem logDraw_reads (f : Word → Word) (s : State) : (logDraw f s).reads = s.reads ++ [f (Config.draw s.draws)] := rfl
@[simp] theorem logDraw_draws (f : Word → Word) (s : State) : (logDraw f s).draws = s.draws + 1 := rfl

@[simp] theorem raise_seq (c : ErrorCode) (x : Word) (p : Count) (s : State) : (raise c x p s).seq = s.seq := by
  unfold raise; split <;> rfl
@[simp] theorem raise_point (c : ErrorCode) (x : Word) (p : Count) (s : State) : (raise c x p s).point = s.point := by
  unfold raise; split <;> rfl
@[simp] theorem raise_done (c : ErrorCode) (x : Word) (p : Count) (s : State) : (raise c x p s).done = s.done := by
  unfold raise; split <;> rfl
@[simp] theorem raise_err (c : ErrorCode) (x : Word) (p : Count) (s : State) : (raise c x p s).err = s.err := by
  unfold raise; split <;> rfl
@[simp] theorem raise_reject (c : ErrorCode) (x : Word) (p : Count) (s : State) : (raise c x p s).reject = s.reject := by
  unfold raise; split <;> rfl
@[simp] theorem raise_errCode (c : ErrorCode) (x : Word) (p : Count) (s : State) : (raise c x p s).errCode = s.errCode := by
  unfold raise; split <;> rfl
@[simp] theorem raise_treeValid (c : ErrorCode) (x : Word) (p : Count) (s : State) : (raise c x p s).treeValid = s.treeValid := by
  unfold raise; split <;> rfl
@[simp] theorem raise_ctValid (c : ErrorCode) (x : Word) (p : Count) (s : State) : (raise c x p s).ctValid = s.ctValid := by
  unfold raise; split <;> rfl
@[simp] theorem raise_lastOp (c : ErrorCode) (x : Word) (p : Count) (s : State) : (raise c x p s).lastOp = s.lastOp := by
  unfold raise; split <;> rfl
@[simp] theorem raise_ie (c : ErrorCode) (x : Word) (p : Count) (s : State) : (raise c x p s).ie = s.ie := by
  unfold raise; split <;> rfl
@[simp] theorem raise_len (c : ErrorCode) (x : Word) (p : Count) (s : State) : (raise c x p s).len = s.len := by
  unfold raise; split <;> rfl
@[simp] theorem raise_bitCnt (c : ErrorCode) (x : Word) (p : Count) (s : State) : (raise c x p s).bitCnt = s.bitCnt := by
  unfold raise; split <;> rfl
@[simp] theorem raise_outCnt (c : ErrorCode) (x : Word) (p : Count) (s : State) : (raise c x p s).outCnt = s.outCnt := by
  unfold raise; split <;> rfl
@[simp] theorem raise_errInfo (c : ErrorCode) (x : Word) (p : Count) (s : State) : (raise c x p s).errInfo = s.errInfo := by
  unfold raise; split <;> rfl
@[simp] theorem raise_errPos (c : ErrorCode) (x : Word) (p : Count) (s : State) : (raise c x p s).errPos = s.errPos := by
  unfold raise; split <;> rfl
@[simp] theorem raise_freqIdx (c : ErrorCode) (x : Word) (p : Count) (s : State) : (raise c x p s).freqIdx = s.freqIdx := by
  unfold raise; split <;> rfl
@[simp] theorem raise_nodeIdx (c : ErrorCode) (x : Word) (p : Count) (s : State) : (raise c x p s).nodeIdx = s.nodeIdx := by
  unfold raise; split <;> rfl
@[simp] theorem raise_codeIdx (c : ErrorCode) (x : Word) (p : Count) (s : State) : (raise c x p s).codeIdx = s.codeIdx := by
  unfold raise; split <;> rfl
@[simp] theorem raise_codeWsel (c : ErrorCode) (x : Word) (p : Count) (s : State) : (raise c x p s).codeWsel = s.codeWsel := by
  unfold raise; split <;> rfl
@[simp] theorem raise_freq (c : ErrorCode) (x : Word) (p : Count) (s : State) : (raise c x p s).freq = s.freq := by
  unfold raise; split <;> rfl
@[simp] theorem raise_node (c : ErrorCode) (x : Word) (p : Count) (s : State) : (raise c x p s).node = s.node := by
  unfold raise; split <;> rfl
@[simp] theorem raise_root (c : ErrorCode) (x : Word) (p : Count) (s : State) : (raise c x p s).root = s.root := by
  unfold raise; split <;> rfl
@[simp] theorem raise_nLeaf (c : ErrorCode) (x : Word) (p : Count) (s : State) : (raise c x p s).nLeaf = s.nLeaf := by
  unfold raise; split <;> rfl
@[simp] theorem raise_pq (c : ErrorCode) (x : Word) (p : Count) (s : State) : (raise c x p s).pq = s.pq := by
  unfold raise; split <;> rfl
@[simp] theorem raise_code (c : ErrorCode) (x : Word) (p : Count) (s : State) : (raise c x p s).code = s.code := by
  unfold raise; split <;> rfl
@[simp] theorem raise_acc (c : ErrorCode) (x : Word) (p : Count) (s : State) : (raise c x p s).acc = s.acc := by
  unfold raise; split <;> rfl
@[simp] theorem raise_k (c : ErrorCode) (x : Word) (p : Count) (s : State) : (raise c x p s).k = s.k := by
  unfold raise; split <;> rfl
@[simp] theorem raise_nbits (c : ErrorCode) (x : Word) (p : Count) (s : State) : (raise c x p s).nbits = s.nbits := by
  unfold raise; split <;> rfl
@[simp] theorem raise_packOut (c : ErrorCode) (x : Word) (p : Count) (s : State) : (raise c x p s).packOut = s.packOut := by
  unfold raise; split <;> rfl
@[simp] theorem raise_cur (c : ErrorCode) (x : Word) (p : Count) (s : State) : (raise c x p s).cur = s.cur := by
  unfold raise; split <;> rfl
@[simp] theorem raise_unpackOut (c : ErrorCode) (x : Word) (p : Count) (s : State) : (raise c x p s).unpackOut = s.unpackOut := by
  unfold raise; split <;> rfl
@[simp] theorem raise_outSlot (c : ErrorCode) (x : Word) (p : Count) (s : State) : (raise c x p s).outSlot = s.outSlot := by
  unfold raise; split <;> rfl
@[simp] theorem raise_inQ (c : ErrorCode) (x : Word) (p : Count) (s : State) : (raise c x p s).inQ = s.inQ := by
  unfold raise; split <;> rfl
@[simp] theorem raise_script (c : ErrorCode) (x : Word) (p : Count) (s : State) : (raise c x p s).script = s.script := by
  unfold raise; split <;> rfl
@[simp] theorem raise_taken (c : ErrorCode) (x : Word) (p : Count) (s : State) : (raise c x p s).taken = s.taken := by
  unfold raise; split <;> rfl
@[simp] theorem raise_reads (c : ErrorCode) (x : Word) (p : Count) (s : State) : (raise c x p s).reads = s.reads := by
  unfold raise; split <;> rfl
@[simp] theorem raise_draws (c : ErrorCode) (x : Word) (p : Count) (s : State) : (raise c x p s).draws = s.draws := by
  unfold raise; split <;> rfl

end Sys2Proof.Machine
end

