-- ==== Sys2Proof/Laws/Ops.lean ====
section
/-! SUPPORT. One lemma for each shared operation that says everything it can do: the tables, `raise`, the
streams, the command lifecycle, and the rules of the commands. -/

namespace Sys2Proof.Machine

open Sys2Proof

/-! ### The tables -/

@[simp] theorem tableGet_tableSet_same {α : Type} (t : Vector α 256) (b : Byte) (x : α) :
    tableGet (tableSet t b x) b = x := by
  simp [tableGet, tableSet]

theorem tableGet_tableSet_ne {α : Type} (t : Vector α 256) {b c : Byte} (x : α) (h : b ≠ c) :
    tableGet (tableSet t b x) c = tableGet t c := by
  have : b.toNat ≠ c.toNat := fun e => h (BitVec.eq_of_toNat_eq e)
  simp [tableGet, tableSet, this]

theorem tableGet_tableSet {α : Type} (t : Vector α 256) (b c : Byte) (x : α) :
    tableGet (tableSet t b x) c = if c = b then x else tableGet t c := by
  split
  · next h => rw [h, tableGet_tableSet_same]
  · next h => exact tableGet_tableSet_ne t x (Ne.symm h)

@[simp] theorem tableGet_replicate {α : Type} (x : α) (b : Byte) :
    tableGet (Vector.replicate 256 x) b = x := by
  simp [tableGet]

/-- Two tables with the same entry for every byte value are equal. -/
theorem table_ext {α : Type} {t u : Vector α 256} (h : ∀ b, tableGet t b = tableGet u b) : t = u := by
  apply Vector.ext
  intro i hi
  have hb := h (BitVec.ofNat 8 i)
  have e : i % 2 ^ 8 = i := Nat.mod_eq_of_lt hi
  simpa only [tableGet, BitVec.toNat_ofNat, e] using hb

theorem mem_allBytes (b : Byte) : b ∈ allBytes := by
  simp only [allBytes, List.mem_map, List.mem_range]
  exact ⟨b.toNat, b.isLt, by simp⟩

theorem allBytes_nodup : allBytes.Nodup := by
  unfold allBytes
  apply List.Nodup.map_on _ List.nodup_range
  intro x hx y hy h
  simp only [List.mem_range] at hx hy
  have := congrArg BitVec.toNat h
  simp only [BitVec.toNat_ofNat] at this
  omega

theorem nodeGet_lt {t : Vector Node 511} {i : NodeIdx} {n : Node} (h : nodeGet t i = some n) : i.toNat < 511 := by
  unfold nodeGet at h
  by_contra hc
  rw [Vector.getElem?_eq_none (by omega)] at h
  cases h

@[simp] theorem nodeGet_null (t : Vector Node 511) : nodeGet t Config.null = none := by
  simp [nodeGet, Config.null]

/-- A node index other than NULL names an entry (R116). -/
theorem nodeGet_isSome {i : NodeIdx} (t : Vector Node 511) (h : i ≠ Config.null) : ∃ n, nodeGet t i = some n := by
  have hi : i.toNat < 511 := by
    have h1 : i.toNat ≠ 511 := fun e => h (BitVec.eq_of_toNat_eq (by simpa [Config.null] using e))
    have h2 := i.isLt
    omega
  exact ⟨t[i.toNat], by simp [nodeGet, hi]⟩

theorem nodeGet_nodeSet (t : Vector Node 511) (i j : NodeIdx) (x : Node) :
    nodeGet (nodeSet t i x) j = if j = i ∧ i ≠ Config.null then some x else nodeGet t j := by
  unfold nodeGet nodeSet
  rw [Vector.getElem?_setIfInBounds]
  by_cases h : i.toNat = j.toNat
  · have hij : j = i := BitVec.eq_of_toNat_eq h.symm
    subst hij
    by_cases hn : j = Config.null
    · subst hn; simp [Config.null]
    · have hlt : j.toNat < 511 := by
        have h1 : j.toNat ≠ 511 := fun e => hn (BitVec.eq_of_toNat_eq (by simpa [Config.null] using e))
        have h2 := j.isLt
        omega
      simp [hn, hlt]
  · have hij : ¬ j = i := fun e => h (by rw [e])
    simp [h, hij]

/-! ### Words and halves -/

/-- A concatenation as a number (R13). -/
theorem append_toNat {n m : Nat} (a : BitVec n) (b : BitVec m) :
    (a ++ b).toNat = a.toNat * 2 ^ m + b.toNat := by
  rw [BitVec.toNat_append, ← Nat.shiftLeft_add_eq_or_of_lt b.isLt, Nat.shiftLeft_eq]

theorem loWord_toNat (v : Count) : (loWord v).toNat = v.toNat % 2 ^ 32 := by
  simp [loWord]

theorem hiWord_toNat (v : Count) : (hiWord v).toNat = v.toNat / 2 ^ 32 := by
  have := v.isLt
  rw [hiWord, BitVec.extractLsb'_toNat, Nat.shiftRight_eq_div_pow]
  omega

theorem setLo_toNat (v : Count) (w : Word) :
    (setLo v w).toNat = v.toNat / 2 ^ 32 * 2 ^ 32 + w.toNat := by
  rw [setLo, append_toNat, hiWord_toNat]

theorem setHi_toNat (v : Count) (w : Word) :
    (setHi v w).toNat = w.toNat * 2 ^ 32 + v.toNat % 2 ^ 32 := by
  rw [setHi, append_toNat, loWord_toNat]

/-- The low bits of a word as an index register stores them (R41, R43, R47). -/
theorem extractLsb'_zero (v : Word) (n : Nat) : v.extractLsb' 0 n = v.setWidth n := by
  apply BitVec.eq_of_toNat_eq
  simp

/-! ### Errors, streams and the command lifecycle -/

theorem raise_pend (c : ErrorCode) (x : Word) (p : Count) (s : State) :
    (raise c x p s).pend = if s.pend.code = .none then ⟨c, x, p⟩ else s.pend := by
  unfold raise; split <;> rfl

/-- The first error wins (R14, R305). -/
theorem raise_of_recorded {c : ErrorCode} {x : Word} {p : Count} {s : State} (h : s.pend.code ≠ .none) :
    raise c x p s = s := by
  unfold raise; rw [if_neg h]

theorem raise_of_clear {c : ErrorCode} {x : Word} {p : Count} {s : State} (h : s.pend.code = .none) :
    raise c x p s = { s with pend := ⟨c, x, p⟩ } := by
  unfold raise; rw [if_pos h]

theorem illegalWord_eq (w : Word) (s : State) :
    illegalWord w s =
      { latchWord w s with
        pend := ⟨.illegalCmd, w, 0#64⟩, errCode := .illegalCmd, err := true, errInfo := w, errPos := 0#64
        seq := .idle, point := .entry, done := true } := by
  unfold illegalWord
  rw [raise_of_clear (by rfl)]
  rfl

/-- Everything `InPop` can do (R86). -/
theorem inPop_next {s t : State} {k : Byte → State → Outcome} (h : inPop s k = .next t) :
    (s.inQ = [] ∧ t = s) ∨ ∃ b rest, s.inQ = b :: rest ∧ k b { s with inQ := rest } = .next t := by
  unfold inPop at h
  split at h
  · next hq => exact .inl ⟨hq, by cases h; rfl⟩
  · next b rest hq => exact .inr ⟨b, rest, hq, h⟩

/-- Everything one engine step of a command can do (R150, R151, R87). -/
theorem runCommand_next {i : Instr} {rule : State → Outcome} {s t : State} (h : runCommand i rule s = .next t) :
    (s.seq = .idle ∧ t = accept i s) ∨
    (s.seq = .run i ∧ s.outSlot ≠ none ∧ t = s) ∨
    (s.seq = .run i ∧ s.outSlot = none ∧ rule s = .next t) ∨
    (s.seq ≠ .idle ∧ s.seq ≠ .run i ∧ t = rejectWrite s) := by
  unfold runCommand at h
  split at h
  · next hq => exact .inl ⟨hq, by cases h; rfl⟩
  · next j hq =>
    split at h
    · next hj =>
      subst hj
      split at h
      · next v hv => exact .inr (.inl ⟨hq, by simp [hv], by cases h; rfl⟩)
      · next hv => exact .inr (.inr (.inl ⟨hq, hv, h⟩))
    · next hj => exact .inr (.inr (.inr ⟨by simp [hq], by simp [hq, hj], by cases h; rfl⟩))
  · next hq => exact .inr (.inr (.inr ⟨by simp [hq], by simp [hq], by cases h; rfl⟩))

theorem runCommand_idle {i : Instr} {rule : State → Outcome} {s : State} (h : s.seq = .idle) :
    runCommand i rule s = .next (accept i s) := by
  simp [runCommand, h]

theorem runCommand_held {i : Instr} {rule : State → Outcome} {s : State} {v : Byte}
    (h : s.seq = .run i) (hv : s.outSlot = some v) : runCommand i rule s = .next s := by
  simp [runCommand, h, hv]

theorem runCommand_rule {i : Instr} {rule : State → Outcome} {s : State}
    (h : s.seq = .run i) (hv : s.outSlot = none) : runCommand i rule s = rule s := by
  simp [runCommand, h, hv]

/-- The rule of each command: what `exec` runs while SEQ = RUN(i). -/
def ruleOf : Instr → State → Outcome
  | .init => fun s => .next (finish (clearCoder s))
  | .record => recordRule
  | .buildTree => fun s => .next (finish (buildTreeBody s))
  | .buildCodes => buildCodesRule
  | .compress => compressRule
  | .decompress => decompressRule

theorem exec_eq_runCommand (i : Instr) (s : State) : exec i s = runCommand i (ruleOf i) s := by
  cases i <;> rfl

/-! ### The rules of the stream commands -/

/-- Everything one step of RECORD's rule can do (R170). -/
theorem recordRule_next {s t : State} (h : recordRule s = .next t) :
    (s.point = .entry ∧ t = { s with point := .atPop 0 }) ∨
    (∃ i b rest, s.point = .atPop i ∧ i < s.msgLen ∧ s.inQ = b :: rest ∧
      t = { recordByte i b { s with inQ := rest } with point := .atPop (i + 1) }) ∨
    (∃ i, s.point = .atPop i ∧ s.msgLen ≤ i ∧ t = finish s) ∨
    t = s := by
  unfold recordRule at h
  split at h
  · next hp => exact .inl ⟨hp, by cases h; rfl⟩
  · next i hp =>
    split at h
    · next hi =>
      obtain ⟨-, rfl⟩ | ⟨b, rest, hq, h⟩ := inPop_next h
      · exact .inr (.inr (.inr rfl))
      · exact .inr (.inl ⟨i, b, rest, hp, hi, hq, by cases h; rfl⟩)
    · next hi => exact .inr (.inr (.inl ⟨i, hp, by omega, by cases h; rfl⟩))
  all_goals exact .inr (.inr (.inr (by cases h; rfl)))

/-- Everything one step of BUILD_CODES's rule can do when it goes on (R220). -/
theorem buildCodesRule_next {s t : State} (h : buildCodesRule s = .next t) :
    (s.treeValid = false ∧ t = finish (raise .notReady 0#32 0#64 s)) ∨
    (s.treeValid = true ∧ ∃ code, codeTable s.node s.root s.nLeaf.toNat = .ok code ∧
      t = finish { s with code := code, ctValid := true }) := by
  unfold buildCodesRule at h
  split at h
  · next hv =>
    split at h
    · cases h
    · next code hc => exact .inr ⟨hv, code, hc, by cases h; rfl⟩
  · next hv => exact .inl ⟨by simpa using hv, by cases h; rfl⟩

/-- Everything one step of COMPRESS's rule can do (R240). -/
theorem compressRule_next {s t : State} (h : compressRule s = .next t) :
    (s.point = .entry ∧ t = { packerStart s with point := .atPop 0 }) ∨
    (∃ i b rest, s.point = .atPop i ∧ i < s.msgLen ∧ s.inQ = b :: rest ∧
      t = packByte i b { s with inQ := rest }) ∨
    (∃ i, s.point = .atPop i ∧ s.msgLen ≤ i ∧ t = { packTail s with point := .atEnd }) ∨
    (∃ i b j, s.point = .atCode i b j ∧ j < (tableGet s.code b).len.toNat ∧
      t = { packBit ((tableGet s.code b).bits.getLsbD j) s with point := .atCode i b (j + 1) }) ∨
    (∃ i b j, s.point = .atCode i b j ∧ (tableGet s.code b).len.toNat ≤ j ∧
      t = { s with point := .atPop (i + 1) }) ∨
    (s.point = .atEnd ∧ t = finish (packResults s)) ∨
    t = s := by
  unfold compressRule at h
  split at h
  · next hp => exact .inl ⟨hp, by cases h; rfl⟩
  · next i hp =>
    split at h
    · next hi =>
      obtain ⟨-, rfl⟩ | ⟨b, rest, hq, h⟩ := inPop_next h
      · exact .inr (.inr (.inr (.inr (.inr (.inr rfl)))))
      · exact .inr (.inl ⟨i, b, rest, hp, hi, hq, by cases h; rfl⟩)
    · next hi => exact .inr (.inr (.inl ⟨i, hp, by omega, by cases h; rfl⟩))
  · next i b j hp =>
    split at h
    · next hj => exact .inr (.inr (.inr (.inl ⟨i, b, j, hp, hj, by cases h; rfl⟩)))
    · next hj => exact .inr (.inr (.inr (.inr (.inl ⟨i, b, j, hp, by omega, by cases h; rfl⟩))))
  · exact .inr (.inr (.inr (.inr (.inr (.inr (by cases h; rfl))))))
  · next hp => exact .inr (.inr (.inr (.inr (.inr (.inl ⟨hp, by cases h; rfl⟩)))))

/-- Everything one step of DECOMPRESS's rule can do when it goes on (R260). -/
theorem decompressRule_next {s t : State} (h : decompressRule s = .next t) :
    (s.point = .entry ∧ t = { unpackerStart s with point := .atPop 0 }) ∨
    (∃ q b rest, s.point = .atPop q ∧ q < s.packedLen ∧ s.inQ = b :: rest ∧
      t = { s with inQ := rest, point := .atBit q b 0 }) ∨
    (∃ q, s.point = .atPop q ∧ s.packedLen ≤ q ∧ t = finish { s with outCnt := s.unpackOut }) ∨
    (∃ q byte k s', s.point = .atBit q byte k ∧ unpackStep q byte k s = .ok s' ∧
      t = { s' with point := afterBit q byte k }) ∨
    t = s := by
  unfold decompressRule at h
  split at h
  · next hp => exact .inl ⟨hp, by cases h; rfl⟩
  · next q hp =>
    split at h
    · next hq =>
      obtain ⟨-, rfl⟩ | ⟨b, rest, hb, h⟩ := inPop_next h
      · exact .inr (.inr (.inr (.inr rfl)))
      · exact .inr (.inl ⟨q, b, rest, hp, hq, hb, by cases h; rfl⟩)
    · next hq => exact .inr (.inr (.inl ⟨q, hp, by omega, by cases h; rfl⟩))
  · next q byte k hp =>
    split at h
    · cases h
    · next s' hs => exact .inr (.inr (.inr (.inl ⟨q, byte, k, s', hp, hs, by cases h; rfl⟩)))
  all_goals exact .inr (.inr (.inr (.inr (by cases h; rfl))))

/-- Everything the decoding of one bit can do when it goes on (R260, R262, R263). -/
theorem unpackStep_ok {q : Nat} {byte : Byte} {k : Nat} {s t : State} (h : unpackStep q byte k s = .ok t) :
    ((s.bitLen ≤ 8 * q + k ∨ s.pend.code ≠ .none) ∧ t = s) ∨
    (s.pend.code = .none ∧ t = corrupt (8 * q + k) s) ∨
    (s.pend.code = .none ∧ ∃ n c, nodeGet s.node s.cur = some n ∧ n.kind = .internal ∧
      nodeGet s.node (childOf n (byte.getLsbD (7 - k))) = some c ∧
      t = landOn (childOf n (byte.getLsbD (7 - k))) c s) := by
  unfold unpackStep at h
  split at h
  · next hc =>
    unfold unpackBit at h
    split at h
    · cases h
    · next n hn =>
      split at h
      · exact .inr (.inl ⟨hc.2, by cases h; rfl⟩)
      · next hk =>
        split at h
        · exact .inr (.inl ⟨hc.2, by cases h; rfl⟩)
        · next c hcc => exact .inr (.inr ⟨hc.2, n, c, hn, hk, hcc, by cases h; rfl⟩)
  · next hc =>
    refine .inl ⟨?_, by cases h; rfl⟩
    by_cases hp : s.pend.code = .none
    · exact .inl (by by_contra hlt; exact hc ⟨by omega, hp⟩)
    · exact .inr hp

end Sys2Proof.Machine
end

