-- ==== Sys2Proof/Laws/PerInstr.lean ====
section
/-! SUPPORT. The family of statements made for every command: its word is legal, the decoder reads the
command back from it, and it is the word of the row of spec/opcode_table.json (30_encoding.md R111, R112). -/

namespace Sys2Proof.Laws.EncodeDecode

open Sys2Proof

/-- The word of `i` has OP in bits [3:0] and zeros above (R111), it is legal (R114), and it decodes to `i`
as the register word and as the opcode table numbers it. -/
def Statement (i : Instr) : Prop :=
  (encode i).toNat = (opcode i).toNat ∧ wellFormedWord (encode i) = true ∧ decode (encode i) = some i ∧
  decodeTableWord 32 (encode i).toNat = some i

theorem init : Statement .init := by unfold Statement; decide

theorem record : Statement .record := by unfold Statement; decide

theorem buildTree : Statement .buildTree := by unfold Statement; decide

theorem buildCodes : Statement .buildCodes := by unfold Statement; decide

theorem compress : Statement .compress := by unfold Statement; decide

theorem decompress : Statement .decompress := by unfold Statement; decide

end Sys2Proof.Laws.EncodeDecode
end

