-- ==== Sys2Proof/Laws/Step.lean ====
section
/-! SUPPORT. What one step can do, said once: `step` is the next event, and a command's engine step where
the event launches or runs one. -/

namespace Sys2Proof.Machine

open Sys2Proof

/-- The state with its next event taken out of the script. -/
def popEvent (s : State) : State := { s with script := s.script.tail }

/-- The state an access starts from: the event is gone, and where read and write strobe meet in one
cycle (R99) a draw has been read. -/
def AccessFrom (s u : State) : Prop := u = popEvent s ∨ u = logDraw (fun d => d) (popEvent s)

theorem step_of_turn_none {s t : State} (h : turn s = (none, t)) : step s = .next t := by
  simp [step, h]

theorem step_of_turn_some {s t : State} {i : Instr} (h : turn s = (some i, t)) : step s = exec i t := by
  simp [step, h]

/-- Everything a write can do (R81, R84, R151, R152). -/
theorem busWrite_cases (off : BitVec 8) (v : Word) (s : State) :
    (s.busy = true ∧ regLocked (regOf off) = true ∧ busWrite off v s = (none, rejectWrite s)) ∨
    (s.busy = false ∧ regOf off = .cmd ∧ ∃ i, decode v = some i ∧ busWrite off v s = (some i, s)) ∨
    (s.busy = false ∧ regOf off = .cmd ∧ decode v = none ∧ busWrite off v s = (none, illegalWord v s)) ∨
    ((s.busy = false ∨ regLocked (regOf off) = false) ∧ regOf off ≠ .cmd ∧
      busWrite off v s = (none, regWrite (regOf off) v s)) := by
  unfold busWrite
  cases hb : s.busy <;> cases hl : regLocked (regOf off) <;>
    simp only [Bool.and_true, Bool.and_false, Bool.false_eq_true, if_false, if_true]
  · have hc : regOf off ≠ .cmd := by intro e; rw [e] at hl; cases hl
    exact .inr (.inr (.inr ⟨.inl trivial, hc, by rw [if_neg hc]⟩))
  · by_cases hc : regOf off = .cmd
    · cases hd : decode v with
      | none => exact .inr (.inr (.inl ⟨trivial, hc, rfl, by rw [if_pos hc]⟩))
      | some i => exact .inr (.inl ⟨trivial, hc, i, rfl, by rw [if_pos hc]⟩)
    · exact .inr (.inr (.inr ⟨.inl trivial, hc, by rw [if_neg hc]⟩))
  · have hc : regOf off ≠ .cmd := by intro e; rw [e] at hl; cases hl
    exact .inr (.inr (.inr ⟨.inr trivial, hc, by rw [if_neg hc]⟩))
  · exact .inl ⟨trivial, trivial, trivial⟩

/-- A read changes nothing but the record of what the host read and the draw counter (R83). -/
theorem busRead_eq (off : BitVec 8) (s : State) : ∃ v d, busRead off s = { s with reads := s.reads ++ [v], draws := d } := by
  unfold busRead
  split
  · split
    · exact ⟨_, _, rfl⟩
    · split <;> exact ⟨_, _, rfl⟩
  · exact ⟨_, _, rfl⟩

/-- Everything a step that runs no command can do. -/
theorem turn_none {s t : State} (h : turn s = (none, t)) :
    (s.seq = .resetInit ∧ t = endResetInit (popEvent s)) ∨
    (s.seq = .idle ∧ t = popEvent s) ∨
    (∃ v d, t = { popEvent s with reads := s.reads ++ [v], draws := d }) ∨
    (∃ b, t = offerIn b (popEvent s)) ∨
    t = takeOut (popEvent s) ∨
    t = hardReset (popEvent s) ∨
    (∃ u, AccessFrom s u ∧
      ((s.busy = true ∧ t = rejectWrite u) ∨
       (s.busy = false ∧ ∃ v, decode v = none ∧ t = illegalWord v u) ∨
       (∃ r v, (s.busy = false ∨ regLocked r = false) ∧ r ≠ .cmd ∧ t = regWrite r v u))) := by
  have write : ∀ off v u, AccessFrom s u → busWrite off v u = (none, t) →
      ((s.busy = true ∧ t = rejectWrite u) ∨
       (s.busy = false ∧ ∃ v, decode v = none ∧ t = illegalWord v u) ∨
       (∃ r v, (s.busy = false ∨ regLocked r = false) ∧ r ≠ .cmd ∧ t = regWrite r v u)) := by
    intro off v u hu hw
    have hbu : u.busy = s.busy := by rcases hu with rfl | rfl <;> rfl
    rcases busWrite_cases off v u with ⟨hb, _, e⟩ | ⟨hb, _, i, _, e⟩ | ⟨hb, _, hd, e⟩ | ⟨hb, hc, e⟩
    · rw [e] at hw; cases hw; exact .inl ⟨hbu ▸ hb, rfl⟩
    · rw [e] at hw; cases hw
    · rw [e] at hw; cases hw; exact .inr (.inl ⟨hbu ▸ hb, v, hd, rfl⟩)
    · rw [e] at hw; cases hw; exact .inr (.inr ⟨_, v, hbu ▸ hb, hc, rfl⟩)
  have engine : ∀ u, u = popEvent s → engineTurn u = (none, t) →
      (s.seq = .resetInit ∧ t = endResetInit (popEvent s)) ∨ (s.seq = .idle ∧ t = popEvent s) := by
    intro u hu he
    subst hu
    unfold engineTurn at he
    split at he
    · next hq => cases he; exact .inl ⟨hq, rfl⟩
    · next hq => cases he; exact .inr ⟨hq, rfl⟩
    · cases he
  unfold turn at h
  split at h
  · next hs =>
    have e : s = popEvent s := by cases s; cases hs; rfl
    rcases engine s e h with h | h
    · exact .inl h
    · exact .inr (.inl h)
  · next e rest hs =>
    have ep : { s with script := rest } = popEvent s := by unfold popEvent; rw [hs]; rfl
    rw [ep] at h
    cases e with
    | write off v => exact .inr (.inr (.inr (.inr (.inr (.inr ⟨_, .inl rfl, write off v _ (.inl rfl) h⟩)))))
    | read off =>
      obtain ⟨v, d, e⟩ := busRead_eq off (popEvent s)
      have h' : (none, busRead off (popEvent s)) = ((none : Option Instr), t) := h
      rw [e] at h'
      cases h'
      exact .inr (.inr (.inl ⟨v, d, rfl⟩))
    | writeRead off v => exact .inr (.inr (.inr (.inr (.inr (.inr ⟨_, .inr rfl, write off v _ (.inr rfl) h⟩)))))
    | offer b => cases h; exact .inr (.inr (.inr (.inl ⟨b, rfl⟩)))
    | take => cases h; exact .inr (.inr (.inr (.inr (.inl rfl))))
    | reset => cases h; exact .inr (.inr (.inr (.inr (.inr (.inl rfl)))))
    | engine =>
      rcases engine _ rfl h with h | h
      · exact .inl h
      · exact .inr (.inl h)

/-- A step that runs a command: the engine goes on with it, or an IDLE engine is given its word. -/
theorem turn_some {s t : State} {i : Instr} (h : turn s = (some i, t)) :
    (s.seq = .run i ∧ t = popEvent s) ∨
    (s.seq = .idle ∧ AccessFrom s t ∧ ∃ v, decode v = some i) := by
  have write : ∀ off v u, AccessFrom s u → busWrite off v u = (some i, t) →
      s.seq = .idle ∧ AccessFrom s t ∧ ∃ v, decode v = some i := by
    intro off v u hu hw
    have hbu : u.busy = s.busy := by rcases hu with rfl | rfl <;> rfl
    rcases busWrite_cases off v u with ⟨hb, _, e⟩ | ⟨hb, _, i', hd, e⟩ | ⟨hb, _, hd, e⟩ | ⟨hb, hc, e⟩
    · rw [e] at hw; cases hw
    · rw [e] at hw; cases hw
      rw [hbu] at hb
      exact ⟨by simpa [State.busy] using hb, hu, v, hd⟩
    · rw [e] at hw; cases hw
    · rw [e] at hw; cases hw
  have engine : ∀ u, u = popEvent s → engineTurn u = (some i, t) → s.seq = .run i ∧ t = popEvent s := by
    intro u hu he
    subst hu
    unfold engineTurn at he
    split at he
    · cases he
    · cases he
    · next hq => cases he; exact ⟨hq, rfl⟩
  unfold turn at h
  split at h
  · next hs =>
    have e : s = popEvent s := by cases s; cases hs; rfl
    exact .inl (engine s e h)
  · next e rest hs =>
    have ep : { s with script := rest } = popEvent s := by unfold popEvent; rw [hs]; rfl
    rw [ep] at h
    cases e with
    | write off v => exact .inr (write off v _ (.inl rfl) h)
    | read off => cases h
    | writeRead off v => exact .inr (write off v _ (.inr rfl) h)
    | offer b => cases h
    | take => cases h
    | reset => cases h
    | engine => exact .inl (engine _ rfl h)

/-- One step is a step without a command, or a command's engine step. -/
theorem step_cases (s : State) :
    (∃ t, turn s = (none, t) ∧ step s = .next t) ∨ (∃ i t, turn s = (some i, t) ∧ step s = exec i t) := by
  rcases h : turn s with ⟨_ | i, t⟩
  · exact .inl ⟨t, rfl, step_of_turn_none h⟩
  · exact .inr ⟨i, t, rfl, step_of_turn_some h⟩

/-! ### The accesses of the host -/

theorem turn_write {s : State} {off : BitVec 8} {v : Word} {rest : List HostEvent}
    (h : s.script = .write off v :: rest) : turn s = busWrite off v { s with script := rest } := by
  unfold turn; rw [h]; rfl

theorem step_write {s t : State} {off : BitVec 8} {v : Word} {rest : List HostEvent}
    (h : s.script = .write off v :: rest) (ht : busWrite off v { s with script := rest } = (none, t)) :
    step s = .next t :=
  step_of_turn_none (by rw [turn_write h, ht])

theorem step_read {s : State} {off : BitVec 8} {rest : List HostEvent} (h : s.script = .read off :: rest) :
    step s = .next (busRead off { s with script := rest }) :=
  step_of_turn_none (by unfold turn; rw [h]; rfl)

theorem regRead_script (r : Reg) (s : State) (rest : List HostEvent) :
    regRead r { s with script := rest } = regRead r s := by
  cases r <;> rfl

/-- A write that stores (R81, R84). -/
theorem busWrite_store {s : State} {off : BitVec 8} {v : Word}
    (hl : s.busy = false ∨ regLocked (regOf off) = false) (hc : regOf off ≠ .cmd) :
    busWrite off v s = (none, regWrite (regOf off) v s) := by
  unfold busWrite
  rw [if_neg (by rcases hl with h | h <;> simp [h]), if_neg hc]

/-- A read while IDLE returns what the register reads, and changes nothing else (R83). -/
theorem step_read_idle {s : State} {off : BitVec 8} {rest : List HostEvent}
    (h : s.script = .read off :: rest) (hq : s.seq = .idle) :
    step s = .next { s with script := rest, reads := s.reads ++ [regRead (regOf off) s] } := by
  rw [step_read h, busRead, if_neg (by simp [State.busy, hq]), regRead_script]
  rfl

end Sys2Proof.Machine
end

