-- ==== Sys2Proof/Tests/Slice0.lean ====
section
/-! SUPPORT. Tests: the WellFormed smoke test, words written out from the encoding, a few single steps with
the results of spec/95_test_vectors.md, and for each statement with hypotheses a concrete state and operands
that meet them (`witness_…`). -/

set_option Elab.async false

open Sys2Proof Sys2Proof.Machine

namespace Sys2Proof.Tests

/-! ### Well-formedness and decoding (30_encoding.md R111, R112, R114) -/

/-- RSVD ≠ 0: refused. -/
theorem test_illFormed_rsvd : wellFormedWord 0x00000011#32 = false ∧ decode 0x00000011#32 = none := by decide

/-- OP = 0: refused. -/
theorem test_illFormed_opZero : wellFormedWord 0x00000000#32 = false ∧ decode 0x00000000#32 = none := by decide

/-- OP > 6: refused. -/
theorem test_illFormed_opSeven : wellFormedWord 0x00000007#32 = false ∧ decode 0x00000007#32 = none := by decide

theorem test_decode_init : decode 0b00000000000000000000000000000001#32 = some .init := by decide

theorem test_decode_record : decode 0b00000000000000000000000000000010#32 = some .record := by decide

theorem test_decode_buildTree : decode 0b00000000000000000000000000000011#32 = some .buildTree := by decide

theorem test_decode_buildCodes : decode 0b00000000000000000000000000000100#32 = some .buildCodes := by decide

theorem test_decode_compress : decode 0b00000000000000000000000000000101#32 = some .compress := by decide

theorem test_decode_decompress : decode 0b00000000000000000000000000000110#32 = some .decompress := by decide

/-- The decoder reads exactly the well-formed words, on every 8-bit word. -/
theorem test_decode_agrees_wellFormed :
    ∀ b : Byte, (decode (b.setWidth 32)).isSome = wellFormedWord (b.setWidth 32) := by decide +kernel

/-! ### States for the tests -/

/-- The state after RESET_INIT (95_test_vectors.md V-S1). -/
def boot : State := { State.reset with seq := .idle }

/-- The engine is IDLE and `e` is the next event. -/
def idleAt (e : HostEvent) : State := { boot with script := [e] }

/-- The engine runs RECORD and `e` is the next event. -/
def busyAt (e : HostEvent) : State := { boot with seq := .run .record, script := [e] }

/-- Command `i` has been accepted (R151), and its first engine step is next. -/
def started (i : Instr) (s : State) : State := accept i s

/-- FREQ after RECORD of "ab". -/
def freqAB : Vector Count 256 := tableSet (tableSet (Vector.replicate 256 0#64) 0x61#8 1#64) 0x62#8 1#64

/-- FREQ after RECORD of "abcc" (V-T1). -/
def freqABCC : Vector Count 256 := tableSet freqAB 0x63#8 2#64

/-- FREQ after RECORD of "aaaa". -/
def freqA : Vector Count 256 := tableSet (Vector.replicate 256 0#64) 0x61#8 4#64

/-- The arena with its first entries given. -/
def arena (l : List Node) : Vector Node 511 :=
  l.zipIdx.foldl (fun t p => t.setIfInBounds p.2 p.1) (Vector.replicate 511 Node.unset)

/-- NODE of the tree of "ab" (P1's end state). -/
def nodesAB : Vector Node 511 := arena
  [⟨.leaf, 0x61#8, 1#72, 0x1FF#9, 0x1FF#9, 2#9⟩, ⟨.leaf, 0x62#8, 1#72, 0x1FF#9, 0x1FF#9, 2#9⟩,
   ⟨.internal, 0#8, 2#72, 0#9, 1#9, 0x1FF#9⟩]

/-- NODE of the tree of "aaaa" (L1-7). -/
def nodesA : Vector Node 511 := arena
  [⟨.leaf, 0x61#8, 4#72, 0x1FF#9, 0x1FF#9, 1#9⟩, ⟨.internal, 0#8, 4#72, 0#9, 0x1FF#9, 0x1FF#9⟩]

/-- CODE of the tree of "ab": 'a' = "0", 'b' = "1" (V-P1). -/
def codeAB : Vector CodeEntry 256 :=
  tableSet (tableSet (Vector.replicate 256 CodeEntry.absent) 0x61#8 ⟨true, 1#8, 0#256⟩) 0x62#8 ⟨true, 1#8, 1#256⟩

/-- CODE of the tree of "aaaa": 'a' = "0" (L1-7). -/
def codeA : Vector CodeEntry 256 :=
  tableSet (Vector.replicate 256 CodeEntry.absent) 0x61#8 ⟨true, 1#8, 0#256⟩

/-- IDLE, with the tree and the codes of "ab". -/
def coderAB : State :=
  { boot with freq := freqAB, node := nodesAB, root := 2#9, nLeaf := 2#9, treeValid := true
              code := codeAB, ctValid := true }

/-- IDLE, with the tree and the codes of "aaaa". -/
def coderA : State :=
  { boot with freq := freqA, node := nodesA, root := 1#9, nLeaf := 1#9, treeValid := true
              code := codeA, ctValid := true }

/-- The state a step leads to. -/
def after (s : State) : State :=
  match step s with
  | .next t => t
  | _ => s

/-- The state an engine step of a command leads to. -/
def afterExec (i : Instr) (s : State) : State :=
  match exec i s with
  | .next t => t
  | _ => s

/-- The outcome is a next state. -/
def isNext : Outcome → Bool
  | .next _ => true
  | _ => false

theorem exec_afterExec {i : Instr} {s : State} (h : isNext (exec i s) = true) : exec i s = .next (afterExec i s) := by
  unfold afterExec
  cases he : exec i s with
  | next t => rfl
  | fault r => rw [he] at h; cases h
  | refused r => rw [he] at h; cases h

theorem step_after {s : State} (h : isNext (step s) = true) : step s = .next (after s) := by
  unfold after
  cases he : step s with
  | next t => rfl
  | fault r => rw [he] at h; cases h
  | refused r => rw [he] at h; cases h

/-! ### Placing a command (fixed name `State.withFetchWord`) -/

/-- Each command, placed after reset, is the first one the machine takes. -/
theorem test_placed_command_is_run (i : Instr) :
    step (State.reset.withFetchWord 32 (encode i).toNat) = exec i (endResetInit State.reset) ∧
    (after (State.reset.withFetchWord 32 (encode i).toNat)).seq = .run i := by
  cases i <;> exact ⟨rfl, rfl⟩

/-! ### Single steps (95_test_vectors.md) -/

/-- V-I1: after RECORD "ab", INIT gives STATUS = 0x00001002 and both counters are 0. -/
theorem test_init_clears :
    let t := afterExec .init (started .init { boot with freq := freqAB })
    t.statusWord = 0x00001002#32 ∧ tableGet t.freq 0x61#8 = 0#64 ∧ tableGet t.freq 0x62#8 = 0#64 := by decide +kernel

/-- V-I2: INIT clears TREE_VALID, CT_VALID and ROOT and keeps LEN. -/
theorem test_init_keeps_len :
    let t := afterExec .init (started .init { coderAB with len := 7#32 })
    t.statusWord = 0x00001002#32 ∧ t.root = 0x1FF#9 ∧ t.len = 7#32 := by decide +kernel

/-- V-R1, first byte: 'a' counts once and 'b', which is next on IN, does not yet. -/
theorem test_record_counts :
    let t := afterExec .record { started .record { boot with len := 11#32, inQ := [0x61#8, 0x62#8] } with point := .atPop 0 }
    tableGet t.freq 0x61#8 = 1#64 ∧ tableGet t.freq 0x62#8 = 0#64 ∧ t.inQ = [0x62#8] ∧ t.point = .atPop 1 := by decide +kernel

/-- V-R4: the counter at 2^64 − 1 stays; the error is COUNTER_OVERFLOW with info 0x41 and pos 1. -/
theorem test_record_overflow :
    let t := afterExec .record { started .record { boot with
      len := 3#32, inQ := [0x41#8, 0x41#8], freq := tableSet boot.freq 0x41#8 0xFFFFFFFFFFFFFFFF#64 } with point := .atPop 1 }
    tableGet t.freq 0x41#8 = 0xFFFFFFFFFFFFFFFF#64 ∧ t.pend = ⟨.counterOverflow, 0x41#32, 1#64⟩ := by decide +kernel

/-- BUILD_TREE accepted, with FREQ of "abcc". -/
def buildingABCC : State := started .buildTree { boot with freq := freqABCC }

/-- V-T1 ("abcc"): node 3 = (0, 1) of weight 2, node 4 = (2, 3) of weight 4; ROOT = 4, NLEAF = 3. -/
theorem test_buildTree_abcc :
    let t := afterExec .buildTree buildingABCC
    nodeGet t.node 3#9 = some ⟨.internal, 0#8, 2#72, 0#9, 1#9, 4#9⟩ ∧
    nodeGet t.node 4#9 = some ⟨.internal, 0#8, 4#72, 2#9, 3#9, 0x1FF#9⟩ ∧
    t.root = 4#9 ∧ t.nLeaf = 3#9 := by decide +kernel

/-- V-T9: two counters of 2^64 − 1 make a root of weight 0x1_FFFF_FFFF_FFFF_FFFE. -/
theorem test_buildTree_largest :
    let t := afterExec .buildTree (started .buildTree { boot with
      freq := tableSet (tableSet boot.freq 0#8 0xFFFFFFFFFFFFFFFF#64) 1#8 0xFFFFFFFFFFFFFFFF#64 })
    t.root = 2#9 ∧ weightOf t.node 2#9 = 0x1FFFFFFFFFFFFFFFE#72 ∧ t.statusWord = 0x00003102#32 := by decide +kernel

/-- V-T2 and V-C1: on the tree of "abracadabra", 'b' is 110 (CODE_WORD 3) and 'c' is 100 (CODE_WORD 1). -/
theorem test_buildCodes_abracadabra :
    let t := afterExec .buildCodes (started .buildCodes { boot with
      treeValid := true, root := 8#9, nLeaf := 5#9
      node := arena [
        ⟨.leaf, 0x61#8, 5#72, 0x1FF#9, 0x1FF#9, 8#9⟩, ⟨.leaf, 0x62#8, 2#72, 0x1FF#9, 0x1FF#9, 6#9⟩,
        ⟨.leaf, 0x63#8, 1#72, 0x1FF#9, 0x1FF#9, 5#9⟩, ⟨.leaf, 0x64#8, 1#72, 0x1FF#9, 0x1FF#9, 5#9⟩,
        ⟨.leaf, 0x72#8, 2#72, 0x1FF#9, 0x1FF#9, 6#9⟩, ⟨.internal, 0#8, 2#72, 2#9, 3#9, 7#9⟩,
        ⟨.internal, 0#8, 4#72, 1#9, 4#9, 7#9⟩, ⟨.internal, 0#8, 6#72, 5#9, 6#9, 8#9⟩,
        ⟨.internal, 0#8, 11#72, 0#9, 7#9, 0x1FF#9⟩] })
    tableGet t.code 0x62#8 = ⟨true, 3#8, 3#256⟩ ∧ tableGet t.code 0x63#8 = ⟨true, 3#8, 1#256⟩ ∧
    tableGet t.code 0x00#8 = ⟨false, 0#8, 0#256⟩ ∧ t.statusWord = 0x00004302#32 := by decide +kernel

/-- L1-7: the only code of "aaaa" is "0". -/
theorem test_buildCodes_one :
    let t := afterExec .buildCodes (started .buildCodes { coderA with code := boot.code })
    tableGet t.code 0x61#8 = ⟨true, 1#8, 0#256⟩ ∧ tableGet t.code 0x62#8 = ⟨false, 0#8, 0#256⟩ := by decide +kernel

/-- V-P2: after the bits 0110111 the bit 0 pushes 6E. -/
theorem test_compress_pushes :
    let t := afterExec .compress { started .compress { coderAB with acc := 0x37#8, k := 7, nbits := 7#64 } with
      point := .atCode 3 0x61#8 0 }
    t.outSlot = some 0x6E#8 ∧ t.k = 0 ∧ t.nbits = 8#64 := by decide +kernel

/-- V-P2: the last bits 1101110 are pushed as DC. -/
theorem test_compress_pads :
    let t := afterExec .compress { started .compress { coderAB with acc := 0x6E#8, k := 7 } with point := .atPop 0 }
    t.outSlot = some 0xDC#8 ∧ t.point = .atEnd := by decide +kernel

/-- V-U1: the second bit of 40 is a 1 and pushes 'b'. -/
theorem test_decompress_right :
    let t := afterExec .decompress { started .decompress { coderAB with bitCnt := 2#64, cur := 2#9 } with
      point := .atBit 0 0x40#8 1 }
    t.outSlot = some 0x62#8 ∧ t.cur = 2#9 ∧ t.unpackOut = 1#64 := by decide +kernel

/-- V-U5: on the tree of "aaaa" a 1 bit is STREAM_CORRUPTION at node 1, bit 2. -/
theorem test_decompress_corrupt :
    let t := afterExec .decompress { started .decompress { coderA with bitCnt := 4#64, cur := 1#9 } with
      point := .atBit 0 0x20#8 2 }
    t.pend = ⟨.streamCorruption, 1#32, 2#64⟩ ∧ t.outSlot = none := by decide +kernel

/-- The illegal words' table: 0x80000003 gives STATUS = 0x00003066. -/
theorem test_illegal_word :
    let t := after (idleAt (.write 0x04#8 0x80000003#32))
    t.statusWord = 0x00003066#32 ∧ t.errInfo = 0x80000003#32 := by decide +kernel

/-- V-S4: ACK turns STATUS 0x00006346 into 0x00006300 and keeps ERRINFO. -/
theorem test_ack :
    let s := { coderA with done := true, err := true, errCode := .streamCorruption, lastOp := 6#4, errInfo := 1#32
                           script := [.write 0x0C#8 1#32] }
    s.statusWord = 0x00006346#32 ∧ (after s).statusWord = 0x00006300#32 ∧ (after s).errInfo = 1#32 := by
  decide +kernel

/-- R86: a byte offered while another waits is taken after it. -/
theorem test_offer_joins_behind :
    (after { boot with inQ := [0x61#8], script := [.offer 0x62#8] }).inQ = [0x61#8, 0x62#8] := by decide +kernel

/-- V-S1 and V-S3: after RESET_INIT, NODE_LINK0 reads 0x01FF01FF, and an unaligned offset reads its word. -/
theorem test_reads_after_reset :
    (after (idleAt (.read 0x50#8))).reads = [0x01FF01FF#32] ∧
    (after { coderAB with script := [.read 0x0B#8], done := true, lastOp := 4#4 }).reads = [0x00004302#32] := by
  decide +kernel

/-! ### Concrete trees and invariants -/

theorem nodeIs_of {t : Vector Node 511} {i : Nat} {P : Node → Prop} (n : Node) (h : t[i]? = some n) (hp : P n) :
    NodeIs t i P := ⟨n, h, hp⟩

theorem nodesAB_0 : nodesAB[0]? = some ⟨.leaf, 0x61#8, 1#72, 0x1FF#9, 0x1FF#9, 2#9⟩ := by decide +kernel
theorem nodesAB_1 : nodesAB[1]? = some ⟨.leaf, 0x62#8, 1#72, 0x1FF#9, 0x1FF#9, 2#9⟩ := by decide +kernel
theorem nodesAB_2 : nodesAB[2]? = some ⟨.internal, 0#8, 2#72, 0#9, 1#9, 0x1FF#9⟩ := by decide +kernel
theorem nodesA_0 : nodesA[0]? = some ⟨.leaf, 0x61#8, 4#72, 0x1FF#9, 0x1FF#9, 1#9⟩ := by decide +kernel
theorem nodesA_1 : nodesA[1]? = some ⟨.internal, 0#8, 4#72, 0#9, 0x1FF#9, 0x1FF#9⟩ := by decide +kernel

/-- The tree of "ab" (P1) is a tree of two leaves. -/
theorem witness_TreeOk_two : TreeOk nodesAB 2#9 2 where
  count := by decide
  rootIs := by decide
  leaves := by
    intro i hi
    obtain rfl | rfl : i = 0 ∨ i = 1 := by omega
    · exact ⟨_, nodesAB_0, by decide⟩
    · exact ⟨_, nodesAB_1, by decide⟩
  ascending := by
    intro i j hij hj a b ha hb
    obtain ⟨rfl, rfl⟩ : i = 0 ∧ j = 1 := by omega
    rw [nodesAB_0] at ha; rw [nodesAB_1] at hb
    cases ha; cases hb; decide
  internals := by
    intro i h1 h2
    obtain rfl : i = 2 := by simp at h2; omega
    exact ⟨_, nodesAB_2, by decide⟩
  full := by
    intro _ i h1 h2
    obtain rfl : i = 2 := by simp at h2; omega
    exact ⟨_, nodesAB_2, by decide⟩
  pad := by intro h; cases h
  parents := by
    intro i hi
    obtain rfl | rfl : i = 0 ∨ i = 1 := by simp at hi; omega
    · exact ⟨_, nodesAB_0, by decide, by decide, _, nodesAB_2, .inl rfl⟩
    · exact ⟨_, nodesAB_1, by decide, by decide, _, nodesAB_2, .inr rfl⟩
  children := by
    intro i h1 h2 a ha b c hc
    obtain rfl : i = 2 := by simp at h2; omega
    rw [nodesAB_2] at ha
    cases ha
    cases b
    · have h : nodesAB[0]? = some c := hc
      rw [nodesAB_0] at h; cases h; rfl
    · have h : nodesAB[1]? = some c := hc
      rw [nodesAB_1] at h; cases h; rfl
  top := ⟨_, nodesAB_2, rfl⟩

/-- The tree of "aaaa" (L1-7) is a tree of one leaf. -/
theorem witness_TreeOk_one : TreeOk nodesA 1#9 1 where
  count := by decide
  rootIs := by decide
  leaves := by
    intro i hi
    obtain rfl : i = 0 := by omega
    exact ⟨_, nodesA_0, by decide⟩
  ascending := by intro i j hij hj; omega
  internals := by
    intro i h1 h2
    obtain rfl : i = 1 := by simp at h2; omega
    exact ⟨_, nodesA_1, by decide⟩
  full := by intro h; omega
  pad := fun _ => ⟨_, nodesA_1, rfl⟩
  parents := by
    intro i hi
    obtain rfl : i = 0 := by simp at hi; omega
    exact ⟨_, nodesA_0, by decide, by decide, _, nodesA_1, .inl rfl⟩
  children := by
    intro i h1 h2 a ha b c hc
    obtain rfl : i = 1 := by simp at h2; omega
    rw [nodesA_1] at ha
    cases ha
    cases b
    · have h : nodesA[0]? = some c := hc
      rw [nodesA_0] at h; cases h; rfl
    · have h : nodesA[511]? = some c := hc
      simp at h
  top := ⟨_, nodesA_1, rfl⟩

theorem walk_of_parent {t : Vector Node 511} {root c : NodeIdx} {n p : Node} {fuel : Nat} (hc : nodeGet t c = some n)
    (hr : n.parent = root) (hp : nodeGet t n.parent = some p) (hne : c ≠ root) :
    walkToRoot t root (fuel + 2) c [] = .ok [decide (p.left ≠ c)] := by
  simp [walkToRoot, hc, hr, hne, hr ▸ hp]

/-- P1: BUILD_CODES derives 'a' = "0" and 'b' = "1" from the tree of "ab". -/
theorem codeTable_AB : codeTable nodesAB 2#9 2 = .ok codeAB := by
  have h0 : nodeGet nodesAB 0#9 = _ := nodesAB_0
  have h1 : nodeGet nodesAB 1#9 = _ := nodesAB_1
  have h2 : nodeGet nodesAB 2#9 = _ := nodesAB_2
  have w0 : walkToRoot nodesAB 2#9 255 0#9 [] = .ok [false] := walk_of_parent h0 rfl h2 (by decide)
  have w1 : walkToRoot nodesAB 2#9 255 1#9 [] = .ok [true] := walk_of_parent h1 rfl h2 (by decide)
  have c0 : codeEntry [false] = ⟨true, 1#8, 0#256⟩ := by decide
  have c1 : codeEntry [true] = ⟨true, 1#8, 1#256⟩ := by decide
  simp [codeTable, List.range_succ, addLeafCodes, addLeafCode, h0, h1, w0, w1, c0, c1, codeAB]

/-- L1-7: and 'a' = "0" from the tree of "aaaa". -/
theorem codeTable_A : codeTable nodesA 1#9 1 = .ok codeA := by
  have h0 : nodeGet nodesA 0#9 = _ := nodesA_0
  have h1 : nodeGet nodesA 1#9 = _ := nodesA_1
  have w0 : walkToRoot nodesA 1#9 255 0#9 [] = .ok [false] := walk_of_parent h0 rfl h1 (by decide)
  have c0 : codeEntry [false] = ⟨true, 1#8, 0#256⟩ := by decide
  simp [codeTable, List.range_succ, addLeafCodes, addLeafCode, h0, w0, c0, codeA]

/-- The invariant of an IDLE state with a coder in it that reports nothing. -/
theorem inv_of_idle {s : State} (hq : s.seq = .idle) (hp : s.point = .entry) (hd : s.done = false)
    (he : s.err = false) (hc : s.errCode = .none) (hpe : s.pend = ErrReport.clear) (hct : s.ctValid = true → s.treeValid = true)
    (hnt : s.treeValid = false → s.root = Config.null ∧ s.nLeaf = 0#9) (ho : s.outSlot = none) (hk : s.k < 8)
    (ht : TreeInv s) (hcode : CodeInv s) : Inv s where
  control := {
    busyClean := fun h => absurd hq h
    errIsCode := by rw [he, hc]; rfl
    errNeedsDone := by rw [he]; intro h; cases h
    successClean := by rw [hd]; intro h; cases h
    pendClean := fun _ => hpe
    codesNeedTree := hct
    noTree := hnt
    slotInStream := fun h => absurd ho h
    resetClean := by rw [hq]; intro h; cases h
    accRange := hk
    pointOk := by rw [hq]; exact hp }
  tree := ht
  codes := hcode
  cursor := by intro h; rw [hq] at h; cases h

/-- The invariant holds of a coder with the tree and the codes of "ab". -/
theorem inv_coderAB : Inv coderAB :=
  inv_of_idle rfl rfl rfl rfl rfl rfl (fun _ => rfl) (by intro h; cases h) rfl (by decide)
    (fun _ => witness_TreeOk_two) (fun _ => codeTable_AB)
/-- DECOMPRESS of [40] with BITCNT = 2 on the coder of "ab" (V-U1), about to pop its byte. -/
def unpackingAB : State :=
  { started .decompress coderAB with point := .atPop 0, cur := 2#9, bitCnt := 2#64, inQ := [0x40#8] }

theorem inv_unpackingAB : Inv unpackingAB where
  control := {
    busyClean := fun _ => ⟨rfl, rfl, rfl, rfl, rfl⟩
    errIsCode := rfl
    errNeedsDone := by intro h; cases h
    successClean := by intro h; cases h
    pendClean := fun _ => rfl
    codesNeedTree := fun _ => rfl
    noTree := by intro h; cases h
    slotInStream := fun h => absurd rfl h
    resetClean := by intro h; cases h
    accRange := by decide
    pointOk := .inr (.inl ⟨0, rfl⟩) }
  tree := fun _ => witness_TreeOk_two
  codes := fun _ => codeTable_AB
  cursor := fun _ _ _ => ⟨rfl, by decide, by decide⟩

/-! ### Witnesses: concrete states and operands that meet the hypotheses of the statements

One step -/

theorem witness_StepRunsTheWrittenCommand :
    (idleAt (.write 0x04#8 5#32)).seq = .idle ∧ (idleAt (.write 0x04#8 5#32)).script = [.write 0x04#8 5#32] ∧
    0x04#8 &&& 0xFC#8 = 0x04#8 ∧ 0x07#8 &&& 0xFC#8 = 0x04#8 ∧ decode 5#32 = some .compress :=
  ⟨rfl, rfl, by decide, by decide, by decide⟩

theorem witness_StepRunsTheRunningCommand :
    (started .record boot).seq = .run .record ∧ (started .record boot).script = [] ∧
    (busyAt .engine).seq = .run .record ∧ (busyAt .engine).script = [.engine] :=
  ⟨rfl, rfl, rfl, rfl⟩

theorem witness_AcceptLaunchesTheCommand : boot.seq = .idle := rfl

theorem witness_IllegalWordIsReported :
    (idleAt (.write 0x04#8 0x15#32)).seq = .idle ∧ (idleAt (.write 0x04#8 0x15#32)).script = [.write 0x04#8 0x15#32] ∧
    0x04#8 &&& 0xFC#8 = 0x04#8 ∧ decode 0x15#32 = none :=
  ⟨rfl, rfl, by decide, by decide⟩

/-- One offset for each clause, at the ends of its list. -/
theorem witness_BusyLock :
    (∀ off v, (busyAt (.write off v)).script = [.write off v] ∧ (busyAt (.write off v)).seq ≠ .idle) ∧
    (0x04#8 &&& 0xFC#8 ∈ [0x04#8, 0x14#8, 0x18#8, 0x1C#8, 0x38#8, 0x3C#8, 0x40#8, 0x48#8, 0x64#8, 0x68#8] ∧
      0x6B#8 &&& 0xFC#8 ∈ [0x04#8, 0x14#8, 0x18#8, 0x1C#8, 0x38#8, 0x3C#8, 0x40#8, 0x48#8, 0x64#8, 0x68#8]) ∧
    (0x0C#8 &&& 0xFC#8 = 0x0C#8 ∧ (1#32).getLsbD 0 = true) ∧ 0x10#8 &&& 0xFC#8 = 0x10#8 ∧
    (0x73#8 &&& 0xFC#8 ∈ [0x00#8, 0x08#8, 0x20#8, 0x24#8, 0x28#8, 0x2C#8, 0x30#8, 0x34#8, 0x44#8, 0x4C#8,
        0x50#8, 0x54#8, 0x58#8, 0x5C#8, 0x60#8, 0x6C#8, 0x70#8] ∧ 0x74 ≤ (0x74#8 : BitVec 8).toNat) :=
  ⟨fun _ _ => ⟨rfl, (fun h => by cases h)⟩, by decide, by decide, by decide, by decide⟩

/-- ACK with bit 0 = 1 and with bit 0 = 0; a busy state that meets `ControlInv`; a read of ACK. -/
theorem witness_AckClearsTheReport :
    (idleAt (.write 0x0C#8 1#32)).script = [.write 0x0C#8 1#32] ∧ (1#32).getLsbD 0 = true ∧
    (2#32).getLsbD 0 = false ∧ 0x0F#8 &&& 0xFC#8 = 0x0C#8 ∧
    (ControlInv unpackingAB ∧ unpackingAB.seq ≠ .idle) ∧ (idleAt (.read 0x0C#8)).script = [.read 0x0C#8] :=
  ⟨rfl, by decide, by decide, by decide, ⟨inv_unpackingAB.control, (fun h => by cases h)⟩, rfl⟩

theorem witness_IdleWritesStore :
    (∀ off v, (idleAt (.write off v)).script = [.write off v] ∧ (idleAt (.write off v)).seq = .idle) ∧
    0x14#8 &&& 0xFC#8 = 0x14#8 ∧ 0x1B#8 &&& 0xFC#8 = 0x18#8 ∧ 0x1C#8 &&& 0xFC#8 = 0x1C#8 ∧
    0x38#8 &&& 0xFC#8 = 0x38#8 ∧ 0x48#8 &&& 0xFC#8 = 0x48#8 ∧ 0x64#8 &&& 0xFC#8 = 0x64#8 ∧
    0x6B#8 &&& 0xFC#8 = 0x68#8 :=
  ⟨fun _ _ => ⟨rfl, rfl⟩, by decide⟩

theorem witness_FrequencyWindowWrites :
    (idleAt (.write 0x3C#8 5#32)).script = [.write 0x3C#8 5#32] ∧ (idleAt (.write 0x3C#8 5#32)).seq = .idle ∧
    0x3C#8 &&& 0xFC#8 = 0x3C#8 ∧ 0x43#8 &&& 0xFC#8 = 0x40#8 ∧ (1#8 : Byte) ≠ (idleAt (.write 0x3C#8 5#32)).freqIdx :=
  ⟨rfl, rfl, by decide, by decide, by decide⟩

/-- Every offset of the statement's clauses, the last two at the ends of the reserved range. -/
theorem witness_IdleReadsOfRegisters :
    (∀ off, (idleAt (.read off)).script = [.read off] ∧ (idleAt (.read off)).seq = .idle) ∧
    (∀ c ∈ [0x00#8, 0x04#8, 0x0C#8, 0x10#8, 0x14#8, 0x18#8, 0x1C#8, 0x20#8, 0x24#8, 0x28#8, 0x2C#8, 0x30#8,
      0x34#8, 0x38#8, 0x3C#8, 0x40#8, 0x48#8, 0x64#8, 0x68#8], c &&& 0xFC#8 = c ∧ (c + 3#8) &&& 0xFC#8 = c) ∧
    0x74 ≤ (0x74#8 : BitVec 8).toNat ∧ 0x74 ≤ (0xFF#8 : BitVec 8).toNat :=
  ⟨fun _ => ⟨rfl, rfl⟩, by decide, by decide, by decide⟩

theorem witness_StatusWordFields :
    (idleAt (.read 0x08#8)).script = [.read 0x08#8] ∧ (idleAt (.read 0x08#8)).seq = .idle ∧
    0x0B#8 &&& 0xFC#8 = 0x08#8 := ⟨rfl, rfl, by decide⟩

/-- A live leaf (node 0), a live internal node (ROOT itself), a node above ROOT, and no tree. -/
theorem witness_TreeWindowReads :
    (∀ off, (idleAt (.read off)).script = [.read off] ∧ (idleAt (.read off)).seq = .idle ∧
      (idleAt (.read off)).treeValid = false) ∧
    (∀ c ∈ [0x44#8, 0x4C#8, 0x50#8, 0x54#8, 0x58#8, 0x5C#8, 0x60#8], c &&& 0xFC#8 = c) ∧
    (coderAB.treeValid = true ∧ coderAB.nodeIdx.toNat ≤ coderAB.root.toNat ∧
      ∃ n, coderAB.node[coderAB.nodeIdx.toNat]? = some n ∧ n.kind = .leaf) ∧
    (({ coderAB with nodeIdx := 2#9 }).nodeIdx.toNat ≤ coderAB.root.toNat ∧
      ∃ n, coderAB.node[(2#9).toNat]? = some n ∧ n.kind = .internal) ∧
    coderAB.root.toNat < (3#9).toNat :=
  ⟨fun _ => ⟨rfl, rfl, rfl⟩, by decide, ⟨rfl, by decide, _, nodesAB_0, rfl⟩, ⟨by decide, _, nodesAB_2, rfl⟩, by decide⟩

theorem witness_CodeWindowReads :
    let s : State := { coderAB with codeIdx := 0x61#8, script := [.read 0x6C#8] }
    s.script = [.read 0x6C#8] ∧ s.seq = .idle ∧ (0x6F#8 &&& 0xFC#8 = 0x6C#8 ∧ 0x70#8 &&& 0xFC#8 = 0x70#8) ∧
    s.ctValid = true ∧ (tableGet s.code s.codeIdx).present = true ∧
    (tableGet coderAB.code 0x63#8).present = false ∧ boot.ctValid = false := by decide +kernel

/-- One offset at each end of each list, and both strobes in one cycle. -/
theorem witness_BusyReadsAreDraws :
    (∀ off, (busyAt (.read off)).script = [.read off] ∧ (busyAt (.read off)).seq ≠ .idle) ∧
    (0x18#8 &&& 0xFC#8 ∈ [0x18#8, 0x1C#8, 0x20#8, 0x24#8, 0x34#8, 0x3C#8, 0x40#8, 0x44#8, 0x4C#8, 0x50#8,
        0x54#8, 0x58#8, 0x5C#8, 0x60#8, 0x6C#8, 0x70#8] ∧
      0x73#8 &&& 0xFC#8 ∈ [0x18#8, 0x1C#8, 0x20#8, 0x24#8, 0x34#8, 0x3C#8, 0x40#8, 0x44#8, 0x4C#8, 0x50#8,
        0x54#8, 0x58#8, 0x5C#8, 0x60#8, 0x6C#8, 0x70#8]) ∧
    0x08#8 &&& 0xFC#8 = 0x08#8 ∧
    0x6B#8 &&& 0xFC#8 ∈ [0x00#8, 0x04#8, 0x0C#8, 0x10#8, 0x14#8, 0x28#8, 0x2C#8, 0x30#8, 0x38#8, 0x48#8,
        0x64#8, 0x68#8] ∧ 0x74 ≤ (0x74#8 : BitVec 8).toNat ∧
    (idleAt (.writeRead 0x04#8 1#32)).script = [.writeRead 0x04#8 1#32] :=
  ⟨fun _ => ⟨rfl, (fun h => by cases h)⟩, by decide, by decide, by decide, by decide, rfl⟩

/-! Reset, interrupt and streams -/

theorem witness_ResetAbandonsTheCommand : (busyAt .reset).script = [.reset] ∧ (busyAt .reset).seq ≠ .idle :=
  ⟨rfl, (fun h => by cases h)⟩

/-- An empty script, and an engine turn with a host event after it. -/
theorem witness_ResetInitClearsTheMemories :
    (State.reset.seq = .resetInit ∧ State.reset.script = []) ∧
    (let s : State := { State.reset with script := [.engine, .read 0x08#8] };
      s.seq = .resetInit ∧ s.script = [.engine, .read 0x08#8]) := ⟨⟨rfl, rfl⟩, rfl, rfl⟩

/-- INIT ends in one engine step; RECORD at its entry does not end; a busy state that meets `ControlInv`; an
offset for each clause about a write, and an IDLE and a busy state with one coming. -/
theorem witness_FinishReportsAndRaisesIrq :
    (∃ t, (started .init boot).seq = .run .init ∧ exec .init (started .init boot) = .next t ∧ t.seq = .idle) ∧
    (∃ t, (started .record boot).seq = .run .record ∧ exec .record (started .record boot) = .next t ∧ t.seq ≠ .idle) ∧
    (ControlInv unpackingAB ∧ unpackingAB.seq ≠ .idle) ∧ boot.seq = .idle ∧
    (∀ off v, (idleAt (.write off v)).script = [.write off v] ∧ (idleAt (.write off v)).seq = .idle ∧
      (busyAt (.write off v)).script = [.write off v] ∧ (busyAt (.write off v)).seq ≠ .idle) ∧
    (0x0C#8 &&& 0xFC#8 = 0x0C#8 ∧ (1#32).getLsbD 0 = true) ∧ 0x10#8 &&& 0xFC#8 = 0x10#8 ∧
    (0x04#8 &&& 0xFC#8 = 0x04#8 ∧ decode 0x10#32 = none) ∧
    0x6B#8 &&& 0xFC#8 ∈ [0x04#8, 0x14#8, 0x18#8, 0x1C#8, 0x38#8, 0x3C#8, 0x40#8, 0x48#8, 0x64#8, 0x68#8] :=
  ⟨⟨_, rfl, rfl, rfl⟩, ⟨_, rfl, rfl, (fun h => by cases h)⟩, ⟨inv_unpackingAB.control, (fun h => by cases h)⟩, rfl,
   fun _ _ => ⟨rfl, rfl, rfl, (fun h => by cases h)⟩, by decide, by decide, by decide, by decide⟩

/-- A byte comes, in an IDLE and in a busy state; a byte is offered and taken; none is offered. -/
theorem witness_InPopTakesTheOldestByte :
    ((idleAt (.offer 7#8)).script = [.offer 7#8] ∧ (busyAt (.offer 7#8)).script = [.offer 7#8]) ∧
    (∃ t, unpackingAB.seq = .run .decompress ∧ exec .decompress unpackingAB = .next t ∧
      t.inQ ≠ unpackingAB.inQ ∧ unpackingAB.inReady = true) ∧
    (let s := { unpackingAB with inQ := [] }; s.inReady = true ∧ s.inQ = [] ∧ exec .decompress s = .next s) :=
  ⟨⟨rfl, rfl⟩, ⟨_, rfl, rfl, by decide, by decide⟩, by decide, rfl, rfl⟩

/-- A full slot; a step that fills it; the host's `take`. -/
theorem witness_OutPushHoldsUntilTaken :
    ({ unpackingAB with outSlot := some 7#8 }).seq = .run .decompress ∧
    (let s := { unpackingAB with point := .atBit 0 0x40#8 1 };
      exec .decompress s = .next (afterExec .decompress s) ∧ (afterExec .decompress s).outSlot ≠ s.outSlot) ∧
    (∃ s : State, s.script = [.take] ∧ s.outSlot = some 7#8) :=
  ⟨rfl, ⟨exec_afterExec (by decide +kernel), by decide +kernel⟩, { unpackingAB with outSlot := some 7#8, script := [.take] }, rfl, rfl⟩

/-! The commands -/

theorem witness_InitClearsTheCoder :
    Running .init (started .init coderAB) ∧ (started .init coderAB).pend = ⟨.none, 0#32, 0#64⟩ := ⟨⟨rfl, rfl⟩, rfl⟩

/-- RECORD about to pop byte 0 of one: its counter at 0, at 2^64 − 1, and after an error. -/
theorem witness_RecordCountsOneByte :
    let s : State := { started .record boot with len := 1#32, inQ := [0x61#8], point := .atPop 0 }
    Running .record s ∧ s.point = .atPop 0 ∧ 0 < s.len.toNat ∧ s.inQ = [0x61#8] ∧ s.pend.code = .none ∧
    (tableGet s.freq 0x61#8).toNat < 2 ^ 64 - 1 ∧
    (tableGet (tableSet s.freq 0x61#8 Config.maxCount) 0x61#8).toNat = 2 ^ 64 - 1 ∧
    ({ s with pend := ⟨.counterOverflow, 0#32, 0#64⟩ } : State).pend.code ≠ .none := by
  refine ⟨⟨rfl, rfl⟩, rfl, by decide, rfl, rfl, by decide +kernel, ?_, by decide⟩
  rw [tableGet_tableSet_same]; decide

theorem witness_RecordStartsAndEnds :
    Running .record (started .record boot) ∧ (started .record boot).point = .entry ∧
    (let s : State := { started .record boot with point := .atPop 0 };
      Running .record s ∧ s.len.toNat ≤ 0 ∧ s.pend = ⟨.none, 0#32, 0#64⟩) ∧
    (let s : State := { started .record boot with point := .atPop 0, pend := ⟨.counterOverflow, 0x41#32, 1#64⟩ };
      Running .record s ∧ ErrorCode.counterOverflow ≠ .none ∧ s.pend = ⟨.counterOverflow, 0x41#32, 1#64⟩) :=
  ⟨⟨rfl, rfl⟩, rfl, ⟨⟨rfl, rfl⟩, by decide, rfl⟩, ⟨rfl, rfl⟩, by decide, rfl⟩

theorem witness_RecordCountsTheMessage :
    let m : List Byte := [0x61#8, 0x61#8]
    let s : State := { boot with script := hostCmd .record, inQ := m ++ [0x7A#8], len := 2#32 }
    s.seq = .idle ∧ s.outSlot = none ∧ s.script = hostCmd .record ∧ s.inQ = m ++ [0x7A#8] ∧
    s.len.toNat = m.length ∧ (∀ b, (tableGet s.freq b).toNat + m.count b < 2 ^ 64) := by
  refine ⟨rfl, rfl, rfl, rfl, rfl, fun b => ?_⟩
  have h : tableGet boot.freq b = 0#64 := tableGet_replicate _ _
  have hc : [0x61#8, 0x61#8].count b ≤ 2 := List.count_le_length
  show (tableGet boot.freq b).toNat + _ < _
  rw [h]
  simp only [BitVec.toNat_ofNat]
  omega

theorem witness_PqInsertKeepsOrder :
    [1#9, 2#9].Pairwise (fun a b => (weightOf nodesAB a).toNat ≤ (weightOf nodesAB b).toNat) := by decide +kernel

/-- A queue with an entry; an empty one without and with an error; and a merge of leaves 0 and 1 into node 2. -/
theorem witness_PqExtractTakesTheFirst :
    (∃ b c d : Builder, b.pq = 0#9 :: [] ∧ (c.pq = [] ∧ c.pend.code = .none) ∧ (d.pq = [] ∧ d.pend.code ≠ .none)) ∧
    ∃ (b : Builder) (nx ny : Node), b.pq = 0#9 :: 1#9 :: [] ∧ b.pend.code = .none ∧
      b.node[(0#9).toNat]? = some nx ∧ b.node[(1#9).toNat]? = some ny ∧ (2#9 : NodeIdx) ≠ 0x1FF#9 ∧
      (0#9 : NodeIdx) ≠ 1#9 ∧ (0#9 : NodeIdx) ≠ 2#9 ∧ (1#9 : NodeIdx) ≠ 2#9 :=
  ⟨⟨⟨nodesAB, [0#9], ErrReport.clear, 1⟩, ⟨nodesAB, [], ErrReport.clear, 1⟩,
   ⟨nodesAB, [], ⟨.emptyQueue, 0#32, 0#64⟩, 1⟩, rfl, ⟨rfl, rfl⟩, rfl, by decide⟩,
   ⟨nodesAB, [0#9, 1#9], ErrReport.clear, 2⟩, _, _, rfl, rfl, nodesAB_0, nodesAB_1, by decide⟩

theorem witness_BuildTreeOfNothing :
    Running .buildTree (started .buildTree boot) ∧ (started .buildTree boot).pend = ⟨.none, 0#32, 0#64⟩ ∧
    ∀ b, tableGet (started .buildTree boot).freq b = 0#64 :=
  ⟨⟨rfl, rfl⟩, rfl, fun b => tableGet_replicate _ b⟩

theorem witness_BuildTreeOfOneSymbol :
    let s := started .buildTree { boot with freq := freqA }
    Running .buildTree s ∧ s.pend = ⟨.none, 0#32, 0#64⟩ ∧ ∀ c, tableGet s.freq c ≠ 0#64 ↔ c = 0x61#8 := by
  refine ⟨⟨rfl, rfl⟩, rfl, fun c => ?_⟩
  show tableGet freqA c ≠ 0#64 ↔ c = 0x61#8
  unfold freqA
  rw [tableGet_tableSet]
  split
  · next h => simp [h]
  · next h => simp [h]

/-- BUILD_TREE accepted, with FREQ of "ab". -/
def buildingAB : State := started .buildTree { boot with freq := freqAB }

/-- The same FREQ, with different old NODE and PQ contents. -/
def rebuildingAB : State := { buildingAB with node := nodesA, pq := [5#9] }

theorem nDistinct_AB : nDistinct freqAB = 2 := by decide +kernel

theorem exec_buildTree_running {s : State} (h : Running .buildTree s) :
    exec .buildTree s = .next (finish (buildTreeBody s)) := by
  rw [exec_eq_runCommand]
  exact runCommand_rule h.1 h.2

/-- P1: BUILD_TREE over "ab" makes ROOT = 2 and leaf 0 for 'a'. -/
theorem test_buildTree_ab :
    (finish (buildTreeBody buildingAB)).root = 2#9 ∧
    nodeGet (finish (buildTreeBody buildingAB)).node 0#9 = some ⟨.leaf, 0x61#8, 1#72, 0x1FF#9, 0x1FF#9, 2#9⟩ := by
  decide +kernel

/-- BUILD_TREE over "ab": the hypotheses of the statements about its result. -/
theorem witness_BuildTreeSucceeds :
    Running .buildTree buildingAB ∧ buildingAB.pend = ⟨.none, 0#32, 0#64⟩ ∧ 1 ≤ nDistinct buildingAB.freq := by
  refine ⟨⟨rfl, rfl⟩, rfl, ?_⟩
  rw [show buildingAB.freq = freqAB from rfl, nDistinct_AB]
  decide

/-- Leaf 1 of the tree of "ab" is 'b'. -/
theorem witness_BuildTreeLeaves :
    exec .buildTree buildingAB = .next (finish (buildTreeBody buildingAB)) ∧
    (allBytes.filter (fun c => decide (tableGet buildingAB.freq c ≠ 0#64)))[1]? = some 0x62#8 :=
  ⟨exec_buildTree_running witness_BuildTreeSucceeds.1, by decide +kernel⟩

theorem witness_BuildTreeShape : exec .buildTree buildingAB = .next (finish (buildTreeBody buildingAB)) ∧
    Running .buildTree buildingAB ∧ buildingAB.pend = ⟨.none, 0#32, 0#64⟩ ∧ 1 ≤ nDistinct buildingAB.freq :=
  ⟨exec_buildTree_running witness_BuildTreeSucceeds.1, witness_BuildTreeSucceeds⟩

/-- Two symbols, and node 2 is the one internal node. -/
theorem witness_BuildTreeWeights : exec .buildTree buildingAB = .next (finish (buildTreeBody buildingAB)) ∧
    2 ≤ nDistinct buildingAB.freq ∧ nDistinct buildingAB.freq ≤ 2 ∧ 2 ≤ (finish (buildTreeBody buildingAB)).root.toNat := by
  rw [show buildingAB.freq = freqAB from rfl, nDistinct_AB, test_buildTree_ab.1]
  exact ⟨exec_buildTree_running witness_BuildTreeSucceeds.1, by decide, by decide, by decide⟩

/-- Three symbols, where node 3 has a next internal node (V-T1). -/
theorem witness_BuildTreeWeights_next : Running .buildTree buildingABCC ∧
    buildingABCC.pend = ⟨.none, 0#32, 0#64⟩ ∧
    exec .buildTree buildingABCC = .next (afterExec .buildTree buildingABCC) ∧
    nDistinct buildingABCC.freq = 3 ∧ 3 < (afterExec .buildTree buildingABCC).root.toNat := by
  have h : exec .buildTree buildingABCC = .next (afterExec .buildTree buildingABCC) := by
    unfold afterExec
    rw [exec_buildTree_running ⟨rfl, rfl⟩]
  refine ⟨⟨rfl, rfl⟩, rfl, h, by decide +kernel, ?_⟩
  rw [test_buildTree_abcc.2.2.1]
  decide

/-- Two states with the same FREQ and different old NODE and PQ contents. -/
theorem witness_BuildTreeDependsOnFreqOnly :
    Running .buildTree buildingAB ∧ Running .buildTree rebuildingAB ∧ buildingAB.pend = ⟨.none, 0#32, 0#64⟩ ∧
    rebuildingAB.pend = ⟨.none, 0#32, 0#64⟩ ∧ buildingAB.freq = rebuildingAB.freq ∧
    1 ≤ nDistinct buildingAB.freq ∧
    exec .buildTree buildingAB = .next (finish (buildTreeBody buildingAB)) ∧
    exec .buildTree rebuildingAB = .next (finish (buildTreeBody rebuildingAB)) :=
  ⟨⟨rfl, rfl⟩, ⟨rfl, rfl⟩, rfl, rfl, rfl, witness_BuildTreeSucceeds.2.2,
   exec_buildTree_running ⟨rfl, rfl⟩, exec_buildTree_running ⟨rfl, rfl⟩⟩

theorem witness_NotReadyIsReported :
    (Running .buildCodes (started .buildCodes boot) ∧ (started .buildCodes boot).treeValid = false) ∧
    (Running .compress (started .compress boot) ∧ (started .compress boot).ctValid = false) ∧
    (Running .decompress (started .decompress boot) ∧ (started .decompress boot).treeValid = false) ∧
    ∀ i, (started i boot).pend = ⟨.none, 0#32, 0#64⟩ ∧ (started i boot).point = .entry :=
  ⟨⟨⟨rfl, rfl⟩, rfl⟩, ⟨⟨rfl, rfl⟩, rfl⟩, ⟨⟨rfl, rfl⟩, rfl⟩, fun _ => ⟨rfl, rfl⟩⟩

/-- The tree of "ab", its leaf 1, and a byte that is no leaf's value. -/
theorem witness_BuildCodesWritesThePaths :
    let s := started .buildCodes coderAB
    Running .buildCodes s ∧ s.pend = ⟨.none, 0#32, 0#64⟩ ∧ s.treeValid = true ∧
    TreeOk s.node s.root s.nLeaf.toNat ∧ (1 < s.nLeaf.toNat ∧ ∃ n, s.node[1]? = some n) ∧
    (∀ k n, k < s.nLeaf.toNat → s.node[k]? = some n → n.value ≠ 0x63#8) := by
  refine ⟨⟨rfl, rfl⟩, rfl, rfl, witness_TreeOk_two, ⟨by decide, _, nodesAB_1⟩, ?_⟩
  intro k n hk hn
  replace hk : k < 2 := hk
  obtain rfl | rfl : k = 0 ∨ k = 1 := by omega
  · have h : nodesAB[0]? = some n := hn
    rw [nodesAB_0] at h; cases h; decide
  · have h : nodesAB[1]? = some n := hn
    rw [nodesAB_1] at h; cases h; decide

theorem witness_CodeLengths :
    (TreeOk nodesAB 2#9 2 ∧ codeTable nodesAB 2#9 2 = .ok codeAB ∧ (tableGet codeAB 0x62#8).present = true) ∧
    (TreeOk nodesA 1#9 1 ∧ codeTable nodesA 1#9 1 = .ok codeA ∧ (tableGet codeA 0x61#8).present = true) :=
  ⟨⟨witness_TreeOk_two, codeTable_AB, by decide +kernel⟩, witness_TreeOk_one, codeTable_A, by decide +kernel⟩

theorem witness_CodesArePrefixFree :
    TreeOk nodesAB 2#9 2 ∧ codeTable nodesAB 2#9 2 = .ok codeAB ∧ (0x61#8 : Byte) ≠ 0x62#8 ∧
    (tableGet codeAB 0x61#8).present = true ∧ (tableGet codeAB 0x62#8).present = true :=
  ⟨witness_TreeOk_two, codeTable_AB, by decide, by decide +kernel, by decide +kernel⟩

/-- COMPRESS about to pop 'a' (present) or 'c' (absent), and after an error. -/
theorem witness_CompressTakesOneByte :
    let s : State := { started .compress coderAB with len := 1#32, inQ := [0x61#8], point := .atPop 0 }
    Running .compress s ∧ s.point = .atPop 0 ∧ 0 < s.len.toNat ∧ s.inQ = [0x61#8] ∧ s.pend.code = .none ∧
    (tableGet s.code 0x61#8).present = true ∧ (tableGet s.code 0x63#8).present = false ∧
    ({ s with pend := ⟨.unknownSymbol, 0#32, 0#64⟩ } : State).pend.code ≠ .none :=
  ⟨⟨rfl, rfl⟩, rfl, by decide, rfl, rfl, by decide +kernel, by decide +kernel, by decide⟩

/-- The only code character of 'b', with an empty and with an almost full accumulator; the end of the code. -/
theorem witness_CompressPacksOneBit :
    let s : State := { started .compress coderAB with point := .atCode 0 0x62#8 0 }
    Running .compress s ∧ s.point = .atCode 0 0x62#8 0 ∧ 0 < (tableGet s.code 0x62#8).len.toNat ∧ s.k < 7 ∧
    ({ s with k := 7 } : State).k = 7 ∧
    (({ s with point := .atCode 0 0x62#8 1 } : State).point = .atCode 0 0x62#8 1 ∧
      (tableGet s.code 0x62#8).len.toNat ≤ 1) :=
  ⟨⟨rfl, rfl⟩, rfl, by decide +kernel, by decide, rfl, rfl, by decide +kernel⟩

/-- After the last byte: 1 bit, 7 bits, none, and an error. -/
theorem witness_CompressFinalByte :
    let s (k : Nat) : State := { started .compress coderAB with point := .atPop 0, k := k }
    Running .compress (s 1) ∧ (s 1).point = .atPop 0 ∧ (s 1).len.toNat ≤ 0 ∧ (s 1).pend.code = .none ∧
    (1 ≤ (s 1).k ∧ (s 7).k ≤ 7) ∧ (s 0).k = 0 ∧
    ({ s 1 with pend := ⟨.unknownSymbol, 0#32, 0#64⟩ } : State).pend.code ≠ .none :=
  ⟨⟨rfl, rfl⟩, rfl, by decide, rfl, by decide, rfl, by decide⟩

theorem witness_CompressStartsAndEnds :
    (Running .compress (started .compress coderAB) ∧ (started .compress coderAB).point = .entry ∧
      (started .compress coderAB).ctValid = true) ∧
    (let s : State := { started .compress coderAB with point := .atEnd };
      Running .compress s ∧ s.pend = ⟨.none, 0#32, 0#64⟩) ∧
    (let s : State := { started .compress coderAB with point := .atEnd, pend := ⟨.unknownSymbol, 0x63#32, 2#64⟩ };
      Running .compress s ∧ ErrorCode.unknownSymbol ≠ .none ∧ s.pend = ⟨.unknownSymbol, 0x63#32, 2#64⟩) :=
  ⟨⟨⟨rfl, rfl⟩, rfl, rfl⟩, ⟨⟨rfl, rfl⟩, rfl⟩, ⟨rfl, rfl⟩, by decide, rfl⟩

/-- COMPRESS of "ab" (V-P1), with a further byte on IN. -/
theorem witness_CompressPacksTheMessage :
    let m : List Byte := [0x61#8, 0x62#8]
    let s : State := { coderAB with inQ := m ++ [0x63#8], len := 2#32
                                    script := hostCmd .compress ++ hostDrain (2 * m.length + (logicalBits codeAB m).length + 3) }
    s.seq = .idle ∧ s.outSlot = none ∧ s.ctValid = true ∧ s.inQ = m ++ [0x63#8] ∧ s.len.toNat = m.length ∧
    (∀ b ∈ m, (tableGet s.code b).present = true) ∧
    s.script = hostCmd .compress ++ hostDrain (2 * m.length + (logicalBits s.code m).length + 3) :=
  ⟨rfl, rfl, rfl, rfl, rfl, by decide +kernel, rfl⟩

/-- Bit 0 of [40] on the tree of "ab": it is decoded; it lies beyond BITCNT; after an error, with the cursor at
NULL, and at bit 7; at a leaf; on the tree of "aaaa" a 1 bit finds no child; and on the tree of "abcc" (V-T1) a 1 bit finds an internal one. -/
theorem witness_DecompressDecodesOneBit :
    let s : State := { unpackingAB with point := .atBit 0 0x40#8 0 }
    (Running .decompress s ∧ s.point = .atBit 0 0x40#8 0 ∧ s.pend.code = .none ∧ 8 * 0 + 0 < s.bitCnt.toNat ∧
      (∃ n, s.node[s.cur.toNat]? = some n ∧ n.kind = .internal ∧
        ∃ d, s.node[(if (0x40#8 : Byte).getLsbD (7 - 0) then n.right else n.left).toNat]? = some d ∧ d.kind = .leaf)) ∧
    ({ s with bitCnt := 0#64 } : State).bitCnt.toNat ≤ 8 * 0 + 0 ∧
    (let d : State := { started .decompress boot with
        point := .atBit 0 0x40#8 7, cur := 0x1FF#9, pend := ⟨.notReady, 0#32, 0#64⟩ };
      Running .decompress d ∧ d.point = .atBit 0 0x40#8 7 ∧ d.pend.code ≠ .none ∧ d.node[d.cur.toNat]? = none) ∧
    (∃ n, s.node[(1#9).toNat]? = some n ∧ n.kind = .leaf) ∧
    (∃ n, coderA.node[(1#9).toNat]? = some n ∧ n.kind = .internal ∧
      (if (0x80#8 : Byte).getLsbD (7 - 0) then n.right else n.left) = 0x1FF#9) ∧
    (∃ (t : Vector Node 511) (n d : Node), t[(4#9).toNat]? = some n ∧ n.kind = .internal ∧
      t[(if (0x80#8 : Byte).getLsbD (7 - 0) then n.right else n.left).toNat]? = some d ∧ d.kind = .internal) := by
  refine ⟨⟨⟨rfl, rfl⟩, rfl, rfl, by decide, _, nodesAB_2, rfl, _, nodesAB_0, rfl⟩, by decide,
    ⟨⟨rfl, rfl⟩, rfl, by decide, nodeGet_null _⟩, ⟨_, nodesAB_1, rfl⟩, ⟨_, nodesA_1, rfl, rfl⟩, ?_⟩
  exact ⟨arena (List.replicate 3 Node.unset ++ [⟨.internal, 0#8, 2#72, 0#9, 1#9, 4#9⟩, ⟨.internal, 0#8, 4#72, 2#9, 3#9, 0x1FF#9⟩]),
    ⟨.internal, 0#8, 4#72, 2#9, 3#9, 0x1FF#9⟩, ⟨.internal, 0#8, 2#72, 0#9, 1#9, 4#9⟩, by decide +kernel⟩

theorem witness_DecompressStartsAndEnds :
    (Running .decompress (started .decompress coderAB) ∧ (started .decompress coderAB).point = .entry ∧
      (started .decompress coderAB).treeValid = true) ∧
    (Running .decompress unpackingAB ∧ unpackingAB.point = .atPop 0 ∧ 0 < (unpackingAB.bitCnt.toNat + 7) / 8 ∧
      unpackingAB.inQ = 0x40#8 :: []) ∧
    (let s : State := { unpackingAB with point := .atPop 1 };
      Running .decompress s ∧ (s.bitCnt.toNat + 7) / 8 ≤ 1 ∧ s.pend = ⟨.none, 0#32, 0#64⟩) ∧
    (let s : State := { unpackingAB with point := .atPop 1, pend := ⟨.streamCorruption, 1#32, 0#64⟩ };
      Running .decompress s ∧ ErrorCode.streamCorruption ≠ .none ∧ s.pend = ⟨.streamCorruption, 1#32, 0#64⟩) :=
  ⟨⟨⟨rfl, rfl⟩, rfl, rfl⟩, ⟨⟨rfl, rfl⟩, rfl, by decide, rfl⟩, ⟨⟨rfl, rfl⟩, by decide, rfl⟩, ⟨rfl, rfl⟩, by decide, rfl⟩

/-- DECOMPRESS of [40] with BITCNT = 2 on the tree of "ab" (V-U1); there NLEAF is 2. -/
theorem witness_DecompressDecodesTheStream :
    let p : List Byte := [0x40#8]
    let s : State := { coderAB with bitCnt := 2#64, inQ := p ++ [], script := hostCmd .decompress ++ hostDrain (9 * p.length + 2) }
    s.seq = .idle ∧ s.outSlot = none ∧ s.treeValid = true ∧ TreeOk s.node s.root s.nLeaf.toNat ∧
    s.inQ = p ++ [] ∧ p.length = (s.bitCnt.toNat + 7) / 8 ∧
    s.script = hostCmd .decompress ++ hostDrain (9 * p.length + 2) ∧ 2 ≤ s.nLeaf.toNat :=
  ⟨rfl, rfl, rfl, witness_TreeOk_two, rfl, rfl, rfl, by decide⟩

/-- The round trip of "aaa" on the coder of "aaaa", and so of the one-symbol case (R198). -/
theorem witness_RoundTrip :
    let m : List Byte := [0x61#8, 0x61#8, 0x61#8]
    let s : State := { coderA with inQ := m, len := 3#32
                                   script := hostCmd .compress ++ hostDrain (2 * m.length + (logicalBits codeA m).length + 3) }
    s.seq = .idle ∧ s.outSlot = none ∧ s.treeValid = true ∧ s.ctValid = true ∧
    TreeOk s.node s.root s.nLeaf.toNat ∧ codeTable s.node s.root s.nLeaf.toNat = .ok s.code ∧
    s.len.toNat = m.length ∧ (∀ b ∈ m, (tableGet s.code b).present = true) ∧ s.inQ = m ∧ s.taken = [] ∧
    s.script = hostCmd .compress ++ hostDrain (2 * m.length + (logicalBits s.code m).length + 3) :=
  ⟨rfl, rfl, rfl, rfl, witness_TreeOk_one, codeTable_A, rfl, by decide +kernel, rfl, rfl, rfl⟩

/-! The whole machine -/

theorem witness_StepKeepsControlInvariant : ∃ t, ControlInv unpackingAB ∧ step unpackingAB = .next t :=
  ⟨_, inv_unpackingAB.control, rfl⟩

theorem witness_StepKeepsInvariant : ∃ t, Inv unpackingAB ∧ step unpackingAB = .next t :=
  ⟨_, inv_unpackingAB, rfl⟩

theorem witness_InvariantStatesAreSafe : Inv coderAB := inv_coderAB

theorem witness_NoCorruptionWithTwoSymbols :
    ∃ t, Inv unpackingAB ∧ unpackingAB.seq = .run .decompress ∧ 2 ≤ unpackingAB.nLeaf.toNat ∧
      unpackingAB.treeValid = true ∧ unpackingAB.pend.code = .none ∧ exec .decompress unpackingAB = .next t :=
  ⟨_, inv_unpackingAB, rfl, by decide, rfl, rfl, rfl⟩

/-- No byte for the four commands that take none (LEN and BITCNT are 0). -/
theorem witness_EveryCommandEnds (i : Instr) :
    Inv coderAB ∧ coderAB.seq = .idle ∧ coderAB.inQ = [] ++ [] ∧
    ([] : List Byte).length = (match i with
      | .record | .compress => coderAB.len.toNat
      | .decompress => (coderAB.bitCnt.toNat + 7) / 8
      | .init | .buildTree | .buildCodes => 0) :=
  ⟨inv_coderAB, rfl, rfl, by cases i <;> rfl⟩

/-- A legal word leaves IDLE; INIT's only engine step comes back to it. -/
theorem witness_OnlyLegalWordsLeaveIdle :
    (∃ t, step (idleAt (.write 0x04#8 1#32)) = .next t ∧ (idleAt (.write 0x04#8 1#32)).seq = .idle ∧ t.seq ≠ .idle) ∧
    (∃ t, step (started .init boot) = .next t ∧ (started .init boot).seq ≠ .idle ∧ t.seq = .idle) :=
  ⟨⟨_, rfl, rfl, (fun h => by cases h)⟩, ⟨_, rfl, (fun h => by cases h), rfl⟩⟩

/-- BUILD_CODES accepted on the tree of "ab", with no code table yet. -/
def codingAB : State := started .buildCodes { coderAB with code := boot.code, ctValid := false }

/-- An idle write to FREQ_LO. -/
def writingFreq : State := idleAt (.write 0x3C#8 5#32)

theorem ne_of_nodeGet {t u : Vector Node 511} (i : NodeIdx) (h : nodeGet t i ≠ nodeGet u i) : t ≠ u :=
  fun e => h (by rw [e])

theorem ne_of_tableGet {α : Type} {t u : Vector α 256} (b : Byte) (h : tableGet t b ≠ tableGet u b) : t ≠ u :=
  fun e => h (by rw [e])

/-- BUILD_TREE changes NODE (leaf 0 is 'a' now) and ROOT. -/
theorem witness_WritersOfTheMemories_tree :
    step buildingAB = .next (finish (buildTreeBody buildingAB)) ∧
    (finish (buildTreeBody buildingAB)).node ≠ buildingAB.node ∧
    (finish (buildTreeBody buildingAB)).root ≠ buildingAB.root := by
  refine ⟨exec_buildTree_running ⟨rfl, rfl⟩, ne_of_nodeGet 0#9 ?_, ?_⟩
  · rw [test_buildTree_ab.2]; decide +kernel
  · rw [test_buildTree_ab.1]; decide

/-- BUILD_CODES changes CODE ('a' is present now) and CT_VALID. -/
theorem witness_WritersOfTheMemories_codes :
    step codingAB = .next (after codingAB) ∧ (after codingAB).code ≠ codingAB.code ∧
    (after codingAB).ctValid ≠ codingAB.ctValid :=
  ⟨step_after (by decide +kernel), ne_of_tableGet 0x61#8 (by decide +kernel), by decide +kernel⟩

/-- An idle write to FREQ_LO changes FREQ. -/
theorem witness_WritersOfTheMemories_freq :
    step writingFreq = .next (after writingFreq) ∧ (after writingFreq).freq ≠ writingFreq.freq :=
  ⟨step_after (by decide +kernel), ne_of_tableGet 0#8 (by decide +kernel)⟩

/-- None of these steps is a reset or the end of RESET_INIT. -/
theorem witness_WritersOfTheMemories :
    (∀ rest, buildingAB.script ≠ .reset :: rest) ∧ buildingAB.seq ≠ .resetInit ∧
    (∀ rest, codingAB.script ≠ .reset :: rest) ∧ codingAB.seq ≠ .resetInit ∧
    (∀ rest, writingFreq.script ≠ .reset :: rest) ∧ writingFreq.seq ≠ .resetInit :=
  ⟨(fun _ h => by cases h), (fun h => by cases h), (fun _ h => by cases h), (fun h => by cases h),
   fun _ h => by simp [writingFreq, idleAt] at h, (fun h => by cases h)⟩

/-- A rejected write sets REJECT; ACK clears it. -/
theorem witness_RejectIsSticky :
    (∃ t, step (busyAt (.write 0x14#8 5#32)) = .next t ∧ (busyAt (.write 0x14#8 5#32)).reject = false ∧ t.reject = true) ∧
    (let s : State := { idleAt (.write 0x0C#8 1#32) with reject := true };
      ∃ t, step s = .next t ∧ s.reject = true ∧ t.reject = false) :=
  ⟨⟨_, rfl, rfl, rfl⟩, ⟨_, rfl, rfl, rfl⟩⟩

theorem witness_LoadFreqSetsEveryCounter :
    ({ boot with script := hostLoadFreq (fun b => b.setWidth 64) } : State).seq = .idle := rfl

theorem witness_SaveFreqReadsEveryCounter :
    let s : State := { coderAB with script := hostSaveFreq }
    s.seq = .idle ∧ s.script = hostSaveFreq ∧ s.reads = [] := ⟨rfl, rfl, rfl⟩

end Sys2Proof.Tests
end

/-! ### The parts of the state that a step leaves alone

A part of the state is given as a state in which every other field has its reset value: that two states agree
on a part is one equation, `rfl` for an update of other fields, and each field of the part follows by
`congrArg`. -/

namespace Sys2Proof.Machine

open Sys2Proof

/-- The fields that `ControlInv` speaks of. -/
def State.controlPart (s : State) : State :=
  { State.reset with
    seq := s.seq, point := s.point, done := s.done, err := s.err, errCode := s.errCode
    errInfo := s.errInfo, errPos := s.errPos, pend := s.pend
    treeValid := s.treeValid, ctValid := s.ctValid, root := s.root, nLeaf := s.nLeaf
    outSlot := s.outSlot, k := s.k }

/-- The fields that `TreeInv`, `CodeInv` and `CursorInv` speak of. -/
def State.dataPart (s : State) : State :=
  { State.reset with
    seq := s.seq, point := s.point, pend := s.pend, cur := s.cur
    node := s.node, root := s.root, nLeaf := s.nLeaf, treeValid := s.treeValid
    code := s.code, ctValid := s.ctValid }

/-- The fields that no rule of a command changes before its `finish`: the sequencer state, the report, and
what is the host's. -/
def State.frame (s : State) : State :=
  { State.reset with
    seq := s.seq, done := s.done, err := s.err, errCode := s.errCode
    errInfo := s.errInfo, errPos := s.errPos
    reject := s.reject, lastOp := s.lastOp, ie := s.ie, len := s.len
    freqIdx := s.freqIdx, nodeIdx := s.nodeIdx, codeIdx := s.codeIdx, codeWsel := s.codeWsel
    script := s.script, taken := s.taken, reads := s.reads, draws := s.draws }

/-- The tree, the code table and their validity flags (R58). -/
def State.coderPart (s : State) : State :=
  { State.reset with
    node := s.node, root := s.root, nLeaf := s.nLeaf, treeValid := s.treeValid
    code := s.code, ctValid := s.ctValid }

theorem seq_of_frame {s t : State} (h : t.frame = s.frame) : t.seq = s.seq := (congrArg State.seq h :)

theorem reject_of_frame {s t : State} (h : t.frame = s.frame) : t.reject = s.reject := (congrArg State.reject h :)

/-! ### What a step without a command leaves alone -/

theorem AccessFrom.controlPart {s u : State} (h : AccessFrom s u) : u.controlPart = s.controlPart := by
  rcases h with rfl | rfl <;> rfl

theorem AccessFrom.dataPart {s u : State} (h : AccessFrom s u) : u.dataPart = s.dataPart := by
  rcases h with rfl | rfl <;> rfl

theorem AccessFrom.seq {s u : State} (h : AccessFrom s u) : u.seq = s.seq := by
  rcases h with rfl | rfl <;> rfl

theorem AccessFrom.reject {s u : State} (h : AccessFrom s u) : u.reject = s.reject := by
  rcases h with rfl | rfl <;> rfl

theorem AccessFrom.busy {s u : State} (h : AccessFrom s u) : u.busy = s.busy := by
  rcases h with rfl | rfl <;> rfl

/-- A write to a register other than ACK stores nothing that the control invariant speaks of. -/
theorem controlPart_regWrite {r : Reg} (v : Word) (s : State) (h : r ≠ .ack) :
    (regWrite r v s).controlPart = s.controlPart := by
  cases r with
  | ack => exact absurd rfl h
  | _ => rfl

@[simp] theorem dataPart_ackWrite (v : Word) (s : State) : (ackWrite v s).dataPart = s.dataPart := by
  unfold ackWrite; split <;> rfl

theorem dataPart_regWrite (r : Reg) (v : Word) (s : State) : (regWrite r v s).dataPart = s.dataPart := by
  cases r with
  | ack => exact dataPart_ackWrite v s
  | _ => rfl

theorem dataPart_takeOut (s : State) : (takeOut s).dataPart = s.dataPart := by
  unfold takeOut; split <;> rfl

theorem ackWrite_of_bit {v : Word} (s : State) (h : v.getLsbD 0 = true) :
    ackWrite v s = { s with done := false, err := false, errCode := .none, reject := false } := by
  rw [ackWrite, if_pos h]

theorem ackWrite_of_no_bit {v : Word} (s : State) (h : v.getLsbD 0 = false) : ackWrite v s = s := by
  rw [ackWrite, h]; rfl

/-! ### Everything a step can do -/

/-- The next event is a write of `v` at `off`, alone or in the cycle of a read (R81, R99). -/
def Writes (s : State) (off : BitVec 8) (v : Word) : Prop :=
  ∃ rest, s.script = .write off v :: rest ∨ s.script = .writeRead off v :: rest

/-- Everything one step from `s` to `t` can be (R92). -/
inductive StepTo (s : State) : State → Prop
  /-- a write to a locked register while BUSY (R84) -/
  | rejected (off : BitVec 8) (v : Word) (u : State) (hw : Writes s off v) (hu : AccessFrom s u)
      (hb : s.seq ≠ .idle) (hl : regLocked (regOf off) = true) : StepTo s (rejectWrite u)
  /-- a legal word written to CMD while IDLE (R151) -/
  | accepted (off : BitVec 8) (v : Word) (i : Instr) (u : State) (hw : Writes s off v) (hu : AccessFrom s u)
      (hq : s.seq = .idle) (hr : regOf off = .cmd) (hd : decode v = some i) : StepTo s (accept i u)
  /-- an illegal word written to CMD while IDLE (R152) -/
  | illegal (off : BitVec 8) (v : Word) (u : State) (hw : Writes s off v) (hu : AccessFrom s u)
      (hq : s.seq = .idle) (hr : regOf off = .cmd) (hd : decode v = none) : StepTo s (illegalWord v u)
  /-- any other write -/
  | stored (off : BitVec 8) (v : Word) (u : State) (hw : Writes s off v) (hu : AccessFrom s u)
      (hl : s.seq = .idle ∨ regLocked (regOf off) = false) (hr : regOf off ≠ .cmd) :
      StepTo s (regWrite (regOf off) v u)
  /-- a read (R83) -/
  | read (v : Word) (d : Nat) : StepTo s { popEvent s with reads := s.reads ++ [v], draws := d }
  /-- the host offers a byte (R86) -/
  | offer (b : Byte) : StepTo s (offerIn b (popEvent s))
  /-- the host takes a byte, if one is there (R87) -/
  | take : StepTo s (takeOut (popEvent s))
  /-- a reset edge (R340) -/
  | reset (rest : List HostEvent) (hr : s.script = .reset :: rest) : StepTo s (hardReset (popEvent s))
  /-- the end of RESET_INIT (R341) -/
  | initEnds (hq : s.seq = .resetInit) : StepTo s (endResetInit (popEvent s))
  /-- a turn of an engine that is IDLE (R325) or holds at an `OutPush` (R87) -/
  | waits : StepTo s (popEvent s)
  /-- a turn of the running command (R150) -/
  | rule {t : State} (i : Instr) (hq : s.seq = .run i) (ho : s.outSlot = none)
      (hr : ruleOf i (popEvent s) = .next t) : StepTo s t

theorem seq_eq_idle_of_not_busy {s : State} (h : s.busy = false) : s.seq = .idle := by
  simpa [State.busy] using h

theorem seq_ne_idle_of_busy {s : State} (h : s.busy = true) : s.seq ≠ .idle := by
  simpa [State.busy] using h

theorem stepTo_of_busWrite {s t u : State} {off : BitVec 8} {v : Word} (h : step s = .next t)
    (hw : Writes s off v) (hu : AccessFrom s u) (ht : turn s = busWrite off v u) : StepTo s t := by
  rcases busWrite_cases off v u with ⟨hb, hl, e⟩ | ⟨hb, hr, i, hd, e⟩ | ⟨hb, hr, hd, e⟩ | ⟨hl, hr, e⟩
  · rw [step_of_turn_none (ht.trans e)] at h
    cases h
    exact .rejected off v u hw hu (seq_ne_idle_of_busy (hu.busy ▸ hb)) hl
  · have hq : u.seq = .idle := seq_eq_idle_of_not_busy hb
    rw [step_of_turn_some (ht.trans e), exec_eq_runCommand, runCommand_idle hq] at h
    cases h
    exact .accepted off v i u hw hu (hu.seq ▸ hq) hr hd
  · rw [step_of_turn_none (ht.trans e)] at h
    cases h
    exact .illegal off v u hw hu (hu.seq ▸ seq_eq_idle_of_not_busy hb) hr hd
  · rw [step_of_turn_none (ht.trans e)] at h
    cases h
    exact .stored off v u hw hu (hl.imp_left fun hb => hu.seq ▸ seq_eq_idle_of_not_busy hb) hr

theorem stepTo_of_engineTurn {s t : State} (h : step s = .next t) (ht : turn s = engineTurn (popEvent s)) :
    StepTo s t := by
  cases hq : s.seq with
  | resetInit =>
    have e : engineTurn (popEvent s) = (none, endResetInit (popEvent s)) := by simp [engineTurn, popEvent, hq]
    rw [step_of_turn_none (ht.trans e)] at h
    cases h
    exact .initEnds hq
  | idle =>
    have e : engineTurn (popEvent s) = (none, popEvent s) := by simp [engineTurn, popEvent, hq]
    rw [step_of_turn_none (ht.trans e)] at h
    cases h
    exact .waits
  | run i =>
    have e : engineTurn (popEvent s) = (some i, popEvent s) := by simp [engineTurn, popEvent, hq]
    rw [step_of_turn_some (ht.trans e), exec_eq_runCommand] at h
    cases ho : s.outSlot with
    | some v =>
      rw [runCommand_held (s := popEvent s) hq ho] at h
      cases h
      exact .waits
    | none =>
      rw [runCommand_rule (s := popEvent s) hq ho] at h
      exact .rule i hq ho h

/-- Everything a step can do: the next event, or the engine's turn where there is none. -/
theorem step_to {s t : State} (h : step s = .next t) : StepTo s t := by
  cases hs : s.script with
  | nil =>
    have e : s = popEvent s := by cases s; cases hs; rfl
    exact stepTo_of_engineTurn h (by unfold turn; rw [hs, ← e])
  | cons e rest =>
    have ht : turn s = eventTurn e (popEvent s) := by unfold turn popEvent; rw [hs]; rfl
    cases e with
    | write off v => exact stepTo_of_busWrite h ⟨rest, .inl hs⟩ (.inl rfl) ht
    | writeRead off v => exact stepTo_of_busWrite h ⟨rest, .inr hs⟩ (.inr rfl) ht
    | read off =>
      obtain ⟨v, d, e⟩ := busRead_eq off (popEvent s)
      have ht' : turn s = (none, busRead off (popEvent s)) := ht
      rw [step_of_turn_none ht', e] at h
      cases h
      exact .read v d
    | offer b =>
      rw [step_of_turn_none ht] at h
      cases h
      exact .offer b
    | take =>
      rw [step_of_turn_none ht] at h
      cases h
      exact .take
    | reset =>
      rw [step_of_turn_none ht] at h
      cases h
      exact .reset rest hs
    | engine => exact stepTo_of_engineTurn h ht

/-! ### What a rule leaves alone before its `finish` -/

@[simp] theorem frame_raise (c : ErrorCode) (x : Word) (p : Count) (s : State) :
    (raise c x p s).frame = s.frame := by
  simp [State.frame]

@[simp] theorem frame_recordByte (i : Nat) (b : Byte) (s : State) : (recordByte i b s).frame = s.frame := by
  unfold recordByte
  split
  · split
    · exact frame_raise ..
    · rfl
  · rfl

@[simp] theorem frame_buildTreeBody (s : State) : (buildTreeBody s).frame = s.frame := by
  unfold buildTreeBody
  dsimp only
  split
  · exact frame_raise ..
  · split <;> rfl

@[simp] theorem frame_packerStart (s : State) : (packerStart s).frame = s.frame := by
  unfold packerStart
  dsimp only
  split
  · rfl
  · exact frame_raise ..

@[simp] theorem frame_packByte (i : Nat) (b : Byte) (s : State) : (packByte i b s).frame = s.frame := by
  unfold packByte
  split
  · split
    · rfl
    · exact frame_raise ..
  · rfl

@[simp] theorem frame_packBit (b : Bool) (s : State) : (packBit b s).frame = s.frame := by
  unfold packBit
  dsimp only
  split <;> rfl

@[simp] theorem frame_packTail (s : State) : (packTail s).frame = s.frame := by
  unfold packTail
  split <;> rfl

@[simp] theorem frame_unpackerStart (s : State) : (unpackerStart s).frame = s.frame := by
  unfold unpackerStart
  dsimp only
  split
  · rfl
  · exact frame_raise ..

@[simp] theorem frame_corrupt (i : Nat) (s : State) : (corrupt i s).frame = s.frame := frame_raise ..

@[simp] theorem frame_landOn (i : NodeIdx) (n : Node) (s : State) : (landOn i n s).frame = s.frame := by
  unfold landOn
  split <;> rfl

theorem frame_unpackStep {q : Nat} {byte : Byte} {k : Nat} {s t : State} (h : unpackStep q byte k s = .ok t) :
    t.frame = s.frame := by
  obtain ⟨-, rfl⟩ | ⟨-, rfl⟩ | ⟨-, n, c, -, -, -, rfl⟩ := unpackStep_ok h
  · rfl
  · exact frame_corrupt ..
  · exact frame_landOn ..

/-- Every step of a rule leaves the frame alone, or is the `finish` of a state with the same frame (R153). -/
theorem ruleOf_next_frame {i : Instr} {s t : State} (h : ruleOf i s = .next t) :
    t.frame = s.frame ∨ ∃ u, t = finish u ∧ u.frame = s.frame := by
  cases i with
  | init => cases h; exact .inr ⟨_, rfl, rfl⟩
  | record =>
    obtain ⟨-, rfl⟩ | ⟨i, b, rest, -, -, -, rfl⟩ | ⟨i, -, -, rfl⟩ | rfl := recordRule_next h
    · exact .inl rfl
    · exact .inl (frame_recordByte i b { s with inQ := rest })
    · exact .inr ⟨_, rfl, rfl⟩
    · exact .inl rfl
  | buildTree => cases h; exact .inr ⟨_, rfl, frame_buildTreeBody s⟩
  | buildCodes =>
    obtain ⟨-, rfl⟩ | ⟨-, code, -, rfl⟩ := buildCodesRule_next h
    · exact .inr ⟨_, rfl, frame_raise ..⟩
    · exact .inr ⟨_, rfl, rfl⟩
  | compress =>
    obtain ⟨-, rfl⟩ | ⟨i, b, rest, -, -, -, rfl⟩ | ⟨i, -, -, rfl⟩ | ⟨i, b, j, -, -, rfl⟩ |
      ⟨i, b, j, -, -, rfl⟩ | ⟨-, rfl⟩ | rfl := compressRule_next h
    · exact .inl (frame_packerStart s)
    · exact .inl (frame_packByte i b { s with inQ := rest })
    · exact .inl (frame_packTail s)
    · exact .inl (frame_packBit _ s)
    · exact .inl rfl
    · exact .inr ⟨_, rfl, rfl⟩
    · exact .inl rfl
  | decompress =>
    obtain ⟨-, rfl⟩ | ⟨q, b, rest, -, -, -, rfl⟩ | ⟨q, -, -, rfl⟩ | ⟨q, byte, k, s', -, hs, rfl⟩ |
      rfl := decompressRule_next h
    · exact .inl (frame_unpackerStart s)
    · exact .inl rfl
    · exact .inr ⟨_, rfl, rfl⟩
    · exact .inl (frame_unpackStep hs :)
    · exact .inl rfl

/-! ### The parts of the control invariant that a rule works on -/

/-- The clauses of `ControlInv` about what a rule changes before its `finish`. -/
def WorkOk (s : State) : Prop :=
  (s.pend.code = .none → s.pend = ErrReport.clear) ∧
  (s.ctValid = true → s.treeValid = true) ∧
  (s.treeValid = false → s.root = Config.null ∧ s.nLeaf = 0#9) ∧
  s.k < 8

theorem ControlInv.workOk {s : State} (h : ControlInv s) : WorkOk s :=
  ⟨h.pendClean, h.codesNeedTree, h.noTree, h.accRange⟩

theorem workOk_raise {c : ErrorCode} {x : Word} {p : Count} {s : State} (hc : c ≠ .none) (h : WorkOk s) :
    WorkOk (raise c x p s) := by
  obtain ⟨hpend, hct, hnt, hk⟩ := h
  refine ⟨?_, by simpa using hct, by simpa using hnt, by simpa using hk⟩
  rw [raise_pend]
  split
  · intro e; exact absurd e hc
  · exact hpend

theorem workOk_recordByte (i : Nat) (b : Byte) {s : State} (h : WorkOk s) : WorkOk (recordByte i b s) := by
  unfold recordByte
  split
  · split
    · exact workOk_raise (by decide) h
    · exact h
  · exact h

/-- The queue operations record no error but EMPTY_QUEUE, whose info and position are 0. -/
theorem pend_pqExtractMin (b : Builder) :
    (pqExtractMin b).2.pend = b.pend ∨ (pqExtractMin b).2.pend = ⟨.emptyQueue, 0#32, 0#64⟩ := by
  unfold pqExtractMin
  split
  · dsimp only
    split
    · exact .inr rfl
    · exact .inl rfl
  · exact .inl rfl

theorem pend_mergeOnce (z : NodeIdx) (b : Builder) :
    (mergeOnce z b).pend = b.pend ∨ (mergeOnce z b).pend = ⟨.emptyQueue, 0#32, 0#64⟩ := by
  have key : (mergeOnce z b).pend = (pqExtractMin (pqExtractMin b).2).2.pend := by
    unfold mergeOnce
    dsimp only
    split <;> rfl
  rw [key]
  rcases pend_pqExtractMin (pqExtractMin b).2 with h | h
  · rw [h]; exact pend_pqExtractMin b
  · exact .inr h

theorem pend_mergeLoop (c : Nat) : ∀ (z : Nat) (b : Builder),
    (mergeLoop c z b).pend = b.pend ∨ (mergeLoop c z b).pend = ⟨.emptyQueue, 0#32, 0#64⟩ := by
  induction c with
  | zero => exact fun z b => .inl rfl
  | succ c ih =>
    intro z b
    unfold mergeLoop
    dsimp only
    split
    · exact pend_mergeOnce _ b
    · rcases ih (z + 1) (mergeOnce (BitVec.ofNat 9 z) b) with h | h
      · rw [h]; exact pend_mergeOnce _ b
      · exact .inr h

theorem pend_seedByte (freq : Vector Count 256) (b : Builder) (v : Byte) : (seedByte freq b v).pend = b.pend := by
  unfold seedByte
  split <;> rfl

theorem pend_seedAll (freq : Vector Count 256) (node : Vector Node 511) (pend : ErrReport) :
    (seedAll freq node pend).pend = pend := by
  unfold seedAll
  generalize hb : ({ node := node, pq := [], pend := pend, leaves := 0 } : Builder) = b
  have hp : b.pend = pend := by rw [← hb]
  clear hb
  induction allBytes generalizing b with
  | nil => exact hp
  | cons v vs ih => exact ih _ (by rw [pend_seedByte, hp])

theorem pend_buildFrom (n : Nat) (b : Builder) :
    (buildFrom n b).2.pend = b.pend ∨ (buildFrom n b).2.pend = ⟨.emptyQueue, 0#32, 0#64⟩ := by
  unfold buildFrom
  split
  · exact .inl rfl
  · rcases pend_pqExtractMin (mergeLoop (n - 1) n b) with h | h
    · rw [h]; exact pend_mergeLoop (n - 1) n b
    · exact .inr h

theorem workOk_buildTreeBody {s : State} (h : WorkOk s) : WorkOk (buildTreeBody s) := by
  obtain ⟨hpend, -, -, hk⟩ := id h
  unfold buildTreeBody
  dsimp only
  split
  · exact workOk_raise (by decide) h
  · have hp : (buildFrom (nDistinct s.freq) (seedAll s.freq s.node s.pend)).2.pend.code = .none →
        (buildFrom (nDistinct s.freq) (seedAll s.freq s.node s.pend)).2.pend = ErrReport.clear := by
      rcases pend_buildFrom (nDistinct s.freq) (seedAll s.freq s.node s.pend) with e | e
      · rw [e, pend_seedAll]; exact hpend
      · rw [e]; intro hc; cases hc
    split
    · exact ⟨hp, nofun, fun _ => ⟨rfl, rfl⟩, hk⟩
    · exact ⟨hp, nofun, nofun, hk⟩

theorem workOk_packerStart {s : State} (h : WorkOk s) : WorkOk (packerStart s) := by
  obtain ⟨hpend, hct, hnt, -⟩ := h
  have h0 : WorkOk { s with acc := 0#8, k := 0, nbits := 0#64, packOut := 0#64 } :=
    ⟨hpend, hct, hnt, Nat.zero_lt_succ 7⟩
  unfold packerStart
  dsimp only
  split
  · exact h0
  · exact workOk_raise (by decide) h0

theorem workOk_packByte (i : Nat) (b : Byte) {s : State} (h : WorkOk s) : WorkOk (packByte i b s) := by
  unfold packByte
  split
  · split
    · exact h
    · exact (workOk_raise (by decide) h : WorkOk (raise .unknownSymbol (0#24 ++ b) (BitVec.ofNat 64 i) s))
  · exact h

theorem workOk_packBit (b : Bool) {s : State} (h : WorkOk s) : WorkOk (packBit b s) := by
  obtain ⟨hpend, hct, hnt, hk⟩ := h
  unfold packBit
  dsimp only
  split
  · exact ⟨hpend, hct, hnt, Nat.zero_lt_succ 7⟩
  · next hk8 => exact ⟨hpend, hct, hnt, by show s.k + 1 < 8; omega⟩

theorem workOk_packTail {s : State} (h : WorkOk s) : WorkOk (packTail s) := by
  unfold packTail
  split <;> exact h

theorem workOk_unpackerStart {s : State} (h : WorkOk s) : WorkOk (unpackerStart s) := by
  unfold unpackerStart
  dsimp only
  split
  · exact h
  · exact workOk_raise (by decide) h

theorem workOk_landOn (i : NodeIdx) (n : Node) {s : State} (h : WorkOk s) : WorkOk (landOn i n s) := by
  unfold landOn
  split <;> exact h

theorem workOk_unpackStep {q : Nat} {byte : Byte} {k : Nat} {s t : State} (hs : unpackStep q byte k s = .ok t)
    (h : WorkOk s) : WorkOk t := by
  obtain ⟨-, rfl⟩ | ⟨-, rfl⟩ | ⟨-, n, c, -, -, -, rfl⟩ := unpackStep_ok hs
  · exact h
  · exact workOk_raise (by decide) h
  · exact workOk_landOn _ _ h

/-- Every step of a rule keeps what the control invariant says of the fields it works on. -/
theorem ruleOf_next_workOk {i : Instr} {s t : State} (h : ruleOf i s = .next t) (hw : WorkOk s) : WorkOk t := by
  obtain ⟨hpend, hct, hnt, hk⟩ := id hw
  cases i with
  | init => cases h; exact ⟨hpend, nofun, fun _ => ⟨rfl, rfl⟩, hk⟩
  | record =>
    obtain ⟨-, rfl⟩ | ⟨i, b, rest, -, -, -, rfl⟩ | ⟨i, -, -, rfl⟩ | rfl := recordRule_next h
    · exact hw
    · exact workOk_recordByte i b (s := { s with inQ := rest }) hw
    · exact hw
    · exact hw
  | buildTree => cases h; exact workOk_buildTreeBody hw
  | buildCodes =>
    obtain ⟨-, rfl⟩ | ⟨hv, code, -, rfl⟩ := buildCodesRule_next h
    · exact workOk_raise (s := s) (by decide) hw
    · exact ⟨hpend, fun _ => hv, hnt, hk⟩
  | compress =>
    obtain ⟨-, rfl⟩ | ⟨i, b, rest, -, -, -, rfl⟩ | ⟨i, -, -, rfl⟩ | ⟨i, b, j, -, -, rfl⟩ |
      ⟨i, b, j, -, -, rfl⟩ | ⟨-, rfl⟩ | rfl := compressRule_next h
    · exact workOk_packerStart hw
    · exact workOk_packByte i b (s := { s with inQ := rest }) hw
    · exact workOk_packTail hw
    · exact workOk_packBit _ hw
    · exact hw
    · exact hw
    · exact hw
  | decompress =>
    obtain ⟨-, rfl⟩ | ⟨q, b, rest, -, -, -, rfl⟩ | ⟨q, -, -, rfl⟩ | ⟨q, byte, k, s', -, hs, rfl⟩ |
      rfl := decompressRule_next h
    · exact workOk_unpackerStart hw
    · exact hw
    · exact hw
    · exact (workOk_unpackStep hs hw :)
    · exact hw

end Sys2Proof.Machine

namespace Sys2Proof.Machine

open Sys2Proof

/-! ### The place of the running command and the output slot -/

@[simp] theorem outSlot_recordByte (i : Nat) (b : Byte) (s : State) : (recordByte i b s).outSlot = s.outSlot := by
  unfold recordByte
  split
  · split
    · exact raise_outSlot ..
    · rfl
  · rfl

@[simp] theorem outSlot_buildTreeBody (s : State) : (buildTreeBody s).outSlot = s.outSlot := by
  unfold buildTreeBody
  dsimp only
  split
  · exact raise_outSlot ..
  · split <;> rfl

theorem point_packByte (i : Nat) (b : Byte) (s : State) :
    (packByte i b s).point = .atCode i b 0 ∨ (packByte i b s).point = .atPop (i + 1) := by
  unfold packByte
  split
  · split
    · exact .inl rfl
    · exact .inr rfl
  · exact .inr rfl

/-- Every command can stand before its first line. -/
theorem pointOk_entry (i : Instr) : PointOk (.run i) .entry := by
  cases i with
  | record | compress | decompress => exact .inl rfl
  | init | buildTree | buildCodes => exact rfl

/-- The place after a bit is one that DECOMPRESS can stand at. -/
theorem pointOk_afterBit (q : Nat) (byte : Byte) (k : Nat) : PointOk (.run .decompress) (afterBit q byte k) := by
  unfold afterBit
  split
  · next h => exact .inr (.inr ⟨q, byte, k + 1, rfl, h⟩)
  · exact .inr (.inl ⟨_, rfl⟩)

/-- The output slot is used as R87 and R93 say. -/
def SlotOk (s : State) : Prop := s.outSlot ≠ none → s.seq = .run .compress ∨ s.seq = .run .decompress

theorem slotOk_of_none {s : State} (h : s.outSlot = none) : SlotOk s := fun hn => absurd h hn

/-- A finished command stands nowhere and has left no byte on OUT (R93). -/
theorem place_finish {u : State} (h : u.outSlot = none) :
    PointOk (finish u).seq (finish u).point ∧ SlotOk (finish u) := ⟨rfl, slotOk_of_none h⟩

/-- A stream command with an output may have its byte on OUT while it runs. -/
theorem place_running {i : Instr} {s u : State} (hi : i = .compress ∨ i = .decompress) (hq : s.seq = .run i)
    (hf : u.frame = s.frame) (hp : PointOk (.run i) u.point) : PointOk u.seq u.point ∧ SlotOk u := by
  have hseq : u.seq = .run i := (seq_of_frame hf).trans hq
  exact ⟨by rw [hseq]; exact hp, fun _ => by rcases hi with rfl | rfl <;> simp [hseq]⟩

/-- Every step of a rule stops at a place of the rule, and only COMPRESS and DECOMPRESS leave a byte on OUT,
which their `finish` does not. -/
theorem ruleOf_next_place {i : Instr} {s t : State} (h : ruleOf i s = .next t) (hq : s.seq = .run i)
    (ho : s.outSlot = none) (hp : PointOk s.seq s.point) : PointOk t.seq t.point ∧ SlotOk t := by
  cases i with
  | init => cases h; exact place_finish ho
  | record =>
    obtain ⟨-, rfl⟩ | ⟨i, b, rest, -, -, -, rfl⟩ | ⟨i, -, -, rfl⟩ | rfl := recordRule_next h
    · exact ⟨by rw [hq]; exact .inr ⟨0, rfl⟩, slotOk_of_none ho⟩
    · have hseq := seq_of_frame (frame_recordByte i b { s with inQ := rest })
      exact ⟨by rw [hseq.trans hq]; exact .inr ⟨_, rfl⟩, slotOk_of_none (by simpa using ho)⟩
    · exact place_finish ho
    · exact ⟨hp, slotOk_of_none ho⟩
  | buildTree => cases h; exact place_finish (by simpa using ho)
  | buildCodes =>
    obtain ⟨-, rfl⟩ | ⟨-, code, -, rfl⟩ := buildCodesRule_next h
    · exact place_finish (by simpa using ho)
    · exact place_finish ho
  | compress =>
    have running {u : State} := place_running (u := u) (.inl rfl) hq
    obtain ⟨-, rfl⟩ | ⟨i, b, rest, -, -, -, rfl⟩ | ⟨i, -, -, rfl⟩ | ⟨i, b, j, -, -, rfl⟩ |
      ⟨i, b, j, -, -, rfl⟩ | ⟨-, rfl⟩ | rfl := compressRule_next h
    · exact running (frame_packerStart s) (.inr (.inl ⟨0, rfl⟩))
    · refine running (frame_packByte i b { s with inQ := rest }) ?_
      rcases point_packByte i b { s with inQ := rest } with e | e
      · rw [e]; exact .inr (.inr (.inl ⟨_, _, _, rfl⟩))
      · rw [e]; exact .inr (.inl ⟨_, rfl⟩)
    · exact running (frame_packTail s) (.inr (.inr (.inr rfl)))
    · exact running (frame_packBit _ s) (.inr (.inr (.inl ⟨_, _, _, rfl⟩)))
    · exact running rfl (.inr (.inl ⟨_, rfl⟩))
    · exact place_finish ho
    · exact ⟨hp, slotOk_of_none ho⟩
  | decompress =>
    have running {u : State} := place_running (u := u) (.inr rfl) hq
    obtain ⟨-, rfl⟩ | ⟨q, b, rest, -, -, -, rfl⟩ | ⟨q, -, -, rfl⟩ | ⟨q, byte, k, s', -, hs, rfl⟩ |
      rfl := decompressRule_next h
    · exact running (frame_unpackerStart s) (.inr (.inl ⟨0, rfl⟩))
    · exact running rfl (.inr (.inr ⟨q, b, 0, rfl, Nat.zero_lt_succ 7⟩))
    · exact place_finish ho
    · exact running (frame_unpackStep hs :) (pointOk_afterBit q byte k)
    · exact ⟨hp, slotOk_of_none ho⟩

/-! ### Every operation keeps the control invariant -/

theorem controlInv_controlPart {s : State} : ControlInv s.controlPart ↔ ControlInv s :=
  ⟨fun h => ⟨h.1, h.2, h.3, h.4, h.5, h.6, h.7, h.8, h.9, h.10, h.11⟩,
   fun h => ⟨h.1, h.2, h.3, h.4, h.5, h.6, h.7, h.8, h.9, h.10, h.11⟩⟩

/-- The control invariant is about `controlPart` alone. -/
theorem ControlInv.congr {s t : State} (hs : ControlInv s) (h : t.controlPart = s.controlPart) : ControlInv t :=
  controlInv_controlPart.mp (h ▸ controlInv_controlPart.mpr hs)

theorem ControlInv.outSlot_idle {s : State} (hs : ControlInv s)
    (h : s.seq ≠ .run .compress) (h' : s.seq ≠ .run .decompress) : s.outSlot = none := by
  by_contra hn
  rcases hs.slotInStream hn with e | e
  · exact h e
  · exact h' e

theorem controlInv_accept {s : State} (i : Instr) (hs : ControlInv s) (hq : s.seq = .idle) :
    ControlInv (accept i s) where
  busyClean _ := ⟨rfl, rfl, rfl, rfl, rfl⟩
  errIsCode := rfl
  errNeedsDone := nofun
  successClean := nofun
  pendClean _ := rfl
  codesNeedTree := hs.codesNeedTree
  noTree := hs.noTree
  slotInStream := slotOk_of_none (hs.outSlot_idle (by simp [hq]) (by simp [hq]))
  resetClean := nofun
  accRange := hs.accRange
  pointOk := pointOk_entry i

theorem controlInv_finish {s : State} (hw : WorkOk s) (ho : s.outSlot = none) : ControlInv (finish s) := by
  obtain ⟨hpend, hct, hnt, hk⟩ := hw
  exact {
    busyClean := fun h => absurd rfl h
    errIsCode := rfl
    errNeedsDone := fun _ => rfl
    successClean := fun _ h => by simp [hpend h, ErrReport.clear]
    pendClean := hpend
    codesNeedTree := hct
    noTree := hnt
    slotInStream := slotOk_of_none ho
    resetClean := nofun
    accRange := hk
    pointOk := rfl }

theorem controlInv_illegalWord {s : State} (w : Word) (hs : ControlInv s) (hq : s.seq = .idle) :
    ControlInv (illegalWord w s) := by
  have hl : WorkOk (latchWord w s) := ⟨fun _ => rfl, hs.codesNeedTree, hs.noTree, hs.accRange⟩
  exact controlInv_finish (workOk_raise (by decide) hl)
    (by simpa using hs.outSlot_idle (by simp [hq]) (by simp [hq]))

theorem controlInv_ackWrite {s : State} (v : Word) (hs : ControlInv s) : ControlInv (ackWrite v s) := by
  cases hv : v.getLsbD 0 with
  | false => rw [ackWrite_of_no_bit s hv]; exact hs
  | true =>
    rw [ackWrite_of_bit s hv]
    exact {
      busyClean := fun h =>
        have ⟨_, _, _, hinfo, hpos⟩ := hs.busyClean h
        ⟨rfl, rfl, rfl, hinfo, hpos⟩
      errIsCode := rfl
      errNeedsDone := nofun
      successClean := nofun
      pendClean := hs.pendClean
      codesNeedTree := hs.codesNeedTree
      noTree := hs.noTree
      slotInStream := hs.slotInStream
      resetClean := hs.resetClean
      accRange := hs.accRange
      pointOk := hs.pointOk }

theorem controlInv_regWrite {s : State} (r : Reg) (v : Word) (hs : ControlInv s) : ControlInv (regWrite r v s) := by
  by_cases hr : r = .ack
  · subst hr; exact controlInv_ackWrite v hs
  · exact hs.congr (controlPart_regWrite v s hr)

theorem controlInv_takeOut {s : State} (hs : ControlInv s) : ControlInv (takeOut s) := by
  unfold takeOut
  split
  · exact { hs with slotInStream := slotOk_of_none rfl }
  · exact hs

theorem controlInv_hardReset (s : State) : ControlInv (hardReset s) where
  busyClean _ := ⟨rfl, rfl, rfl, rfl, rfl⟩
  errIsCode := rfl
  errNeedsDone := nofun
  successClean := nofun
  pendClean _ := rfl
  codesNeedTree := nofun
  noTree _ := ⟨rfl, rfl⟩
  slotInStream := slotOk_of_none rfl
  resetClean _ := ⟨rfl, rfl⟩
  accRange := Nat.zero_lt_succ 7
  pointOk := rfl

theorem controlInv_endResetInit {s : State} (hs : ControlInv s) (hq : s.seq = .resetInit) :
    ControlInv (endResetInit s) :=
  { hs with
    busyClean := fun h => absurd rfl h
    slotInStream := slotOk_of_none (hs.outSlot_idle (by simp [hq]) (by simp [hq]))
    resetClean := nofun
    pointOk := rfl }

/-- A step of a running command's rule keeps the control invariant. -/
theorem controlInv_ruleOf {i : Instr} {s t : State} (hs : ControlInv s) (hq : s.seq = .run i)
    (ho : s.outSlot = none) (h : ruleOf i s = .next t) : ControlInv t := by
  have hw := ruleOf_next_workOk h hs.workOk
  obtain ⟨hpoint, hslot⟩ := ruleOf_next_place h hq ho hs.pointOk
  rcases ruleOf_next_frame h with hf | ⟨u, rfl, -⟩
  · have hseq : t.seq = .run i := (seq_of_frame hf).trans hq
    have hdone : t.done = s.done := (congrArg State.done hf :)
    have herr : t.err = s.err := (congrArg State.err hf :)
    have hcode : t.errCode = s.errCode := (congrArg State.errCode hf :)
    have hinfo : t.errInfo = s.errInfo := (congrArg State.errInfo hf :)
    have hpos : t.errPos = s.errPos := (congrArg State.errPos hf :)
    obtain ⟨hpend, hct, hnt, hk⟩ := hw
    exact {
      busyClean := fun _ => by
        rw [hdone, herr, hcode, hinfo, hpos]
        exact hs.busyClean (by simp [hq])
      errIsCode := by rw [herr, hcode]; exact hs.errIsCode
      errNeedsDone := by rw [herr, hdone]; exact hs.errNeedsDone
      successClean := by rw [hdone, hcode, hinfo, hpos]; exact hs.successClean
      pendClean := hpend
      codesNeedTree := hct
      noTree := hnt
      slotInStream := hslot
      resetClean := by rw [hseq]; exact nofun
      accRange := hk
      pointOk := hpoint }
  · refine controlInv_finish hw ?_
    by_contra hn
    rcases hslot hn with e | e <;> cases e

/-- Settles O51: each way a step can go keeps the control invariant. -/
theorem stepKeepsControlInvariant : Obligations.StepKeepsControlInvariant := by
  unfold Obligations.StepKeepsControlInvariant
  intro s t hs h
  have hp : ControlInv (popEvent s) := hs.congr rfl
  cases step_to h with
  | rejected off v u hw hu hb hl => exact hs.congr hu.controlPart
  | accepted off v i u hw hu hq hr hd => exact controlInv_accept i (hs.congr hu.controlPart) (hu.seq.trans hq)
  | illegal off v u hw hu hq hr hd => exact controlInv_illegalWord v (hs.congr hu.controlPart) (hu.seq.trans hq)
  | stored off v u hw hu hl hr => exact controlInv_regWrite (regOf off) v (hs.congr hu.controlPart)
  | read v d => exact hs.congr rfl
  | offer b => exact hs.congr rfl
  | take => exact controlInv_takeOut hp
  | reset rest hr => exact controlInv_hardReset _
  | initEnds hq => exact controlInv_endResetInit hp hq
  | waits => exact hp
  | rule i hq ho hr => exact controlInv_ruleOf hp hq ho hr

end Sys2Proof.Machine

namespace Sys2Proof.Machine

open Sys2Proof

/-! ### Writes that store -/

/-- A write to any register but CMD stores, while IDLE or where the register is not locked (R81, R84). -/
theorem step_write_store {s : State} {off : BitVec 8} {v : Word} {rest : List HostEvent} {r : Reg}
    (h : s.script = .write off v :: rest) (hr : regOf off = r)
    (hl : s.seq = .idle ∨ regLocked r = false) (hc : r ≠ .cmd) :
    step s = .next (regWrite r v { s with script := rest }) := by
  subst hr
  exact step_write h (busWrite_store (hl.imp_left fun hq => by simp [State.busy, hq]) hc)

/-- Settles O10: each offset is that of its register, and a write there while IDLE is `regWrite`. -/
theorem idleWritesStore : Obligations.IdleWritesStore := by
  unfold Obligations.IdleWritesStore
  intro s off v rest h hq
  have store : ∀ {c : BitVec 8} (r : Reg), off &&& 0xFC#8 = c → regOf c = r → r ≠ .cmd →
      step s = .next (regWrite r v { s with script := rest }) := fun r hc hr hne =>
    step_write_store h ((regOf_of_and hc).trans hr) (.inl hq) hne
  refine ⟨fun hc => ?_, fun hc => ⟨setLo s.bitCnt v, setLo_toNat _ _, ?_⟩,
    fun hc => ⟨setHi s.bitCnt v, setHi_toNat _ _, ?_⟩, fun hc => ?_, fun hc => ?_, fun hc => ?_, fun hc => ?_⟩
  · exact store .len hc rfl (by decide)
  · exact store .bitcntLo hc rfl (by decide)
  · exact store .bitcntHi hc rfl (by decide)
  · rw [store .freqIdx hc rfl (by decide), ← extractLsb'_zero]; rfl
  · rw [store .nodeIdx hc rfl (by decide), ← extractLsb'_zero]; rfl
  · rw [store .codeIdx hc rfl (by decide), ← extractLsb'_zero]; rfl
  · rw [store .codeWsel hc rfl (by decide), ← extractLsb'_zero]; rfl

/-- Settles O11: the two window registers set one half of the selected counter. -/
theorem frequencyWindowWrites : Obligations.FrequencyWindowWrites := by
  unfold Obligations.FrequencyWindowWrites
  intro s off v rest h hq hoff
  have others : ∀ (x : Count) (b : Byte), b ≠ s.freqIdx →
      tableGet (tableSet s.freq s.freqIdx x) b = tableGet s.freq b := fun x b hb =>
    tableGet_tableSet_ne s.freq x hb.symm
  rcases hoff with hc | hc
  · refine ⟨tableSet s.freq s.freqIdx (setLo (tableGet s.freq s.freqIdx) v),
      step_write_store h (r := .freqLo) (regOf_of_and hc) (.inl hq) (by decide), others _, fun _ => ?_, fun hc' => ?_⟩
    · rw [tableGet_tableSet_same, setLo_toNat]
    · rw [hc] at hc'; exact absurd hc' (by decide)
  · refine ⟨tableSet s.freq s.freqIdx (setHi (tableGet s.freq s.freqIdx) v),
      step_write_store h (r := .freqHi) (regOf_of_and hc) (.inl hq) (by decide), others _, fun hc' => ?_, fun _ => ?_⟩
    · rw [hc] at hc'; exact absurd hc' (by decide)
    · rw [tableGet_tableSet_same, setHi_toNat]

/-- A read of a register that is never a draw returns what the register reads, in every sequencer state
(R83, R85). -/
theorem step_read_undrawn {s : State} {off : BitVec 8} {rest : List HostEvent} {r : Reg}
    (h : s.script = .read off :: rest) (hr : regOf off = r) (hd : regDrawnWhileBusy r = false) (hs : r ≠ .status) :
    step s = .next { s with script := rest, reads := s.reads ++ [regRead r s] } := by
  subst hr
  have e : busRead off { s with script := rest } =
      logRead (regRead (regOf off) { s with script := rest }) { s with script := rest } := by
    simp [busRead, hd, hs]
  rw [step_read h, e, regRead_script]
  rfl

/-- Settles O9: ACK is not locked and its reads are no draws, so the sequencer state does not matter; while
BUSY the invariant says that DONE, ERR and ERRCODE are clear already. -/
theorem ackClearsTheReport : Obligations.AckClearsTheReport := by
  unfold Obligations.AckClearsTheReport
  refine ⟨fun s off v rest h hoff => ?_, fun s off rest h hoff => ?_⟩
  · have e : step s = .next (ackWrite v { s with script := rest }) :=
      step_write_store h (r := .ack) (regOf_of_and hoff) (.inr rfl) (by decide)
    refine ⟨fun hv => ?_, fun hv => ?_, fun hv hs hq => ?_⟩
    · rw [e, ackWrite_of_bit _ hv]
    · rw [e, ackWrite_of_no_bit _ hv]
    · obtain ⟨hdone, herr, hcode, -, -⟩ := hs.busyClean hq
      rw [e, ackWrite_of_bit _ hv]
      simp [hdone, herr, hcode]
  · exact step_read_undrawn h (r := .ack) (regOf_of_and hoff) rfl (by decide)

/-! ### The words that registers show -/

theorem ie_word_toNat (b : Bool) : (0#31 ++ bit b).toNat = b.toNat := by
  cases b <;> rfl

/-- Zeros in front of a word do not change its number. -/
theorem zero_append_toNat {n m : Nat} (v : BitVec m) : (0#n ++ v).toNat = v.toNat := by
  simp

theorem nDistinct_eq_length (freq : Vector Count 256) :
    nDistinct freq = (allBytes.filter (fun b => decide (tableGet freq b ≠ 0#64))).length := by
  rw [nDistinct, List.countP_eq_length_filter]
  congr 2
  funext b
  by_cases h : tableGet freq b = 0#64 <;> simp [h]

theorem nDistinct_le (freq : Vector Count 256) : nDistinct freq ≤ 256 :=
  List.countP_le_length.trans (by simp [allBytes])

theorem ndistinct_word_toNat (freq : Vector Count 256) :
    (0#23 ++ BitVec.ofNat 9 (nDistinct freq)).toNat = nDistinct freq := by
  have := nDistinct_le freq
  rw [zero_append_toNat, BitVec.toNat_ofNat, Nat.mod_eq_of_lt (by omega)]

/-- What an access at an offset reads is what the register of its word reads (R81). -/
theorem regRead_of_and {s : State} {off c : BitVec 8} {r : Reg} (hc : off &&& 0xFC#8 = c) (hr : regOf c = r) :
    regRead (regOf off) s = regRead r s := by
  rw [regOf_of_and hc, hr]

/-- Settles O12: a read while IDLE returns `regRead`, and each word is taken apart as its number. -/
theorem idleReadsOfRegisters : Obligations.IdleReadsOfRegisters := by
  unfold Obligations.IdleReadsOfRegisters
  intro s off rest h hq
  have word {c : BitVec 8} (r : Reg) := regRead_of_and (s := s) (off := off) (c := c) (r := r)
  refine ⟨_, step_read_idle h hq, fun hc => ?_, fun hc => ?_, fun hc => ?_, fun hc => ?_, fun hc => ?_, fun hc => ?_,
    fun hc => ?_, fun hc => ?_, fun hc => ?_, fun hc => ?_, fun hc => ?_, fun hc => ?_, fun hc => ?_, fun hc => ?_,
    fun hc => ?_, fun hc => ?_, fun hc => ?_, fun hc => ?_, fun hc => ?_, fun hc => ?_⟩
  · rw [word .id hc rfl]; rfl
  · rw [word .cmd hc rfl]; rfl
  · rw [word .ack hc rfl]; rfl
  · rw [word .irqEn hc rfl]; exact ie_word_toNat _
  · rw [word .len hc rfl]; rfl
  · rw [word .bitcntLo hc rfl]; exact loWord_toNat _
  · rw [word .bitcntHi hc rfl]; exact hiWord_toNat _
  · rw [word .outcntLo hc rfl]; exact loWord_toNat _
  · rw [word .outcntHi hc rfl]; exact hiWord_toNat _
  · rw [word .errinfo hc rfl]; rfl
  · rw [word .errposLo hc rfl]; exact loWord_toNat _
  · rw [word .errposHi hc rfl]; exact hiWord_toNat _
  · rw [word .ndistinct hc rfl]; exact (ndistinct_word_toNat _).trans (nDistinct_eq_length _)
  · rw [word .freqIdx hc rfl]; exact zero_append_toNat _
  · rw [word .freqLo hc rfl]; exact loWord_toNat _
  · rw [word .freqHi hc rfl]; exact hiWord_toNat _
  · rw [word .nodeIdx hc rfl]; exact zero_append_toNat _
  · rw [word .codeIdx hc rfl]; exact zero_append_toNat _
  · rw [word .codeWsel hc rfl]; exact zero_append_toNat _
  · rw [regOf_reserved hc]; rfl

end Sys2Proof.Machine

namespace Sys2Proof.Machine

open Sys2Proof

/-! ### STATUS -/

/-- STATUS as a concatenation of its own width (R26). -/
theorem statusWord_getLsbD (s : State) (j : Nat) :
    s.statusWord.getLsbD j =
      (0#16 ++ s.lastOp ++ 0#2 ++ bit s.ctValid ++ bit s.treeValid ++ s.errCode.bits
        ++ bit s.reject ++ bit s.err ++ bit s.done ++ bit s.busy).getLsbD j := rfl

/-- The STATUS word bit by bit (R26). -/
theorem statusWord_fields (s : State) :
    s.statusWord.getLsbD 0 = s.busy ∧ s.statusWord.getLsbD 1 = s.done ∧ s.statusWord.getLsbD 2 = s.err ∧
    s.statusWord.getLsbD 3 = s.reject ∧ s.statusWord.extractLsb' 4 4 = s.errCode.bits ∧
    s.statusWord.getLsbD 8 = s.treeValid ∧ s.statusWord.getLsbD 9 = s.ctValid ∧
    s.statusWord.extractLsb' 10 2 = 0#2 ∧ s.statusWord.extractLsb' 12 4 = s.lastOp ∧
    s.statusWord.extractLsb' 16 16 = 0#16 := by
  refine ⟨?_, ?_, ?_, ?_, ?_, ?_, ?_, ?_, ?_, ?_⟩
  case refine_5 | refine_8 | refine_9 | refine_10 =>
    apply BitVec.eq_of_getLsbD_eq
    intro j hj
    rw [BitVec.getLsbD_extractLsb', statusWord_getLsbD]
    simp only [BitVec.getLsbD_append]
    grind
  all_goals
    rw [statusWord_getLsbD]
    simp only [BitVec.getLsbD_append]
    simp
/-- Settles O13: STATUS is not stored, so the read returns `statusWord`. -/
theorem statusWordFields : Obligations.StatusWordFields := by
  unfold Obligations.StatusWordFields
  refine ⟨fun s off rest h hq hoff => ⟨s.statusWord, ?_, ?_⟩, rfl, rfl, rfl, rfl, rfl, rfl, rfl, rfl⟩
  · rw [step_read_idle h hq, regOf_of_and hoff]
    rfl
  · have hb : s.busy = false := by simp [State.busy, hq]
    rw [← hb]
    exact statusWord_fields s

/-! ### The node window -/

theorem windowNode_live {s : State} {n : Node} (hv : s.treeValid = true) (hi : s.nodeIdx.toNat ≤ s.root.toNat)
    (hn : s.node[s.nodeIdx.toNat]? = some n) : s.windowNode = some n := by
  rw [State.windowNode, if_pos (by simpa [hv, BitVec.le_def] using hi)]
  exact hn

theorem windowNode_not_live {s : State} (h : s.treeValid = false ∨ s.root.toNat < s.nodeIdx.toNat) :
    s.windowNode = none := by
  rw [State.windowNode, if_neg]
  rcases h with h | h
  · simp [h]
  · simp [BitVec.le_def, h]

theorem nodeInfoWord_leaf {n : Node} (h : n.kind = .leaf) :
    (nodeInfoWord (some n)).toNat = n.value.toNat * 2 ^ 8 + 1 := by
  simp only [nodeInfoWord, h, append_toNat, BitVec.toNat_ofNat]
  omega

theorem nodeInfoWord_internal {n : Node} (h : n.kind = .internal) : nodeInfoWord (some n) = 3#32 := by
  simp only [nodeInfoWord, h]
  rfl

theorem nodeLink0Word_toNat (n : Node) :
    (nodeLink0Word (some n)).toNat = n.right.toNat * 2 ^ 16 + n.left.toNat := by
  simp only [nodeLink0Word, append_toNat, BitVec.toNat_ofNat]
  omega

theorem weight_word_toNat (w : Weight) (i : Nat) :
    (w.extractLsb' i 32).toNat = w.toNat / 2 ^ i % 2 ^ 32 := by
  rw [BitVec.extractLsb'_toNat, Nat.shiftRight_eq_div_pow]

theorem weight_top_toNat (w : Weight) :
    ((0#24 ++ w.extractLsb' 64 8 : Word)).toNat = w.toNat / 2 ^ 64 := by
  have := w.isLt
  rw [zero_append_toNat, BitVec.extractLsb'_toNat, Nat.shiftRight_eq_div_pow]
  omega

/-- TREE_INFO (R42). -/
theorem treeInfo_toNat {s : State} (h : s.treeValid = true) :
    (regRead .treeInfo s).toNat = s.nLeaf.toNat * 2 ^ 16 + s.root.toNat := by
  simp only [regRead, h, if_true, append_toNat, BitVec.toNat_ofNat]
  omega

/-- Settles O14: a live node is shown field by field, and one that is not live as zeros and NULL. -/
theorem treeWindowReads : Obligations.TreeWindowReads := by
  unfold Obligations.TreeWindowReads
  intro s off rest h hq
  have word {c : BitVec 8} (r : Reg) := regRead_of_and (s := s) (off := off) (c := c) (r := r)
  refine ⟨regRead (regOf off) s, fun _ => step_read_idle h hq, fun hc => ?_, fun n hv hi hn => ?_, fun hdead => ?_⟩
  · rw [word .treeInfo hc rfl]
    refine ⟨treeInfo_toNat, fun hv => ?_⟩
    simp only [regRead, hv]
    rfl
  · have hw := windowNode_live hv hi hn
    refine ⟨fun hc => ?_, fun hc => ?_, fun hc => ?_, fun hc => ?_, fun hc => ?_, fun hc => ?_⟩
    · rw [word .nodeInfo hc rfl, regRead, hw]
      exact ⟨nodeInfoWord_leaf, nodeInfoWord_internal⟩
    · rw [word .nodeLink0 hc rfl, regRead, hw]; exact nodeLink0Word_toNat n
    · rw [word .nodeLink1 hc rfl, regRead, hw]; exact zero_append_toNat _
    · rw [word .nodeW0 hc rfl, regRead, hw, weight_word_toNat, Nat.pow_zero, Nat.div_one]; rfl
    · rw [word .nodeW1 hc rfl, regRead, hw]; exact weight_word_toNat _ _
    · rw [word .nodeW2 hc rfl, regRead, hw]; exact weight_top_toNat _
  · have hw := windowNode_not_live hdead
    refine ⟨fun hc => ?_, fun hc => ?_, fun hc => ?_, fun hc => ?_⟩
    · rw [word .nodeInfo hc rfl, regRead, hw]; rfl
    · rw [word .nodeLink0 hc rfl, regRead, hw]; rfl
    · rw [word .nodeLink1 hc rfl, regRead, hw]; rfl
    · simp only [List.mem_cons, List.not_mem_nil, or_false] at hc
      rcases hc with hc | hc | hc
      · rw [word .nodeW0 hc rfl, regRead, hw]; rfl
      · rw [word .nodeW1 hc rfl, regRead, hw]; rfl
      · rw [word .nodeW2 hc rfl, regRead, hw]; rfl

/-! ### The code window -/

theorem codeInfo_toNat {s : State} (h : s.codeShown = true) :
    (regRead .codeInfo s).toNat = (tableGet s.code s.codeIdx).len.toNat * 2 ^ 8 + 1 := by
  simp only [regRead, h, if_true, append_toNat, BitVec.toNat_ofNat]
  omega

/-- Settles O15: both words are 0 unless the selected code is shown. -/
theorem codeWindowReads : Obligations.CodeWindowReads := by
  unfold Obligations.CodeWindowReads
  intro s off rest h hq hoff
  have hreg : regOf off = .codeInfo ∨ regOf off = .codeWord := hoff.imp regOf_of_and regOf_of_and
  refine ⟨_, step_read_idle h hq, fun hv hp => ?_, fun hn => ?_⟩
  · have hs : s.codeShown = true := by simp [State.codeShown, hv, hp]
    refine ⟨fun hc => ?_, fun hc j hj => ?_⟩
    · rw [regOf_of_and hc]; exact codeInfo_toNat hs
    · rw [regOf_of_and hc]
      simp [regRead, regOf, hs, hj]
  · have hs : s.codeShown = false := by rcases hn with e | e <;> simp [State.codeShown, e]
    rcases hreg with e | e
    · rw [e, regRead, hs]; rfl
    · rw [e, regRead, hs]; rfl

/-! ### The engine's turn -/

theorem engineTurn_run {s : State} {i : Instr} (h : s.seq = .run i) : engineTurn s = (some i, s) := by
  unfold engineTurn
  rw [h]

/-- Settles O5. -/
theorem stepRunsTheRunningCommand : Obligations.StepRunsTheRunningCommand := by
  unfold Obligations.StepRunsTheRunningCommand
  intro s i hq
  refine ⟨fun hs => step_of_turn_some ?_, fun rest hs => step_of_turn_some ?_⟩
  · unfold turn
    rw [hs]
    exact engineTurn_run hq
  · unfold turn
    rw [hs]
    exact engineTurn_run (s := { s with script := rest }) hq

/-! ### Reset -/

/-- Settles O17: the two tables are constant, and every other value is a field of `State.reset`. -/
theorem resetValues : Obligations.ResetValues := by
  unfold Obligations.ResetValues
  exact ⟨rfl, rfl, rfl, rfl, rfl, rfl, rfl, rfl, rfl, rfl, rfl, rfl, rfl, rfl, rfl, rfl, rfl, rfl, rfl,
    tableGet_replicate _, rfl, rfl, tableGet_replicate _, rfl, rfl, rfl, rfl⟩

/-- Settles O50: a reset edge leaves the control invariant, no tree and no code table are valid, and no command runs. -/
theorem invariantAtReset : Obligations.InvariantAtReset where
  control := controlInv_hardReset State.reset
  tree := nofun
  codes := nofun
  cursor := nofun

end Sys2Proof.Machine

namespace Sys2Proof.Machine

open Sys2Proof

/-! ### Who leaves IDLE, and who sets and clears REJECT -/

@[simp] theorem seq_regWrite (r : Reg) (v : Word) (s : State) : (regWrite r v s).seq = s.seq := by
  cases r with
  | ack => exact (congrArg State.seq (dataPart_ackWrite v s) :)
  | _ => rfl

@[simp] theorem seq_takeOut (s : State) : (takeOut s).seq = s.seq := by
  unfold takeOut; split <;> rfl

@[simp] theorem reject_takeOut (s : State) : (takeOut s).reject = s.reject := by
  unfold takeOut; split <;> rfl

/-- A stored write leaves REJECT alone, unless it is ACK with bit 0 = 1 (R30, R33). -/
theorem reject_regWrite (r : Reg) (v : Word) (s : State) :
    (regWrite r v s).reject = s.reject ∨
      (r = .ack ∧ v.getLsbD 0 = true ∧ (regWrite r v s).reject = false) := by
  cases r with
  | ack =>
    cases hv : v.getLsbD 0 with
    | false => exact .inl (by rw [regWrite, ackWrite_of_no_bit s hv])
    | true => exact .inr ⟨rfl, rfl, by rw [regWrite, ackWrite_of_bit s hv]⟩
  | _ => exact .inl rfl

/-- A rule's step keeps the sequencer state or is a `finish`. -/
theorem ruleOf_next_seq {i : Instr} {s t : State} (h : ruleOf i s = .next t) :
    t.seq = s.seq ∨ (t.seq = .idle ∧ t.done = true) := by
  rcases ruleOf_next_frame h with hf | ⟨u, rfl, -⟩
  · exact .inl (seq_of_frame hf)
  · exact .inr ⟨rfl, rfl⟩

theorem ruleOf_next_reject {i : Instr} {s t : State} (h : ruleOf i s = .next t) : t.reject = s.reject := by
  rcases ruleOf_next_frame h with hf | ⟨u, rfl, hf⟩
  · exact reject_of_frame hf
  · exact (reject_of_frame hf :)

/-- Settles O56: an accepted word and a reset are the only steps from IDLE to another state, and a rule's
`finish` and the end of RESET_INIT the only ones back. -/
theorem onlyLegalWordsLeaveIdle : Obligations.OnlyLegalWordsLeaveIdle := by
  unfold Obligations.OnlyLegalWordsLeaveIdle
  intro s t h
  have same : t.seq = s.seq → ∀ {P Q : Prop},
      (s.seq = .idle → t.seq ≠ .idle → P) ∧ (s.seq ≠ .idle → t.seq = .idle → Q) := fun e =>
    ⟨fun hq hn => absurd (e.trans hq) hn, fun hn hq => absurd (e.symm.trans hq) hn⟩
  cases step_to h with
  | rejected off v u hw hu hb hl => exact same hu.seq
  | accepted off v i u hw hu hq hr hd =>
    obtain ⟨rest, hs⟩ := hw
    exact ⟨fun _ _ => .inl ⟨off, v, rest, i, hs, and_of_regOf hr (by decide), hd, rfl⟩, fun hn => absurd hq hn⟩
  | illegal off v u hw hu hq hr hd => exact ⟨fun _ hn => absurd rfl hn, fun hn => absurd hq hn⟩
  | stored off v u hw hu hl hr => exact same ((seq_regWrite ..).trans hu.seq)
  | read v d => exact same rfl
  | offer b => exact same rfl
  | take => exact same (seq_takeOut _)
  | reset rest hr => exact ⟨fun _ _ => .inr ⟨rfl, rest, hr⟩, fun _ => nofun⟩
  | initEnds hq => exact ⟨fun _ hn => absurd rfl hn, fun _ _ => .inr hq⟩
  | waits => exact same rfl
  | rule i hq ho hr =>
    rcases ruleOf_next_seq hr with e | ⟨hi, hdone⟩
    · exact same e
    · exact ⟨fun _ hn => absurd hi hn, fun _ _ => .inl hdone⟩

/-- The offsets of the locked registers (R84). -/
theorem offset_of_locked {off : BitVec 8} (h : regLocked (regOf off) = true) :
    off &&& 0xFC#8 ∈ [0x04#8, 0x14#8, 0x18#8, 0x1C#8, 0x38#8, 0x3C#8, 0x40#8, 0x48#8, 0x64#8, 0x68#8] := by
  revert off
  decide +kernel

/-- Settles O58: a rejected write is the only step that sets REJECT, ACK and reset are the only ones that
clear it. -/
theorem rejectIsSticky : Obligations.RejectIsSticky := by
  unfold Obligations.RejectIsSticky
  intro s t h
  have same : t.reject = s.reject → ∀ {P Q : Prop},
      (s.reject = false → t.reject = true → P) ∧ (s.reject = true → t.reject = false → Q) := fun e =>
    ⟨fun h0 h1 => by simp [e, h0] at h1, fun h1 h0 => by simp [e, h1] at h0⟩
  cases step_to h with
  | rejected off v u hw hu hb hl =>
    obtain ⟨rest, hs⟩ := hw
    exact ⟨fun _ _ => ⟨hb, off, v, rest, hs, offset_of_locked hl⟩, fun _ => nofun⟩
  | accepted off v i u hw hu hq hr hd => exact same hu.reject
  | illegal off v u hw hu hq hr hd => exact same (by rw [illegalWord_eq]; exact hu.reject)
  | stored off v u hw hu hl hr =>
    rcases reject_regWrite (regOf off) v u with e | ⟨hack, hv, hclear⟩
    · exact same (e.trans hu.reject)
    · obtain ⟨rest, hs⟩ := hw
      exact ⟨fun _ h1 => by simp [hclear] at h1,
        fun _ _ => .inr ⟨off, v, rest, hs, and_of_regOf hack (by decide), hv⟩⟩
  | read v d => exact same rfl
  | offer b => exact same rfl
  | take => exact same (reject_takeOut _)
  | reset rest hr => exact ⟨fun _ => nofun, fun _ _ => .inl ⟨rest, hr⟩⟩
  | initEnds hq => exact same rfl
  | waits => exact same rfl
  | rule i hq ho hr => exact same (ruleOf_next_reject hr :)

end Sys2Proof.Machine

/-! ### BUILD_TREE makes a tree

Seeding leaves a queue of leaves without parents (`Seeded`); such a queue is a forest of `n` trees over the
nodes made so far (`Forest`), each merge joins two of them under the next node, and what is left after `n − 1`
merges is one tree (R53, R195, R196, R202). -/

namespace Sys2Proof.Machine

open Sys2Proof

theorem nodeIdx_toNat {i : Nat} (h : i < 512) : (BitVec.ofNat 9 i : NodeIdx).toNat = i := by
  rw [BitVec.toNat_ofNat, Nat.mod_eq_of_lt h]

theorem getElem?_nodeSet (t : Vector Node 511) {i : NodeIdx} (x : Node) (j : Nat) (hi : i.toNat < 511) :
    (nodeSet t i x)[j]? = if j = i.toNat then some x else t[j]? := by
  rw [nodeSet, Vector.getElem?_setIfInBounds]
  by_cases h : i.toNat = j
  · subst h; simp [hi]
  · rw [if_neg h, if_neg (Ne.symm h)]

theorem getElem?_setParent (t : Vector Node 511) (i p : NodeIdx) (j : Nat) :
    (setParent t i p)[j]? = if j = i.toNat then (t[j]?).map (fun a => { a with parent := p }) else t[j]? := by
  unfold setParent
  split
  · next n hn =>
    rw [getElem?_nodeSet t _ j (nodeGet_lt hn)]
    split
    · next hj => subst hj; rw [show t[i.toNat]? = some n from hn]; rfl
    · rfl
  · next hn =>
    split
    · next hj => subst hj; rw [show t[i.toNat]? = none from hn]; rfl
    · rfl

theorem pqInsert_perm (t : Vector Node 511) (i : NodeIdx) (q : List NodeIdx) : (pqInsert t i q).Perm (i :: q) := by
  induction q with
  | nil => exact .refl _
  | cons j q ih =>
    unfold pqInsert
    split
    · exact .refl _
    · exact (ih.cons j).trans (.swap i j q)

/-! #### Seeding -/

/-- The byte values of a list whose counter is not zero, in their order. -/
def presentIn (freq : Vector Count 256) (l : List Byte) : List Byte :=
  l.filter (fun b => decide (tableGet freq b ≠ 0#64))

/-- What seeding has done after the byte values of `l` (R195). -/
structure Seeded (freq : Vector Count 256) (l : List Byte) (b : Builder) : Prop where
  leaves : b.leaves = (presentIn freq l).length
  nodes : ∀ (k : Nat) (v : Byte), (presentIn freq l)[k]? = some v → b.node[k]? = some (leafNode v (tableGet freq v))
  nodup : b.pq.Nodup
  queued : ∀ j : NodeIdx, j ∈ b.pq ↔ j.toNat < b.leaves
  length : b.pq.length = b.leaves

theorem seeded_nil (freq : Vector Count 256) (node : Vector Node 511) (pend : ErrReport) :
    Seeded freq [] { node := node, pq := [], pend := pend, leaves := 0 } where
  leaves := rfl
  nodes := by simp [presentIn]
  nodup := .nil
  queued := by simp
  length := rfl

theorem presentIn_append (freq : Vector Count 256) (l : List Byte) (v : Byte) :
    presentIn freq (l ++ [v]) = if tableGet freq v = 0#64 then presentIn freq l else presentIn freq l ++ [v] := by
  by_cases h : tableGet freq v = 0#64 <;> simp [presentIn, h]

theorem seeded_seedByte {freq : Vector Count 256} {l : List Byte} {b : Builder} (h : Seeded freq l b) (v : Byte)
    (hl : (presentIn freq l).length < 511) : Seeded freq (l ++ [v]) (seedByte freq b v) := by
  obtain ⟨hleaves, hnodes, hnodup, hqueued, hlength⟩ := h
  unfold seedByte
  by_cases hv : tableGet freq v = 0#64
  · have hp : presentIn freq (l ++ [v]) = presentIn freq l := by rw [presentIn_append, if_pos hv]
    rw [if_pos hv]
    exact ⟨hp ▸ hleaves, hp ▸ hnodes, hnodup, hqueued, hlength⟩
  · have hp : presentIn freq (l ++ [v]) = presentIn freq l ++ [v] := by rw [presentIn_append, if_neg hv]
    rw [if_neg hv]
    have hi : (BitVec.ofNat 9 b.leaves : NodeIdx).toNat = b.leaves := nodeIdx_toNat (by omega)
    have perm := pqInsert_perm (nodeSet b.node (BitVec.ofNat 9 b.leaves) (leafNode v (tableGet freq v)))
      (BitVec.ofNat 9 b.leaves) b.pq
    refine ⟨by simp [hp, hleaves], fun k u hk => ?_, ?_, fun j => ?_, ?_⟩
    · rw [getElem?_nodeSet _ _ _ (by omega), hi]
      rw [hp] at hk
      split
      · next e =>
        subst e
        rw [hleaves, List.getElem?_append_right le_rfl] at hk
        obtain rfl : v = u := by simpa using hk
        rfl
      · next e =>
        have hlt : k < (presentIn freq l).length := by
          have := (List.getElem?_eq_some_iff.mp hk).1
          simp only [List.length_append, List.length_cons, List.length_nil] at this
          omega
        rw [List.getElem?_append_left hlt] at hk
        exact hnodes k u hk
    · rw [perm.nodup_iff, List.nodup_cons, hqueued]
      exact ⟨by omega, hnodup⟩
    · rw [perm.mem_iff, List.mem_cons, hqueued]
      constructor
      · rintro (rfl | hj)
        · show _ < b.leaves + 1
          omega
        · exact Nat.lt_succ_of_lt hj
      · intro hj
        rcases Nat.lt_succ_iff_lt_or_eq.mp hj with hj | hj
        · exact .inr hj
        · exact .inl (BitVec.eq_of_toNat_eq (hj.trans hi.symm))
    · rw [perm.length_eq, List.length_cons, hlength]

theorem length_presentIn_le (freq : Vector Count 256) (l : List Byte) : (presentIn freq l).length ≤ l.length :=
  List.length_filter_le ..

theorem seeded_foldl (freq : Vector Count 256) (node : Vector Node 511) (pend : ErrReport) (l : List Byte)
    (hl : l.length < 512) :
    Seeded freq l (l.foldl (seedByte freq) { node := node, pq := [], pend := pend, leaves := 0 }) := by
  induction l using List.reverseRecOn with
  | nil => exact seeded_nil freq node pend
  | append_singleton l v ih =>
    rw [List.length_append, List.length_singleton] at hl
    have := length_presentIn_le freq l
    rw [List.foldl_concat]
    exact seeded_seedByte (ih (by omega)) v (by omega)

theorem length_allBytes : allBytes.length = 256 := by simp [allBytes]

theorem seeded_seedAll (freq : Vector Count 256) (node : Vector Node 511) (pend : ErrReport) :
    Seeded freq allBytes (seedAll freq node pend) :=
  seeded_foldl freq node pend allBytes (by simp [length_allBytes])

theorem nDistinct_eq_present (freq : Vector Count 256) : nDistinct freq = (presentIn freq allBytes).length :=
  nDistinct_eq_length freq

/-- The byte values ascend, and so do those that are present. -/
theorem pairwise_presentIn (freq : Vector Count 256) :
    (presentIn freq allBytes).Pairwise (fun a b => a.toNat < b.toNat) := by
  refine List.Pairwise.filter _ ?_
  rw [allBytes, List.pairwise_map]
  refine List.pairwise_lt_range.imp_of_mem fun ha hb hab => ?_
  rw [List.mem_range] at ha hb
  rwa [BitVec.toNat_ofNat, BitVec.toNat_ofNat, Nat.mod_eq_of_lt (by omega), Nat.mod_eq_of_lt (by omega)]

end Sys2Proof.Machine

namespace Sys2Proof.Machine

open Sys2Proof

/-! #### Merging -/

/-- Nodes `0 … z − 1` form a forest over `n` leaves, whose roots are the entries of the queue `q`. -/
structure Forest (t : Vector Node 511) (n z : Nat) (q : List NodeIdx) : Prop where
  leaves : ∀ i, i < n → NodeIs t i (fun a => a.kind = .leaf ∧ a.left = Config.null ∧ a.right = Config.null)
  ascending : ∀ i j, i < j → j < n → ∀ a b, t[i]? = some a → t[j]? = some b → a.value.toNat < b.value.toNat
  internals : ∀ i, n ≤ i → i < z →
    NodeIs t i (fun a => a.kind = .internal ∧ a.left.toNat < i ∧ a.right.toNat < i ∧ a.left ≠ a.right)
  linked : ∀ i, i < z → NodeIs t i (fun a =>
    (BitVec.ofNat 9 i ∈ q ∧ a.parent = Config.null) ∨
    (BitVec.ofNat 9 i ∉ q ∧ i < a.parent.toNat ∧ a.parent.toNat < z ∧
      NodeIs t a.parent.toNat (fun p => p.left.toNat = i ∨ p.right.toNat = i)))
  children : ∀ i, n ≤ i → i < z → ∀ a, t[i]? = some a → ∀ b c,
    t[(childOf a b).toNat]? = some c → c.parent.toNat = i
  nodup : q.Nodup
  queued : ∀ j ∈ q, j.toNat < z
  length : q.length + z = 2 * n

/-- What seeding leaves is a forest of single leaves. -/
theorem Seeded.forest {freq : Vector Count 256} {b : Builder} (h : Seeded freq allBytes b) :
    Forest b.node b.leaves b.leaves b.pq := by
  obtain ⟨hleaves, hnodes, hnodup, hqueued, hlength⟩ := h
  have hn : b.leaves ≤ 256 := by
    have := length_presentIn_le freq allBytes
    rw [length_allBytes] at this
    omega
  have leaf : ∀ i, (hi : i < b.leaves) →
      b.node[i]? = some (leafNode ((presentIn freq allBytes)[i]'(hleaves ▸ hi)) (tableGet freq
        ((presentIn freq allBytes)[i]'(hleaves ▸ hi)))) := fun i hi =>
    hnodes i _ (List.getElem?_eq_getElem _)
  refine ⟨fun i hi => ⟨_, leaf i hi, rfl, rfl, rfl⟩, fun i j hij hj a c ha hc => ?_, fun i hi hi' => by omega,
    fun i hi => ⟨_, leaf i hi, .inl ⟨?_, rfl⟩⟩, fun i hi hi' => by omega, hnodup,
    fun j hj => (hqueued j).mp hj, by omega⟩
  · rw [leaf i (by omega)] at ha
    rw [leaf j hj] at hc
    cases ha
    cases hc
    exact List.pairwise_iff_getElem.mp (pairwise_presentIn freq) i j _ _ hij
  · rw [hqueued, nodeIdx_toNat (by omega)]
    exact hi

/-- `t'` is `t` with node `z` made over `x` and `y`, which get it as their parent. -/
structure Merged (t t' : Vector Node 511) (x y z : NodeIdx) : Prop where
  made : t'[z.toNat]? = some (internalNode (weightOf t x + weightOf t y) x y)
  kept : ∀ (i : Nat) (a : Node), i ≠ z.toNat → t[i]? = some a →
    t'[i]? = some (if i = x.toNat ∨ i = y.toNat then { a with parent := z } else a)

/-- The arena that a merge of `x` and `y` into `z` leaves (R196). -/
def mergedNodes (t : Vector Node 511) (x y z : NodeIdx) : Vector Node 511 :=
  setParent (setParent (nodeSet t z (internalNode (weightOf t x + weightOf t y) x y)) x z) y z

theorem merged_mergedNodes (t : Vector Node 511) {x y z : NodeIdx} (hz : z.toNat < 511) (hx : x ≠ z) (hy : y ≠ z) :
    Merged t (mergedNodes t x y z) x y z := by
  have hx' : z.toNat ≠ x.toNat := fun e => hx (BitVec.eq_of_toNat_eq e.symm)
  have hy' : z.toNat ≠ y.toNat := fun e => hy (BitVec.eq_of_toNat_eq e.symm)
  unfold mergedNodes
  refine ⟨?_, fun i a hi ha => ?_⟩
  · rw [getElem?_setParent, if_neg hy', getElem?_setParent, if_neg hx', getElem?_nodeSet _ _ _ hz, if_pos rfl]
  · rw [getElem?_setParent, getElem?_setParent, getElem?_nodeSet _ _ _ hz, if_neg hi, ha]
    by_cases h1 : i = x.toNat
    · rw [if_pos h1, if_pos (Or.inl h1)]
      split <;> rfl
    · rw [if_neg h1]
      by_cases h2 : i = y.toNat
      · rw [if_pos h2, if_pos (Or.inr h2)]; rfl
      · rw [if_neg h2, if_neg (not_or.mpr ⟨h1, h2⟩)]

theorem Forest.exists_node {t : Vector Node 511} {n z i : Nat} {q : List NodeIdx} (h : Forest t n z q) (hi : i < z) :
    ∃ a, t[i]? = some a :=
  have ⟨a, ha, _⟩ := h.linked i hi
  ⟨a, ha⟩

/-- The roots of the forest have no parent. -/
theorem Forest.parent_of_mem {t : Vector Node 511} {n z : Nat} {q : List NodeIdx} (h : Forest t n z q) {j : NodeIdx}
    (hj : j ∈ q) {a : Node} (ha : t[j.toNat]? = some a) : a.parent = Config.null := by
  obtain ⟨b, hb, hl⟩ := h.linked j.toNat (h.queued j hj)
  cases ha.symm.trans hb
  rw [BitVec.ofNat_toNat, BitVec.setWidth_eq] at hl
  rcases hl with ⟨-, hp⟩ | ⟨hn, -⟩
  · exact hp
  · exact absurd hj hn

section Merge

variable {t t' : Vector Node 511} {n : Nat} {x y z : NodeIdx} {qs q' : List NodeIdx}

theorem Merged.nodeIs {P : Node → Prop} (h : Merged t t' x y z) {i : Nat} (hi : i < z.toNat)
    (hP : ∀ a p, P a → P { a with parent := p }) (hn : NodeIs t i P) : NodeIs t' i P := by
  obtain ⟨a, ha, hpa⟩ := hn
  refine ⟨_, h.kept i a (by omega) ha, ?_⟩
  split
  · exact hP a _ hpa
  · exact hpa

/-- A node below the new one is what it was, up to its parent. -/
theorem Merged.old (h : Merged t t' x y z) {q : List NodeIdx} (hf : Forest t n z.toNat q) {i : Nat} (hi : i < z.toNat)
    {a' : Node} (ha : t'[i]? = some a') :
    ∃ a, t[i]? = some a ∧ a' = if i = x.toNat ∨ i = y.toNat then { a with parent := z } else a := by
  obtain ⟨a, e⟩ := hf.exists_node hi
  exact ⟨a, e, Option.some.inj (ha.symm.trans (h.kept i a (by omega) e))⟩

variable (hf : Forest t n z.toNat (x :: y :: qs)) (hm : Merged t t' x y z) (hq : q'.Perm (z :: qs))

include hf hm

theorem Forest.merge_ascending (hnz : n ≤ z.toNat) (i j : Nat) (hij : i < j) (hj : j < n) (a b : Node)
    (ha : t'[i]? = some a) (hb : t'[j]? = some b) : a.value.toNat < b.value.toNat := by
  obtain ⟨a0, ha0, rfl⟩ := hm.old hf (by omega) ha
  obtain ⟨b0, hb0, rfl⟩ := hm.old hf (by omega) hb
  have := hf.ascending i j hij hj a0 b0 ha0 hb0
  split <;> split <;> exact this

theorem Forest.merge_internals (i : Nat) (hn : n ≤ i) (hi : i < z.toNat + 1) :
    NodeIs t' i (fun a => a.kind = .internal ∧ a.left.toNat < i ∧ a.right.toNat < i ∧ a.left ≠ a.right) := by
  rcases Nat.lt_succ_iff_lt_or_eq.mp hi with hi | rfl
  · exact hm.nodeIs hi (fun _ _ h => h) (hf.internals i hn hi)
  · refine ⟨_, hm.made, rfl, hf.queued x (by simp), hf.queued y (by simp), ?_⟩
    have hnodup := hf.nodup
    rw [List.nodup_cons] at hnodup
    exact fun e : x = y => hnodup.1 (by simp [e])

include hq in
theorem Forest.merge_linked (hz : z.toNat < 511) (i : Nat) (hi : i < z.toNat + 1) : NodeIs t' i (fun a =>
    (BitVec.ofNat 9 i ∈ q' ∧ a.parent = Config.null) ∨
    (BitVec.ofNat 9 i ∉ q' ∧ i < a.parent.toNat ∧ a.parent.toNat < z.toNat + 1 ∧
      NodeIs t' a.parent.toNat (fun p => p.left.toNat = i ∨ p.right.toNat = i))) := by
  obtain ⟨hxy, hyqs, -⟩ : x ∉ y :: qs ∧ y ∉ qs ∧ qs.Nodup := by
    simpa only [List.nodup_cons] using hf.nodup
  rcases Nat.lt_succ_iff_lt_or_eq.mp hi with hi | rfl
  · have hii : (BitVec.ofNat 9 i : NodeIdx).toNat = i := nodeIdx_toNat (by omega)
    have hne : (BitVec.ofNat 9 i : NodeIdx) ≠ z := fun e => by rw [e] at hii; omega
    have mem_q' : BitVec.ofNat 9 i ∈ q' ↔ BitVec.ofNat 9 i ∈ qs := by simp [hq.mem_iff, hne]
    obtain ⟨a, ha, hl⟩ := hf.linked i hi
    refine ⟨_, hm.kept i a (by omega) ha, ?_⟩
    by_cases hc : i = x.toNat ∨ i = y.toNat
    · rw [if_pos hc, mem_q']
      refine .inr ⟨?_, hi, Nat.lt_succ_self _, _, hm.made, hc.imp Eq.symm Eq.symm⟩
      rcases hc with rfl | rfl
      · rw [BitVec.ofNat_toNat, BitVec.setWidth_eq]
        exact fun h => hxy (List.mem_cons_of_mem _ h)
      · rw [BitVec.ofNat_toNat, BitVec.setWidth_eq]
        exact hyqs
    · rw [if_neg hc, mem_q']
      have hix : (BitVec.ofNat 9 i : NodeIdx) ≠ x := fun e => hc (.inl (by rw [← e, hii]))
      have hiy : (BitVec.ofNat 9 i : NodeIdx) ≠ y := fun e => hc (.inr (by rw [← e, hii]))
      simp only [List.mem_cons, hix, hiy, false_or] at hl
      refine hl.imp_right fun ⟨hn, hlt, hpz, hp⟩ => ⟨hn, hlt, Nat.lt_succ_of_lt hpz, ?_⟩
      exact hm.nodeIs hpz (fun _ _ h => h) hp
  · refine ⟨_, hm.made, .inl ⟨?_, rfl⟩⟩
    rw [BitVec.ofNat_toNat, BitVec.setWidth_eq, hq.mem_iff]
    exact List.mem_cons_self

theorem Forest.merge_children (hz : z.toNat < 511) (i : Nat) (hn : n ≤ i) (hi : i < z.toNat + 1) (a : Node)
    (ha : t'[i]? = some a) (b : Bool) (c : Node) (hc : t'[(childOf a b).toNat]? = some c) : c.parent.toNat = i := by
  have hx : x.toNat < z.toNat := hf.queued x (by simp)
  have hy : y.toNat < z.toNat := hf.queued y (by simp)
  rcases Nat.lt_succ_iff_lt_or_eq.mp hi with hi | rfl
  · obtain ⟨a0, ha0, rfl⟩ := hm.old hf hi ha
    have hchild : childOf (if i = x.toNat ∨ i = y.toNat then { a0 with parent := z } else a0) b = childOf a0 b := by
      split <;> rfl
    rw [hchild] at hc
    have hlt : (childOf a0 b).toNat < i := by
      obtain ⟨a1, ha1, -, hleft, hright, -⟩ := hf.internals i hn hi
      cases ha0.symm.trans ha1
      cases b
      · exact hleft
      · exact hright
    obtain ⟨c0, hc0, rfl⟩ := hm.old hf (hlt.trans hi) hc
    have hparent : c0.parent.toNat = i := hf.children i hn hi a0 ha0 b c0 hc0
    have notRoot : ∀ j ∈ x :: y :: qs, (childOf a0 b).toNat ≠ j.toNat := fun j hj e => by
      rw [e] at hc0
      rw [hf.parent_of_mem hj hc0] at hparent
      exact absurd hparent (by simp [Config.null]; omega)
    rw [if_neg (not_or.mpr ⟨notRoot x (by simp), notRoot y (by simp)⟩)]
    exact hparent
  · cases ha.symm.trans hm.made
    have hb : (childOf (internalNode (weightOf t x + weightOf t y) x y) b).toNat = x.toNat ∨
        (childOf (internalNode (weightOf t x + weightOf t y) x y) b).toNat = y.toNat := by
      cases b
      · exact .inl rfl
      · exact .inr rfl
    obtain ⟨c0, -, rfl⟩ := hm.old hf (by rcases hb with e | e <;> omega) hc
    rw [if_pos hb]

include hq in
/-- One merge keeps the forest: the two first trees of the queue become one. -/
theorem Forest.merge (hz : z.toNat < 511) (hnz : n ≤ z.toNat) : Forest t' n (z.toNat + 1) q' where
  leaves i hi := hm.nodeIs (by omega) (fun _ _ h => h) (hf.leaves i hi)
  ascending := hf.merge_ascending hm hnz
  internals := hf.merge_internals hm
  linked := hf.merge_linked hm hq hz
  children := hf.merge_children hm hz
  nodup := by
    have hzq : z ∉ qs := fun h => absurd (hf.queued z (by simp [h])) (lt_irrefl _)
    have hnodup := hf.nodup
    rw [List.nodup_cons, List.nodup_cons] at hnodup
    exact hq.nodup_iff.mpr (List.nodup_cons.mpr ⟨hzq, hnodup.2.2⟩)
  queued j hj := by
    rw [hq.mem_iff, List.mem_cons] at hj
    rcases hj with rfl | hj
    · exact Nat.lt_succ_self _
    · exact Nat.lt_succ_of_lt (hf.queued j (by simp [hj]))
  length := by
    have h1 := hf.length
    have h2 := hq.length_eq
    simp only [List.length_cons] at h1 h2
    omega

end Merge

/-- A merge takes the two first entries of the queue and puts the node over them into what is left (R196). -/
theorem mergeOnce_of_cons {b : Builder} {x y : NodeIdx} {qs : List NodeIdx} (z : NodeIdx) (hq : b.pq = x :: y :: qs)
    (hp : b.pend.code = .none) :
    mergeOnce z b = { b with
      node := mergedNodes b.node x y z, pq := pqInsert (mergedNodes b.node x y z) z qs } := by
  simp [mergeOnce, pqExtractMin, mergedNodes, hq, hp]

theorem Forest.mergeOnce {b : Builder} {n z : Nat} (h : Forest b.node n z b.pq) (hp : b.pend.code = .none)
    (hn : n ≤ 256) (hnz : n ≤ z) (hz : z + 1 < 2 * n) :
    (mergeOnce (BitVec.ofNat 9 z) b).pend = b.pend ∧
    Forest (mergeOnce (BitVec.ofNat 9 z) b).node n (z + 1) (mergeOnce (BitVec.ofNat 9 z) b).pq := by
  have hzi : (BitVec.ofNat 9 z : NodeIdx).toNat = z := nodeIdx_toNat (by omega)
  obtain ⟨x, y, qs, hq⟩ : ∃ x y qs, b.pq = x :: y :: qs := by
    have hlen := h.length
    match hb : b.pq with
    | [] | [_] => rw [hb] at hlen; simp at hlen; omega
    | x :: y :: qs => exact ⟨x, y, qs, rfl⟩
  rw [mergeOnce_of_cons _ hq hp]
  refine ⟨rfl, ?_⟩
  rw [hq] at h
  have below : ∀ j ∈ x :: y :: qs, j ≠ BitVec.ofNat 9 z := fun j hj e => by
    have := h.queued j hj
    rw [e, hzi] at this
    omega
  have hm : Merged b.node _ x y _ :=
    merged_mergedNodes b.node (z := BitVec.ofNat 9 z) (by omega) (below x (by simp)) (below y (by simp))
  have hmerge := Forest.merge (z := BitVec.ofNat 9 z) (by rwa [hzi]) hm
    (pqInsert_perm (mergedNodes b.node x y (BitVec.ofNat 9 z)) _ qs) (by omega) (by omega)
  rwa [hzi] at hmerge

/-- The merge loop ends with one tree of `2n − 1` nodes and records no error (R194, R200). -/
theorem Forest.mergeLoop {n : Nat} (hn : n ≤ 256) (c : Nat) : ∀ {z : Nat} {b : Builder}, Forest b.node n z b.pq →
    b.pend.code = .none → n ≤ z → z + c + 1 = 2 * n →
    (mergeLoop c z b).pend = b.pend ∧ Forest (mergeLoop c z b).node n (2 * n - 1) (mergeLoop c z b).pq := by
  induction c with
  | zero =>
    intro z b h _ _ hz
    exact ⟨rfl, (by omega : z = 2 * n - 1) ▸ h⟩
  | succ c ih =>
    intro z b h hp hnz hz
    obtain ⟨hpend, hf⟩ := h.mergeOnce hp hn hnz (by omega)
    have e : Machine.mergeLoop (c + 1) z b = Machine.mergeLoop c (z + 1) (Machine.mergeOnce (BitVec.ofNat 9 z) b) := by
      rw [Machine.mergeLoop]
      exact if_neg (by simp [hpend, hp])
    rw [e]
    obtain ⟨hpend', hf'⟩ := ih hf (by rw [hpend, hp]) (by omega) (by omega)
    exact ⟨hpend'.trans hpend, hf'⟩

end Sys2Proof.Machine

namespace Sys2Proof.Machine

open Sys2Proof

/-! #### The finished tree -/

/-- A forest of one tree is a tree, and its root is the node made last. -/
theorem Forest.treeOk {t : Vector Node 511} {n : Nat} {r : NodeIdx} (hn : 2 ≤ n) (hn' : n ≤ 256)
    (h : Forest t n (2 * n - 1) [r]) : r.toNat = 2 * n - 2 ∧ TreeOk t r n := by
  have hidx : ∀ {i : Nat}, i < 2 * n - 1 → (BitVec.ofNat 9 i ∈ [r] ↔ i = r.toNat) := fun {i} hi => by
    rw [List.mem_singleton, ← BitVec.toNat_inj, nodeIdx_toNat (by omega)]
  obtain ⟨top, htop, hlast⟩ := h.linked (2 * n - 2) (by omega)
  have hr : r.toNat = 2 * n - 2 ∧ top.parent = Config.null := by
    rcases hlast with ⟨hm, hp⟩ | ⟨-, hlt, hlt', -⟩
    · exact ⟨((hidx (by omega)).mp hm).symm, hp⟩
    · omega
  refine ⟨hr.1, ?_⟩
  exact {
    count := ⟨by omega, hn'⟩
    rootIs := by rw [if_neg (by omega), hr.1]
    leaves := h.leaves
    ascending := h.ascending
    internals := fun i hi hi' =>
      have ⟨a, ha, hk, hl, _⟩ := h.internals i hi (by omega)
      ⟨a, ha, hk, hl⟩
    full := fun _ i hi hi' =>
      have ⟨a, ha, _, _, hright, hne⟩ := h.internals i hi (by omega)
      ⟨a, ha, hright, hne⟩
    pad := fun e => by omega
    parents := fun i hi => by
      obtain ⟨a, ha, hl⟩ := h.linked i (by omega)
      rw [hidx (by omega)] at hl
      rcases hl with ⟨e, -⟩ | ⟨-, hlt, hlt', hp⟩
      · omega
      · exact ⟨a, ha, hlt, by omega, hp⟩
    children := fun i hi hi' => h.children i hi (by omega)
    top := ⟨top, hr.1 ▸ htop, hr.2⟩ }

/-- The pad node over a single leaf makes the tree of one symbol (R198). -/
theorem treeOk_padRoot {b : Builder} {v : Byte} {c : Count} (h : b.node[0]? = some (leafNode v c)) :
    TreeOk (padRoot b).2.node (padRoot b).1 1 := by
  have h0 : (padRoot b).2.node[0]? = some { leafNode v c with parent := 1#9 } := by
    rw [padRoot, getElem?_setParent, if_pos (by decide), getElem?_nodeSet _ _ _ (by decide), if_neg (by decide), h]
    rfl
  have h1 : (padRoot b).2.node[1]? = some (internalNode (weightOf b.node 0#9) 0#9 Config.null) := by
    rw [padRoot, getElem?_setParent, if_neg (by decide), getElem?_nodeSet _ _ _ (by decide)]
    exact if_pos rfl
  have hroot : (padRoot b).1.toNat = 1 := rfl
  have only0 : ∀ {i : Nat}, i < 1 → i = 0 := by omega
  exact {
    count := by omega
    rootIs := rfl
    leaves := fun i hi => only0 hi ▸ ⟨_, h0, rfl, rfl, rfl⟩
    ascending := fun i j hij hj => by omega
    internals := fun i hi hi' => by
      obtain rfl : i = 1 := by omega
      exact ⟨_, h1, rfl, Nat.zero_lt_one⟩
    full := fun h2 => by omega
    pad := fun _ => ⟨_, h1, rfl⟩
    parents := fun i hi => by
      obtain rfl : i = 0 := by omega
      exact ⟨_, h0, Nat.zero_lt_one, le_rfl, _, h1, .inl rfl⟩
    children := fun i hi hi' a ha b' c' hc => by
      obtain rfl : i = 1 := by omega
      cases ha.symm.trans h1
      cases b'
      · cases hc.symm.trans h0
        rfl
      · have hnull : (padRoot b).2.node[511]? = some c' := hc
        simp at hnull
    top := ⟨_, h1, rfl⟩ }

/-- BUILD_TREE over `n ≥ 1` present byte values, with no error recorded before, records none and makes a tree
of `n` leaves (R194, R200, R202). -/
theorem buildFrom_seedAll {freq : Vector Count 256} (node : Vector Node 511) {pend : ErrReport}
    (hn : nDistinct freq ≠ 0) (hp : pend.code = .none) :
    (buildFrom (nDistinct freq) (seedAll freq node pend)).2.pend = pend ∧
    TreeOk (buildFrom (nDistinct freq) (seedAll freq node pend)).2.node
      (buildFrom (nDistinct freq) (seedAll freq node pend)).1 (nDistinct freq) := by
  have hseed := seeded_seedAll freq node pend
  have hpend := pend_seedAll freq node pend
  have hleaves : (seedAll freq node pend).leaves = nDistinct freq := by rw [hseed.leaves, nDistinct_eq_present]
  generalize seedAll freq node pend = b at hseed hpend hleaves
  have hle := nDistinct_le freq
  unfold buildFrom
  by_cases h1 : nDistinct freq = 1
  · rw [if_pos h1, h1]
    have hone : (presentIn freq allBytes).length = 1 := (nDistinct_eq_present freq).symm.trans h1
    obtain ⟨v, hv⟩ := List.length_eq_one_iff.mp hone
    exact ⟨hpend, treeOk_padRoot (hseed.nodes 0 v (by rw [hv]; rfl))⟩
  · rw [if_neg h1]
    have hf := hseed.forest
    rw [hleaves] at hf
    obtain ⟨hpend', hf'⟩ := hf.mergeLoop hle (nDistinct freq - 1) (by rw [hpend, hp]) le_rfl (by omega)
    generalize mergeLoop (nDistinct freq - 1) (nDistinct freq) b = m at hpend' hf'
    obtain ⟨r, hr⟩ : ∃ r, m.pq = [r] := List.length_eq_one_iff.mp (by have := hf'.length; omega)
    rw [hr] at hf'
    have e : pqExtractMin m = (r, { m with pq := [] }) := by rw [pqExtractMin, hr]
    rw [e]
    exact ⟨hpend'.trans hpend, (hf'.treeOk (by omega) hle).2⟩

theorem treeInv_buildTreeBody {s : State} (h : TreeInv s) : TreeInv (buildTreeBody s) := by
  unfold buildTreeBody
  dsimp only
  split
  · intro hv
    simpa using h (by simpa using hv)
  · next hn =>
    split
    · exact nofun
    · next hpend =>
      intro _
      rw [not_not] at hpend
      have hp : s.pend.code = .none := by
        rcases pend_buildFrom (nDistinct s.freq) (seedAll s.freq s.node s.pend) with e | e
        · rwa [e, pend_seedAll] at hpend
        · rw [e] at hpend; cases hpend
      have hle := nDistinct_le s.freq
      have e : (BitVec.ofNat 9 (nDistinct s.freq)).toNat = nDistinct s.freq := nodeIdx_toNat (by omega)
      show TreeOk _ _ (BitVec.ofNat 9 (nDistinct s.freq)).toNat
      rw [e]
      exact (buildFrom_seedAll s.node hn hp).2

end Sys2Proof.Machine

/-! ### Every step keeps the tree, the code table and the cursor -/

namespace Sys2Proof.Machine

open Sys2Proof

/-! #### What only BUILD_TREE, BUILD_CODES and INIT write -/

@[simp] theorem coderPart_raise (c : ErrorCode) (x : Word) (p : Count) (s : State) :
    (raise c x p s).coderPart = s.coderPart := by
  simp [State.coderPart]

@[simp] theorem coderPart_recordByte (i : Nat) (b : Byte) (s : State) :
    (recordByte i b s).coderPart = s.coderPart := by
  unfold recordByte
  split
  · split
    · exact coderPart_raise ..
    · rfl
  · rfl

@[simp] theorem coderPart_packerStart (s : State) : (packerStart s).coderPart = s.coderPart := by
  unfold packerStart
  dsimp only
  split
  · rfl
  · exact coderPart_raise ..

@[simp] theorem coderPart_packByte (i : Nat) (b : Byte) (s : State) : (packByte i b s).coderPart = s.coderPart := by
  unfold packByte
  split
  · split
    · rfl
    · exact coderPart_raise ..
  · rfl

@[simp] theorem coderPart_packBit (b : Bool) (s : State) : (packBit b s).coderPart = s.coderPart := by
  unfold packBit
  dsimp only
  split <;> rfl

@[simp] theorem coderPart_packTail (s : State) : (packTail s).coderPart = s.coderPart := by
  unfold packTail
  split <;> rfl

@[simp] theorem coderPart_unpackerStart (s : State) : (unpackerStart s).coderPart = s.coderPart := by
  unfold unpackerStart
  dsimp only
  split
  · rfl
  · exact coderPart_raise ..

@[simp] theorem coderPart_landOn (i : NodeIdx) (n : Node) (s : State) : (landOn i n s).coderPart = s.coderPart := by
  unfold landOn
  split <;> rfl

theorem coderPart_unpackStep {q : Nat} {byte : Byte} {k : Nat} {s t : State} (h : unpackStep q byte k s = .ok t) :
    t.coderPart = s.coderPart := by
  obtain ⟨-, rfl⟩ | ⟨-, rfl⟩ | ⟨-, n, c, -, -, -, rfl⟩ := unpackStep_ok h
  · rfl
  · exact coderPart_raise ..
  · exact coderPart_landOn ..

/-- The stream commands leave the tree and the code table alone (R98). -/
theorem ruleOf_next_coderPart {i : Instr} {s t : State} (h : ruleOf i s = .next t)
    (hi : i = .record ∨ i = .compress ∨ i = .decompress) : t.coderPart = s.coderPart := by
  rcases hi with rfl | rfl | rfl
  · obtain ⟨-, rfl⟩ | ⟨i, b, rest, -, -, -, rfl⟩ | ⟨i, -, -, rfl⟩ | rfl := recordRule_next h
    · rfl
    · exact coderPart_recordByte i b { s with inQ := rest }
    · rfl
    · rfl
  · obtain ⟨-, rfl⟩ | ⟨i, b, rest, -, -, -, rfl⟩ | ⟨i, -, -, rfl⟩ | ⟨i, b, j, -, -, rfl⟩ |
      ⟨i, b, j, -, -, rfl⟩ | ⟨-, rfl⟩ | rfl := compressRule_next h
    · exact coderPart_packerStart s
    · exact coderPart_packByte i b { s with inQ := rest }
    · exact coderPart_packTail s
    · exact coderPart_packBit _ s
    · rfl
    · rfl
    · rfl
  · obtain ⟨-, rfl⟩ | ⟨q, b, rest, -, -, -, rfl⟩ | ⟨q, -, -, rfl⟩ | ⟨q, byte, k, s', -, hs, rfl⟩ |
      rfl := decompressRule_next h
    · exact coderPart_unpackerStart s
    · rfl
    · rfl
    · exact (coderPart_unpackStep hs :)
    · rfl

/-! #### The tree and the code table -/

/-- The tree and the code table are what their flags promise (R58). -/
def CoderInv (s : State) : Prop := TreeInv s ∧ CodeInv s

theorem coderInv_coderPart {s : State} : CoderInv s.coderPart ↔ CoderInv s := Iff.rfl

theorem CoderInv.congr {s t : State} (hs : CoderInv s) (h : t.coderPart = s.coderPart) : CoderInv t :=
  coderInv_coderPart.mp (h ▸ coderInv_coderPart.mpr hs)

theorem coderInv_of_invalid {s : State} (ht : s.treeValid = false) (hc : s.ctValid = false) : CoderInv s :=
  ⟨fun h => by simp [ht] at h, fun h => by simp [hc] at h⟩

theorem codeInv_buildTreeBody {s : State} (h : CodeInv s) : CodeInv (buildTreeBody s) := by
  unfold buildTreeBody
  dsimp only
  split
  · intro hv
    simpa using h (by simpa using hv)
  · split <;> exact nofun

/-- BUILD_TREE makes a tree, BUILD_CODES the table of the current tree, INIT neither, and no other rule writes
them. -/
theorem coderInv_ruleOf {i : Instr} {s t : State} (hs : CoderInv s) (h : ruleOf i s = .next t) : CoderInv t := by
  obtain ⟨htree, hcode⟩ := id hs
  cases i with
  | init => cases h; exact coderInv_of_invalid rfl rfl
  | record => exact hs.congr (ruleOf_next_coderPart h (.inl rfl))
  | buildTree => cases h; exact ⟨treeInv_buildTreeBody htree, codeInv_buildTreeBody hcode⟩
  | buildCodes =>
    obtain ⟨-, rfl⟩ | ⟨-, code, hc, rfl⟩ := buildCodesRule_next h
    · exact hs.congr (coderPart_raise ..)
    · exact ⟨htree, fun _ => hc⟩
  | compress => exact hs.congr (ruleOf_next_coderPart h (.inr (.inl rfl)))
  | decompress => exact hs.congr (ruleOf_next_coderPart h (.inr (.inr rfl)))

/-! #### The cursor -/

/-- ROOT is an internal node. -/
theorem TreeOk.count_le_root {t : Vector Node 511} {root : NodeIdx} {n : Nat} (h : TreeOk t root n) :
    n ≤ root.toNat := by
  have h1 := h.count.1
  rw [h.rootIs]
  split <;> omega

/-- A child that exists has a lower index than its parent (R53). -/
theorem TreeOk.child_lt {t : Vector Node 511} {root : NodeIdx} {n i : Nat} (h : TreeOk t root n) (hi : n ≤ i)
    (hi' : i ≤ root.toNat) {a c : Node} (ha : t[i]? = some a) {b : Bool} (hc : nodeGet t (childOf a b) = some c) :
    (childOf a b).toNat < i := by
  cases b with
  | false =>
    obtain ⟨a', ha', -, hleft⟩ := h.internals i hi hi'
    cases ha.symm.trans ha'
    exact hleft
  | true =>
    by_cases h2 : 2 ≤ n
    · obtain ⟨a', ha', hright, -⟩ := h.full h2 i hi hi'
      cases ha.symm.trans ha'
      exact hright
    · have h1 : n = 1 := by have := h.count.1; omega
      have hroot := h.rootIs
      rw [if_pos h1] at hroot
      obtain rfl : i = 1 := by omega
      obtain ⟨a', ha', hright⟩ := h.pad h1
      cases ha.symm.trans ha'
      rw [childOf, if_pos rfl, hright, nodeGet_null] at hc
      cases hc

/-- The cursor is an internal node of a valid tree (R263). -/
def CursorOk (s : State) : Prop :=
  s.treeValid = true ∧ s.nLeaf.toNat ≤ s.cur.toNat ∧ s.cur.toNat ≤ s.root.toNat

theorem cursorOk_unpackerStart {s : State} (ht : TreeInv s) (hp : (unpackerStart s).pend.code = .none) :
    CursorOk (unpackerStart s) := by
  unfold unpackerStart at hp ⊢
  dsimp only at hp ⊢
  split at hp
  · next hv =>
    rw [if_pos hv]
    exact ⟨hv, (ht hv).count_le_root, le_rfl⟩
  · rw [raise_pend] at hp
    split at hp
    · cases hp
    · contradiction

/-- A cursor that goes down lands on an internal node, or on a leaf and goes back to ROOT (R262). -/
theorem cursorOk_landOn {s : State} (ht : TreeInv s) (hs : CursorOk s) {n c : Node} {b : Bool}
    (hn : nodeGet s.node s.cur = some n) (hc : nodeGet s.node (childOf n b) = some c) :
    CursorOk (landOn (childOf n b) c s) := by
  obtain ⟨hv, hlo, hhi⟩ := hs
  have tree := ht hv
  unfold landOn
  split
  · exact ⟨hv, tree.count_le_root, le_rfl⟩
  · next hk =>
    have hlt := tree.child_lt hlo hhi hn hc
    refine ⟨hv, ?_, (hlt.trans_le hhi).le⟩
    by_contra hleaf
    obtain ⟨c', hc', hk', -⟩ := tree.leaves _ (not_le.mp hleaf)
    cases hc.symm.trans hc'
    rw [hk] at hk'
    cases hk'

theorem cursorOk_unpackStep {s t : State} {q : Nat} {byte : Byte} {k : Nat} (ht : TreeInv s)
    (hs : s.pend.code = .none → CursorOk s) (h : unpackStep q byte k s = .ok t) (hp : t.pend.code = .none) :
    CursorOk t := by
  obtain ⟨-, rfl⟩ | ⟨hp0, rfl⟩ | ⟨hp0, n, c, hn, -, hc, rfl⟩ := unpackStep_ok h
  · exact hs hp
  · rw [corrupt, raise_of_clear hp0] at hp
    cases hp
  · exact cursorOk_landOn ht (hs hp0) hn hc

theorem cursorInv_of_seq {s : State} (h : s.seq ≠ .run .decompress) : CursorInv s := fun hq => absurd hq h

theorem cursorInv_of_entry {s : State} (h : s.point = .entry) : CursorInv s := fun _ hp => absurd h hp

theorem cursorInv_decompressRule {s t : State} (ht : TreeInv s) (hs : CursorInv s) (hq : s.seq = .run .decompress)
    (h : decompressRule s = .next t) : CursorInv t := by
  obtain ⟨-, rfl⟩ | ⟨q, b, rest, hp, -, -, rfl⟩ | ⟨q, -, -, rfl⟩ | ⟨q, byte, k, s', hp, hs', rfl⟩ |
    rfl := decompressRule_next h
  · exact fun _ _ hc => cursorOk_unpackerStart ht hc
  · exact fun _ _ hc => hs hq (by simp [hp]) hc
  · exact cursorInv_of_entry rfl
  · exact fun _ _ hc => (cursorOk_unpackStep ht (hs hq (by simp [hp])) hs' hc :)
  · exact hs

theorem cursorInv_ruleOf {i : Instr} {s t : State} (ht : TreeInv s) (hs : CursorInv s) (hq : s.seq = .run i)
    (h : ruleOf i s = .next t) : CursorInv t := by
  by_cases hi : i = .decompress
  · subst hi
    exact cursorInv_decompressRule ht hs hq h
  · apply cursorInv_of_seq
    rcases ruleOf_next_seq h with e | ⟨e, -⟩
    · simp [e, hq, hi]
    · simp [e]

/-! #### The whole invariant -/

/-- What `Inv` says besides `ControlInv`. -/
def DataInv (s : State) : Prop := CoderInv s ∧ CursorInv s

theorem dataInv_dataPart {s : State} : DataInv s.dataPart ↔ DataInv s := Iff.rfl

theorem DataInv.congr {s t : State} (hs : DataInv s) (h : t.dataPart = s.dataPart) : DataInv t :=
  dataInv_dataPart.mp (h ▸ dataInv_dataPart.mpr hs)

theorem inv_iff {s : State} : Inv s ↔ ControlInv s ∧ DataInv s :=
  ⟨fun h => ⟨h.control, ⟨h.tree, h.codes⟩, h.cursor⟩, fun ⟨hc, ⟨ht, hcode⟩, hcur⟩ => ⟨hc, ht, hcode, hcur⟩⟩

theorem dataInv_step {s t : State} (hc : ControlInv s) (hs : DataInv s) (h : step s = .next t) : DataInv t := by
  obtain ⟨hcoder, hcur⟩ := id hs
  cases step_to h with
  | rejected off v u hw hu hb hl => exact hs.congr hu.dataPart
  | accepted off v i u hw hu hq hr hd => exact ⟨(hs.congr hu.dataPart).1, cursorInv_of_entry rfl⟩
  | illegal off v u hw hu hq hr hd =>
    exact ⟨(hs.congr hu.dataPart).1.congr (by rw [illegalWord_eq]; rfl), cursorInv_of_entry rfl⟩
  | stored off v u hw hu hl hr => exact hs.congr ((dataPart_regWrite ..).trans hu.dataPart)
  | read v d => exact hs
  | offer b => exact hs
  | take => exact hs.congr (dataPart_takeOut _)
  | reset rest hr => exact ⟨coderInv_of_invalid rfl rfl, cursorInv_of_entry rfl⟩
  | initEnds hq =>
    obtain ⟨htree, hcode⟩ := hc.resetClean hq
    exact ⟨coderInv_of_invalid htree hcode, cursorInv_of_entry rfl⟩
  | waits => exact hs
  | rule i hq ho hr =>
    exact ⟨coderInv_ruleOf (s := popEvent s) hcoder hr, cursorInv_ruleOf (s := popEvent s) hcoder.1 hcur hq hr⟩

/-- Settles O52: besides the control invariant, BUILD_TREE makes a tree and takes the codes away, BUILD_CODES
makes the codes of that tree, and the cursor of DECOMPRESS goes down to internal nodes only. -/
theorem stepKeepsInvariant : Obligations.StepKeepsInvariant := by
  unfold Obligations.StepKeepsInvariant
  intro s t hs h
  obtain ⟨hc, hd⟩ := inv_iff.mp hs
  exact inv_iff.mpr ⟨stepKeepsControlInvariant s t hc h, dataInv_step hc hd h⟩

end Sys2Proof.Machine

namespace Sys2Proof.Machine

open Sys2Proof

/-! ### The busy lock

Which registers an offset can name is decided over the 256 offsets, once for each list of offsets. -/

theorem locked_of_offset {off : BitVec 8}
    (h : off &&& 0xFC#8 ∈ [0x04#8, 0x14#8, 0x18#8, 0x1C#8, 0x38#8, 0x3C#8, 0x40#8, 0x48#8, 0x64#8, 0x68#8]) :
    regLocked (regOf off) = true := by
  revert off
  decide +kernel

/-- A locked write while BUSY (R84). -/
theorem step_write_rejected {s : State} {off : BitVec 8} {v : Word} {rest : List HostEvent}
    (h : s.script = .write off v :: rest) (hq : s.seq ≠ .idle) (hl : regLocked (regOf off) = true) :
    step s = .next { s with script := rest, reject := true } := by
  refine step_write h ?_
  rw [busWrite, if_pos (by simp [State.busy, hq, hl])]
  rfl

/-- The registers that ignore every write without REJECT: the RO registers and the reserved words (R84). -/
def regReadOnly : Reg → Bool
  | .id | .status | .outcntLo | .outcntHi | .errinfo | .errposLo | .errposHi | .ndistinct | .treeInfo
  | .nodeInfo | .nodeLink0 | .nodeLink1 | .nodeW0 | .nodeW1 | .nodeW2 | .codeInfo | .codeWord | .reserved => true
  | _ => false

theorem readOnly_of_offset {off : BitVec 8}
    (h : off &&& 0xFC#8 ∈ [0x00#8, 0x08#8, 0x20#8, 0x24#8, 0x28#8, 0x2C#8, 0x30#8, 0x34#8, 0x44#8, 0x4C#8,
        0x50#8, 0x54#8, 0x58#8, 0x5C#8, 0x60#8, 0x6C#8, 0x70#8] ∨ 0x74 ≤ off.toNat) :
    regReadOnly (regOf off) = true := by
  revert off
  decide +kernel

/-- A read-only register is not locked, is not CMD, and stores nothing. -/
theorem regWrite_readOnly {r : Reg} (h : regReadOnly r = true) (v : Word) (s : State) :
    regLocked r = false ∧ r ≠ .cmd ∧ regWrite r v s = s := by
  cases r with
  | cmd | ack | irqEn | len | bitcntLo | bitcntHi | freqIdx | freqLo | freqHi | nodeIdx | codeIdx | codeWsel =>
    cases h
  | _ => exact ⟨rfl, nofun, rfl⟩

/-- Settles O8: `busWrite` rejects a locked write while BUSY; ACK, IRQ_EN and the read-only registers are not
locked, so a write to them is `regWrite` in every sequencer state. -/
theorem busyLock : Obligations.BusyLock := by
  unfold Obligations.BusyLock
  intro s off v rest h
  refine ⟨fun hq hoff => step_write_rejected h hq (locked_of_offset hoff), fun hoff hv => ?_, fun hoff => ?_,
    fun hoff => ?_⟩
  · obtain ⟨hack, -⟩ := ackClearsTheReport
    exact (hack s off v rest h hoff).1 hv
  · exact step_write_store h (r := .irqEn) (regOf_of_and hoff) (.inr rfl) (by decide)
  · obtain ⟨hl, hc, e⟩ := regWrite_readOnly (readOnly_of_offset hoff) v { s with script := rest }
    rw [step_write_store h rfl (.inr hl) hc, e]

/-! ### Reads while BUSY -/

theorem drawn_of_offset {off : BitVec 8}
    (h : off &&& 0xFC#8 ∈ [0x18#8, 0x1C#8, 0x20#8, 0x24#8, 0x34#8, 0x3C#8, 0x40#8, 0x44#8, 0x4C#8, 0x50#8,
        0x54#8, 0x58#8, 0x5C#8, 0x60#8, 0x6C#8, 0x70#8]) :
    regDrawnWhileBusy (regOf off) = true := by
  revert off
  decide +kernel

theorem undrawn_of_offset {off : BitVec 8}
    (h : off &&& 0xFC#8 ∈ [0x00#8, 0x04#8, 0x0C#8, 0x10#8, 0x14#8, 0x28#8, 0x2C#8, 0x30#8, 0x38#8, 0x48#8,
        0x64#8, 0x68#8] ∨ 0x74 ≤ off.toNat) :
    regDrawnWhileBusy (regOf off) = false ∧ regOf off ≠ .status := by
  revert off
  decide +kernel

/-- A read while BUSY of a register that changes (R85). -/
theorem step_read_drawn {s : State} {off : BitVec 8} {rest : List HostEvent} (h : s.script = .read off :: rest)
    (hq : s.seq ≠ .idle) (hd : regDrawnWhileBusy (regOf off) = true) :
    step s = .next { s with
      script := rest, reads := s.reads ++ [Config.draw s.draws], draws := s.draws + 1 } := by
  rw [step_read h, busRead, if_pos (by simp [State.busy, hq]), if_pos hd]
  rfl

/-- A read of STATUS while BUSY (R31, R85). -/
theorem step_read_status {s : State} {off : BitVec 8} {rest : List HostEvent} (h : s.script = .read off :: rest)
    (hq : s.seq ≠ .idle) (hr : regOf off = .status) :
    step s = .next { s with
      script := rest, reads := s.reads ++ [statusWithDraw s.statusWord (Config.draw s.draws)]
      draws := s.draws + 1 } := by
  rw [step_read h, busRead, if_pos (by simp [State.busy, hq]), hr]
  rfl

/-- The draw has the bits 8 and 9, the word every other bit (R31). -/
theorem statusWithDraw_getLsbD (w d : Word) (j : Nat) :
    (statusWithDraw w d).getLsbD j = if j = 8 ∨ j = 9 then d.getLsbD j else w.getLsbD j := by
  by_cases hj : j < 32
  · have mask : ∀ i : Fin 32, (0x300#32).getLsbD i = decide (i.val = 8 ∨ i.val = 9) := by decide
    have hm : (0x300#32).getLsbD j = decide (j = 8 ∨ j = 9) := mask ⟨j, hj⟩
    rw [statusWithDraw, BitVec.getLsbD_or, BitVec.getLsbD_and, BitVec.getLsbD_and, BitVec.getLsbD_not, hm]
    by_cases h : j = 8 ∨ j = 9
    · simp [h]
    · simp [h, hj]
  · have hge : 32 ≤ j := not_lt.mp hj
    rw [BitVec.getLsbD_of_ge _ _ hge, BitVec.getLsbD_of_ge _ _ hge, BitVec.getLsbD_of_ge _ _ hge, ite_self]

/-- A field of STATUS without the bits 8 and 9 is not drawn. -/
theorem statusWithDraw_extractLsb' (w d : Word) {i n : Nat} (h : i + n ≤ 8 ∨ 10 ≤ i) :
    (statusWithDraw w d).extractLsb' i n = w.extractLsb' i n := by
  apply BitVec.eq_of_getLsbD_eq
  intro j hj
  rw [BitVec.getLsbD_extractLsb', BitVec.getLsbD_extractLsb', statusWithDraw_getLsbD, if_neg (by omega)]

/-- STATUS alone shows the sequencer state (R27). -/
theorem regRead_seq {r : Reg} (h : r ≠ .status) (s : State) (q : Seq) :
    regRead r { s with seq := q } = regRead r s := by
  cases r with
  | status => exact absurd rfl h
  | _ => rfl

/-- A step is its turn and the command that the turn names. -/
theorem step_congr {s u : State} (h : turn s = turn u) : step s = step u := by
  rw [step, step, h]

/-- Settles O16: `busRead` makes a draw for a register that changes and for STATUS, and for no other; a cycle
with both strobes has the turn of the write after the draw. -/
theorem busyReadsAreDraws : Obligations.BusyReadsAreDraws := by
  unfold Obligations.BusyReadsAreDraws
  refine ⟨fun s off rest h hq => ⟨fun hoff => step_read_drawn h hq (drawn_of_offset hoff), fun hoff => ?_,
    fun hoff => ?_⟩, fun s off v rest h => ?_⟩
  · refine ⟨_, step_read_status h hq (regOf_of_and hoff), ?_⟩
    have hb : s.busy = true := by simp [State.busy, hq]
    have fields := statusWord_fields s
    rw [hb] at fields
    obtain ⟨busy, done, err, reject, code, -, -, gap, op, top⟩ := fields
    simp only [statusWithDraw_getLsbD]
    refine ⟨busy, done, err, reject, ?_, rfl, rfl, ?_, ?_, ?_⟩
    · exact (statusWithDraw_extractLsb' _ _ (.inl (by decide))).trans code
    · exact (statusWithDraw_extractLsb' _ _ (.inr (by decide))).trans gap
    · exact (statusWithDraw_extractLsb' _ _ (.inr (by decide))).trans op
    · exact (statusWithDraw_extractLsb' _ _ (.inr (by decide))).trans top
  · obtain ⟨hd, hs⟩ := undrawn_of_offset hoff
    refine ⟨regRead (regOf off) s, step_read_undrawn h rfl hd hs, ?_⟩
    rw [← regRead_seq hs s .idle]
    exact step_read_undrawn (s := { s with seq := .idle }) h rfl hd hs
  · refine step_congr ?_
    rw [turn, h]
    rfl

end Sys2Proof.Machine

namespace Sys2Proof.Machine

open Sys2Proof

/-! ### What leaves IN and FREQ alone -/

/-- The bytes offered on IN, which only `InPop()` takes, and FREQ, which only RECORD and INIT write (R86, R51). -/
def State.sourcePart (s : State) : State := { State.reset with inQ := s.inQ, freq := s.freq }

theorem inQ_of_sourcePart {s t : State} (h : t.sourcePart = s.sourcePart) : t.inQ = s.inQ := (congrArg State.inQ h :)

theorem freq_of_sourcePart {s t : State} (h : t.sourcePart = s.sourcePart) : t.freq = s.freq :=
  (congrArg State.freq h :)

@[simp] theorem sourcePart_raise (c : ErrorCode) (x : Word) (p : Count) (s : State) :
    (raise c x p s).sourcePart = s.sourcePart := by
  simp [State.sourcePart]

/-- Counting a byte takes no further one from IN. -/
@[simp] theorem inQ_recordByte (i : Nat) (b : Byte) (s : State) : (recordByte i b s).inQ = s.inQ := by
  unfold recordByte
  split
  · split
    · exact raise_inQ ..
    · rfl
  · rfl

@[simp] theorem sourcePart_buildTreeBody (s : State) : (buildTreeBody s).sourcePart = s.sourcePart := by
  unfold buildTreeBody
  dsimp only
  split
  · exact sourcePart_raise ..
  · split <;> rfl

@[simp] theorem sourcePart_packerStart (s : State) : (packerStart s).sourcePart = s.sourcePart := by
  unfold packerStart
  dsimp only
  split
  · rfl
  · exact sourcePart_raise ..

@[simp] theorem sourcePart_packByte (i : Nat) (b : Byte) (s : State) :
    (packByte i b s).sourcePart = s.sourcePart := by
  unfold packByte
  split
  · split
    · rfl
    · exact sourcePart_raise ..
  · rfl

@[simp] theorem sourcePart_packBit (b : Bool) (s : State) : (packBit b s).sourcePart = s.sourcePart := by
  unfold packBit
  dsimp only
  split <;> rfl

@[simp] theorem sourcePart_packTail (s : State) : (packTail s).sourcePart = s.sourcePart := by
  unfold packTail
  split <;> rfl

@[simp] theorem sourcePart_unpackerStart (s : State) : (unpackerStart s).sourcePart = s.sourcePart := by
  unfold unpackerStart
  dsimp only
  split
  · rfl
  · exact sourcePart_raise ..

@[simp] theorem sourcePart_landOn (i : NodeIdx) (n : Node) (s : State) :
    (landOn i n s).sourcePart = s.sourcePart := by
  unfold landOn
  split <;> rfl

theorem sourcePart_unpackStep {q : Nat} {byte : Byte} {k : Nat} {s t : State}
    (h : unpackStep q byte k s = .ok t) : t.sourcePart = s.sourcePart := by
  obtain ⟨-, rfl⟩ | ⟨-, rfl⟩ | ⟨-, n, c, -, -, -, rfl⟩ := unpackStep_ok h
  · rfl
  · exact sourcePart_raise ..
  · exact sourcePart_landOn ..

/-! ### The input stream -/

/-- The rule of command `i` stands at an `InPop()` (R86). -/
def AtInPop (i : Instr) (s : State) : Prop := ∃ k, s.point = .atPop k ∧ k < s.bytesIn i

/-- `in_ready` of a running command: it stands at an `InPop()` and no byte holds it on OUT (R86, R87). -/
theorem inReady_iff {i : Instr} {s : State} (hq : s.seq = .run i) :
    s.inReady = true ↔ s.outSlot = none ∧ AtInPop i s := by
  unfold State.inReady AtInPop
  rw [hq]
  cases s.point <;> simp [State.outValid]

/-- What a rule does at an `InPop()`: the rest of the rule's turn takes no further byte. -/
theorem ruleOf_atInPop {i : Instr} {s : State} (h : AtInPop i s) :
    ∃ f, ruleOf i s = inPop s f ∧ ∀ b u t, f b u = .next t → t.inQ = u.inQ := by
  obtain ⟨k, hp, hk⟩ := h
  cases i with
  | init | buildTree | buildCodes => exact absurd hk (Nat.not_lt_zero k)
  | record =>
    refine ⟨_, by simp only [ruleOf, recordRule, hp]; exact if_pos hk, fun b u t h => ?_⟩
    cases h
    exact inQ_recordByte k b u
  | compress =>
    refine ⟨_, by simp only [ruleOf, compressRule, hp]; exact if_pos hk, fun b u t h => ?_⟩
    cases h
    exact inQ_of_sourcePart (sourcePart_packByte k b u)
  | decompress =>
    refine ⟨_, by simp only [ruleOf, decompressRule, hp]; exact if_pos hk, fun b u t h => ?_⟩
    cases h
    rfl

/-- At an `InPop()` a rule holds, or takes the oldest byte offered (R86). -/
theorem ruleOf_next_atInPop {i : Instr} {s t : State} (hi : AtInPop i s) (h : ruleOf i s = .next t) :
    (s.inQ = [] ∧ t = s) ∨ ∃ b, s.inQ = b :: t.inQ := by
  obtain ⟨f, e, hf⟩ := ruleOf_atInPop hi
  rw [e] at h
  obtain hold | ⟨b, rest, hq, h⟩ := inPop_next h
  · exact .inl hold
  · exact .inr ⟨b, by rw [hf b _ t h, hq]⟩

/-- A rule takes a byte from IN only at an `InPop()` (R86). -/
theorem ruleOf_next_inQ {i : Instr} {s t : State} (h : ruleOf i s = .next t) : t.inQ = s.inQ ∨ AtInPop i s := by
  cases i with
  | init => cases h; exact .inl rfl
  | record =>
    obtain ⟨-, rfl⟩ | ⟨i, b, rest, hp, hi, -, rfl⟩ | ⟨i, -, -, rfl⟩ | rfl := recordRule_next h
    · exact .inl rfl
    · exact .inr ⟨i, hp, hi⟩
    · exact .inl rfl
    · exact .inl rfl
  | buildTree => cases h; exact .inl (inQ_of_sourcePart (sourcePart_buildTreeBody s))
  | buildCodes =>
    obtain ⟨-, rfl⟩ | ⟨-, code, -, rfl⟩ := buildCodesRule_next h
    · exact .inl (raise_inQ ..)
    · exact .inl rfl
  | compress =>
    obtain ⟨-, rfl⟩ | ⟨i, b, rest, hp, hi, -, rfl⟩ | ⟨i, -, -, rfl⟩ | ⟨i, b, j, -, -, rfl⟩ |
      ⟨i, b, j, -, -, rfl⟩ | ⟨-, rfl⟩ | rfl := compressRule_next h
    · exact .inl (inQ_of_sourcePart (sourcePart_packerStart s))
    · exact .inr ⟨i, hp, hi⟩
    · exact .inl (inQ_of_sourcePart (sourcePart_packTail s))
    · exact .inl (inQ_of_sourcePart (sourcePart_packBit _ s))
    · exact .inl rfl
    · exact .inl rfl
    · exact .inl rfl
  | decompress =>
    obtain ⟨-, rfl⟩ | ⟨q, b, rest, hp, hq, -, rfl⟩ | ⟨q, -, -, rfl⟩ | ⟨q, byte, k, s', -, hs, rfl⟩ |
      rfl := decompressRule_next h
    · exact .inl (inQ_of_sourcePart (sourcePart_unpackerStart s))
    · exact .inr ⟨q, hp, hq⟩
    · exact .inl rfl
    · exact .inl (inQ_of_sourcePart (sourcePart_unpackStep hs) :)
    · exact .inl rfl

/-- The engine step of a running command: it is held by a full output slot, or the rule goes on (R87, R150). -/
theorem exec_running_next {i : Instr} {s t : State} (hq : s.seq = .run i) (h : exec i s = .next t) :
    (s.outSlot ≠ none ∧ t = s) ∨ (s.outSlot = none ∧ ruleOf i s = .next t) := by
  rw [exec_eq_runCommand] at h
  obtain ⟨hidle, -⟩ | ⟨-, held⟩ | ⟨-, goes⟩ | ⟨-, hne, -⟩ := runCommand_next h
  · rw [hq] at hidle; cases hidle
  · exact .inl held
  · exact .inr goes
  · exact absurd hq hne

/-- Settles O21: a rule reaches IN only through `inPop`, which takes the oldest byte or holds; a command held
by OUT is not at `in_ready`. -/
theorem inPopTakesTheOldestByte : Obligations.InPopTakesTheOldestByte := by
  unfold Obligations.InPopTakesTheOldestByte
  refine ⟨fun s b rest h => step_of_turn_none (by rw [turn, h]; rfl), fun i s t hq h => ?_⟩
  rw [inReady_iff hq]
  obtain ⟨hfull, rfl⟩ | ⟨hnone, hr⟩ := exec_running_next hq h
  · exact ⟨fun hne => absurd rfl hne, fun ⟨hnone, _⟩ => absurd hnone hfull⟩
  · refine ⟨fun hne => ?_, fun ⟨_, hi⟩ => ?_⟩
    · have hi := (ruleOf_next_inQ hr).resolve_left hne
      obtain ⟨-, rfl⟩ | taken := ruleOf_next_atInPop hi hr
      · exact absurd rfl hne
      · exact ⟨⟨hnone, hi⟩, taken⟩
    · obtain ⟨hempty, rfl⟩ | ⟨b, htaken⟩ := ruleOf_next_atInPop hi hr
      · exact ⟨fun _ => rfl, fun b rest e => by simp [hempty] at e⟩
      · exact ⟨fun e => by simp [htaken] at e, fun c rest e => (List.cons.inj (htaken.symm.trans e)).2⟩

/-! ### The output stream -/

/-- Only the rules of COMPRESS and DECOMPRESS push (R87). -/
theorem ruleOf_next_outSlot {i : Instr} {s t : State} (h : ruleOf i s = .next t) :
    t.outSlot = s.outSlot ∨ i = .compress ∨ i = .decompress := by
  cases i with
  | init => cases h; exact .inl rfl
  | record =>
    obtain ⟨-, rfl⟩ | ⟨i, b, rest, -, -, -, rfl⟩ | ⟨i, -, -, rfl⟩ | rfl := recordRule_next h
    · exact .inl rfl
    · exact .inl (outSlot_recordByte i b { s with inQ := rest })
    · exact .inl rfl
    · exact .inl rfl
  | buildTree => cases h; exact .inl (outSlot_buildTreeBody s)
  | buildCodes =>
    obtain ⟨-, rfl⟩ | ⟨-, code, -, rfl⟩ := buildCodesRule_next h
    · exact .inl (raise_outSlot ..)
    · exact .inl rfl
  | compress => exact .inr (.inl rfl)
  | decompress => exact .inr (.inr rfl)

/-- The record of what the host took is the host's: no engine step changes it. -/
theorem exec_next_taken {i : Instr} {s t : State} (h : exec i s = .next t) : t.taken = s.taken := by
  rw [exec_eq_runCommand] at h
  obtain ⟨-, rfl⟩ | ⟨-, -, rfl⟩ | ⟨-, -, hr⟩ | ⟨-, -, rfl⟩ := runCommand_next h
  · rfl
  · rfl
  · obtain hf | ⟨u, rfl, hf⟩ := ruleOf_next_frame hr
    · exact (congrArg State.taken hf :)
    · exact (congrArg State.taken hf :)
  · rfl

theorem takeOut_of_slot {s : State} {v : Byte} (h : s.outSlot = some v) :
    takeOut s = { s with outSlot := none, taken := s.taken ++ [v] } := by
  rw [takeOut, h]

/-- Settles O22: a full slot holds `runCommand` before any rule, so that a push finds the slot empty. -/
theorem outPushHoldsUntilTaken : Obligations.OutPushHoldsUntilTaken := by
  unfold Obligations.OutPushHoldsUntilTaken
  refine ⟨fun i s v hq ho => by rw [exec_eq_runCommand, runCommand_held hq ho], fun i s t hq h hne => ?_,
    fun i s t => exec_next_taken, fun s rest v h ho => ?_⟩
  · obtain ⟨-, rfl⟩ | ⟨hnone, hr⟩ := exec_running_next hq h
    · exact absurd rfl hne
    · exact ⟨hnone, (ruleOf_next_outSlot hr).resolve_left hne⟩
  · rw [← takeOut_of_slot (s := { s with script := rest }) ho]
    exact step_of_turn_none (by rw [turn, h]; rfl)

end Sys2Proof.Machine

namespace Sys2Proof.Machine

open Sys2Proof

/-! ### The writers of the memories -/

/-- The memories with their validity flags (R98). -/
def State.memoryPart (s : State) : State := { s.coderPart with freq := s.freq }

theorem coderPart_of_memoryPart {s t : State} (h : t.memoryPart = s.memoryPart) : t.coderPart = s.coderPart :=
  (congrArg State.coderPart h :)

theorem freq_of_memoryPart {s t : State} (h : t.memoryPart = s.memoryPart) : t.freq = s.freq :=
  (congrArg State.freq h :)

theorem AccessFrom.memoryPart {s u : State} (h : AccessFrom s u) : u.memoryPart = s.memoryPart := by
  rcases h with rfl | rfl <;> rfl

theorem memoryPart_takeOut (s : State) : (takeOut s).memoryPart = s.memoryPart := by
  unfold takeOut; split <;> rfl

/-- The registers through which the host writes FREQ (R41). -/
def FreqWindow (r : Reg) : Prop := r = .freqLo ∨ r = .freqHi

/-- A stored write leaves the tree and the code table alone, and FREQ too unless it goes through the window. -/
theorem memoryPart_regWrite (r : Reg) (v : Word) (s : State) :
    (regWrite r v s).memoryPart = s.memoryPart ∨
      (FreqWindow r ∧ (regWrite r v s).coderPart = s.coderPart) := by
  cases r with
  | ack =>
    left
    rw [regWrite, ackWrite]
    split <;> rfl
  | freqLo => exact .inr ⟨.inl rfl, rfl⟩
  | freqHi => exact .inr ⟨.inr rfl, rfl⟩
  | _ => exact .inl rfl

/-- What can write a memory or a validity flag, reset and RESET_INIT apart: an idle write through the frequency
window, which leaves the tree and the code table alone, and the rule of the running command (R98). -/
theorem step_memoryPart {s t : State} (h : step s = .next t) (hreset : ∀ rest, s.script ≠ .reset :: rest)
    (hinit : s.seq ≠ .resetInit) :
    t.memoryPart = s.memoryPart ∨
    (t.coderPart = s.coderPart ∧ s.seq = .idle ∧ ∃ off v, Writes s off v ∧ FreqWindow (regOf off)) ∨
    ∃ i, s.seq = .run i ∧ ruleOf i (popEvent s) = .next t := by
  cases step_to h with
  | rejected off v u hw hu hb hl => exact .inl hu.memoryPart
  | accepted off v i u hw hu hq hr hd => exact .inl hu.memoryPart
  | illegal off v u hw hu hq hr hd => exact .inl (by rw [illegalWord_eq]; exact hu.memoryPart)
  | stored off v u hw hu hl hr =>
    obtain e | ⟨hwin, e⟩ := memoryPart_regWrite (regOf off) v u
    · exact .inl (e.trans hu.memoryPart)
    · have hlocked : regLocked (regOf off) ≠ false := by rcases hwin with e | e <;> simp [e, regLocked]
      exact .inr (.inl ⟨e.trans (coderPart_of_memoryPart hu.memoryPart), hl.resolve_right hlocked,
        off, v, hw, hwin⟩)
  | read v d => exact .inl rfl
  | offer b => exact .inl rfl
  | take => exact .inl (memoryPart_takeOut _)
  | reset rest hr => exact absurd hr (hreset rest)
  | initEnds hq => exact absurd hq hinit
  | waits => exact .inl rfl
  | rule i hq ho hr => exact .inr (.inr ⟨i, hq, hr⟩)

@[simp] theorem code_buildTreeBody (s : State) : (buildTreeBody s).code = s.code := by
  unfold buildTreeBody
  dsimp only
  split
  · exact raise_code ..
  · split <;> rfl

/-- Only RECORD and INIT write FREQ (R51). -/
theorem ruleOf_next_freq {i : Instr} {s t : State} (h : ruleOf i s = .next t) :
    t.freq = s.freq ∨ i = .record ∨ i = .init := by
  cases i with
  | init => exact .inr (.inr rfl)
  | record => exact .inr (.inl rfl)
  | buildTree => cases h; exact .inl (freq_of_sourcePart (sourcePart_buildTreeBody s))
  | buildCodes =>
    obtain ⟨-, rfl⟩ | ⟨-, code, -, rfl⟩ := buildCodesRule_next h
    · exact .inl (raise_freq ..)
    · exact .inl rfl
  | compress =>
    obtain ⟨-, rfl⟩ | ⟨i, b, rest, -, -, -, rfl⟩ | ⟨i, -, -, rfl⟩ | ⟨i, b, j, -, -, rfl⟩ |
      ⟨i, b, j, -, -, rfl⟩ | ⟨-, rfl⟩ | rfl := compressRule_next h
    · exact .inl (freq_of_sourcePart (sourcePart_packerStart s))
    · exact .inl (freq_of_sourcePart (sourcePart_packByte i b { s with inQ := rest }) :)
    · exact .inl (freq_of_sourcePart (sourcePart_packTail s))
    · exact .inl (freq_of_sourcePart (sourcePart_packBit _ s))
    · exact .inl rfl
    · exact .inl rfl
    · exact .inl rfl
  | decompress =>
    obtain ⟨-, rfl⟩ | ⟨q, b, rest, -, -, -, rfl⟩ | ⟨q, -, -, rfl⟩ | ⟨q, byte, k, s', -, hs, rfl⟩ |
      rfl := decompressRule_next h
    · exact .inl (freq_of_sourcePart (sourcePart_unpackerStart s))
    · exact .inl rfl
    · exact .inl rfl
    · exact .inl (freq_of_sourcePart (sourcePart_unpackStep hs) :)
    · exact .inl rfl

/-- Two states agree on ROOT, NLEAF and TREE_VALID (R54, R58). -/
def SameRoot (s t : State) : Prop := t.root = s.root ∧ t.nLeaf = s.nLeaf ∧ t.treeValid = s.treeValid

/-- `coderPart` taken apart along the clauses of R98. -/
theorem same_of_coderPart {s t : State} (h : t.coderPart = s.coderPart) :
    t.node = s.node ∧ SameRoot s t ∧ t.code = s.code ∧ t.ctValid = s.ctValid :=
  ⟨(congrArg State.node h :), ⟨(congrArg State.root h :), (congrArg State.nLeaf h :),
    (congrArg State.treeValid h :)⟩, (congrArg State.code h :), (congrArg State.ctValid h :)⟩

/-- The rules that write the tree, the code table and their flags (R98). -/
theorem ruleOf_next_coder {i : Instr} {s t : State} (h : ruleOf i s = .next t) :
    (t.node = s.node ∨ i = .buildTree) ∧ (SameRoot s t ∨ i = .buildTree ∨ i = .init) ∧
    (t.code = s.code ∨ i = .buildCodes ∨ i = .init) ∧
    (t.ctValid = s.ctValid ∨ i = .buildTree ∨ i = .buildCodes ∨ i = .init) := by
  cases i with
  | init => cases h; exact ⟨.inl rfl, .inr (.inr rfl), .inr (.inr rfl), .inr (.inr (.inr rfl))⟩
  | record | compress | decompress =>
    obtain ⟨hnode, hroot, hcode, hct⟩ := same_of_coderPart (ruleOf_next_coderPart h (by simp))
    exact ⟨.inl hnode, .inl hroot, .inl hcode, .inl hct⟩
  | buildTree => cases h; exact ⟨.inr rfl, .inr (.inl rfl), .inl (code_buildTreeBody s), .inr (.inl rfl)⟩
  | buildCodes =>
    obtain ⟨-, rfl⟩ | ⟨-, code, -, rfl⟩ := buildCodesRule_next h
    · obtain ⟨hnode, hroot, hcode, hct⟩ := same_of_coderPart (coderPart_raise .notReady 0#32 0#64 s)
      exact ⟨.inl hnode, .inl hroot, .inl hcode, .inl hct⟩
    · exact ⟨.inl rfl, .inl ⟨rfl, rfl, rfl⟩, .inr (.inl rfl), .inr (.inr (.inl rfl))⟩

/-- Settles O57: only a rule writes the tree and the code table, and each rule writes what R98 says; FREQ is
written by two rules and through the frequency window, which is locked while BUSY. -/
theorem writersOfTheMemories : Obligations.WritersOfTheMemories := by
  unfold Obligations.WritersOfTheMemories
  intro s t h hreset hinit
  obtain e | ⟨e, hq, off, v, ⟨rest, hw⟩, hwin⟩ | ⟨i, hq, hr⟩ := step_memoryPart h hreset hinit
  · obtain ⟨hnode, ⟨hroot, hleaf, htv⟩, hcode, hct⟩ := same_of_coderPart (coderPart_of_memoryPart e)
    simp [hnode, hroot, hleaf, htv, hcode, hct, freq_of_memoryPart e]
  · obtain ⟨hnode, ⟨hroot, hleaf, htv⟩, hcode, hct⟩ := same_of_coderPart e
    have hoff : off &&& 0xFC#8 = 0x3C#8 ∨ off &&& 0xFC#8 = 0x40#8 :=
      hwin.imp (and_of_regOf · (by decide)) (and_of_regOf · (by decide))
    simp only [hnode, hroot, hleaf, htv, hcode, hct, ne_eq, not_true_eq_false, or_self, false_implies, true_and]
    exact fun _ => .inr (.inr ⟨hq, off, v, rest, hw, hoff⟩)
  · obtain ⟨hnode, hroot, hcode, hct⟩ := ruleOf_next_coder hr
    have runs {j : Instr} (e : i = j) : s.seq = .run j := hq.trans (congrArg Seq.run e)
    refine ⟨fun hne => runs (hnode.resolve_left hne), fun hne => ?_,
      fun hne => (hcode.resolve_left hne).imp runs runs,
      fun hne => (hct.resolve_left hne).imp runs (.imp runs runs),
      fun hne => ((ruleOf_next_freq hr).resolve_left hne).imp runs (.inl ∘ runs)⟩
    refine (hroot.resolve_left fun ⟨hrt, hleaf, htv⟩ => ?_).imp runs runs
    exact hne.elim (absurd hrt) (Or.elim · (absurd hleaf) (absurd htv))

end Sys2Proof.Machine

namespace Sys2Proof

/-! ### The command words -/

/-- The laws of one command's word, for every command. -/
theorem Laws.EncodeDecode.statement (i : Instr) : Laws.EncodeDecode.Statement i := by
  cases i with
  | init => exact Laws.EncodeDecode.init
  | record => exact Laws.EncodeDecode.record
  | buildTree => exact Laws.EncodeDecode.buildTree
  | buildCodes => exact Laws.EncodeDecode.buildCodes
  | compress => exact Laws.EncodeDecode.compress
  | decompress => exact Laws.EncodeDecode.decompress

theorem wellFormedWord_encode (i : Instr) : wellFormedWord (encode i) = true :=
  have ⟨_, hlegal, _, _⟩ := Laws.EncodeDecode.statement i
  hlegal

@[simp] theorem decode_encode (i : Instr) : decode (encode i) = some i :=
  have ⟨_, _, hdecode, _⟩ := Laws.EncodeDecode.statement i
  hdecode

theorem decodeTableWord_encode (i : Instr) : decodeTableWord 32 (encode i).toNat = some i :=
  have ⟨_, _, _, htable⟩ := Laws.EncodeDecode.statement i
  htable

theorem decode_eq_some_iff {w : Word} {i : Instr} : decode w = some i ↔ w = encode i :=
  ⟨decode_eq_some, fun h => h ▸ decode_encode i⟩

theorem wellFormedWord_iff {w : Word} :
    wellFormedWord w = true ↔ cmdRsvd w = 0#28 ∧ 1 ≤ (cmdOp w).toNat ∧ (cmdOp w).toNat ≤ 6 := by
  simp [wellFormedWord, and_assoc]

/-- A legal word is the word of a command (R112, R114). -/
theorem exists_decode_of_wellFormedWord {w : Word} (h : wellFormedWord w = true) : ∃ i, decode w = some i := by
  obtain ⟨hrsvd, hlow, hhigh⟩ := wellFormedWord_iff.mp h
  unfold decode
  rw [if_pos hrsvd]
  generalize (cmdOp w).toNat = n at hlow hhigh
  interval_cases n <;> exact ⟨_, rfl⟩

/-- The decoder accepts exactly the legal words (R114, R115). -/
theorem exists_decode_iff {w : Word} : (∃ i, decode w = some i) ↔ wellFormedWord w = true :=
  ⟨fun ⟨i, h⟩ => decode_eq_some h ▸ wellFormedWord_encode i, exists_decode_of_wellFormedWord⟩

theorem decode_eq_none {w : Word} (h : wellFormedWord w = false) : decode w = none := by
  cases hd : decode w with
  | none => rfl
  | some i => simp [exists_decode_iff.mp ⟨i, hd⟩] at h

/-- Settles O3: the legal words are those the decoder accepts, and each is the word of its command. -/
theorem decodeReadsExactlyTheLegalWords : Obligations.DecodeReadsExactlyTheLegalWords := by
  unfold Obligations.DecodeReadsExactlyTheLegalWords
  exact fun w => ⟨exists_decode_iff.trans wellFormedWord_iff, fun i => decode_eq_some_iff⟩

/-- Settles O1: the legal words are those of the six commands, and the others are not well formed. -/
theorem commandWordsDecode : Obligations.CommandWordsDecode := by
  unfold Obligations.CommandWordsDecode
  exact ⟨decodeTableWord_encode .init, decodeTableWord_encode .record, decodeTableWord_encode .buildTree,
    decodeTableWord_encode .buildCodes, decodeTableWord_encode .compress, decodeTableWord_encode .decompress,
    decode_eq_none rfl, decode_eq_none rfl, decode_eq_none rfl, decode_eq_none rfl, decode_eq_none rfl,
    decode_eq_none rfl⟩

/-- Settles O2. -/
theorem encodeThenDecode : Obligations.EncodeThenDecode := by
  unfold Obligations.EncodeThenDecode
  exact fun i => ⟨decode_encode i, wellFormedWord_encode i⟩

end Sys2Proof

namespace Sys2Proof.Machine

open Sys2Proof

/-! ### Runs in which the host takes a byte after each turn of the engine -/

theorem run_succ {s t : State} (n : Nat) (h : step s = .next t) : run (n + 1) s = run n t := by
  rw [run, h]

theorem run_add (n k : Nat) {s t : State} (h : run n s = .next t) : run (n + k) s = run k t := by
  induction n generalizing s with
  | zero => cases h; rw [Nat.zero_add]
  | succ n ih =>
    cases hs : step s with
    | next u =>
      rw [run_succ n hs] at h
      rw [Nat.succ_add, run_succ (n + k) hs, ih h]
    | fault r => simp [run, hs] at h
    | refused r => simp [run, hs] at h

/-- A state with other events to come. -/
def State.withScript (s : State) (x : List HostEvent) : State := { s with script := x }

/-- The host's write of a command's word to CMD is the acceptance of the command by an IDLE engine (R151). -/
theorem step_hostCmd {s : State} {i : Instr} {rest : List HostEvent} (h : s.script = hostCmd i ++ rest)
    (hq : s.seq = .idle) : step s = .next ((accept i s).withScript rest) := by
  have hw : s.script = .write (offsetOf .cmd) (encode i) :: rest := h
  have hb : busWrite (offsetOf .cmd) (encode i) (s.withScript rest) = (some i, s.withScript rest) := by
    simp [busWrite, State.busy, State.withScript, hq, regOf_offsetOf]
  rw [step_of_turn_some ((turn_write hw).trans hb), exec_eq_runCommand,
    runCommand_idle (s := s.withScript rest) hq]
  rfl

theorem step_engine_running {s : State} {i : Instr} {rest : List HostEvent} (h : s.script = .engine :: rest)
    (hs : Running i s) : step s = ruleOf i (s.withScript rest) := by
  obtain ⟨hq, ho⟩ := hs
  have hstep : step s = exec i (s.withScript rest) := (stepRunsTheRunningCommand s i hq).2 rest h
  rw [hstep, exec_eq_runCommand, runCommand_rule (s := s.withScript rest) hq ho]

theorem step_take {s : State} {rest : List HostEvent} (h : s.script = .take :: rest) :
    step s = .next (takeOut (s.withScript rest)) :=
  step_of_turn_none (by rw [turn, h]; rfl)

theorem takeOut_of_no_slot {s : State} (h : s.outSlot = none) : takeOut s = s := by
  rw [takeOut, h]

theorem takeOut_withScript (s : State) (x : List HostEvent) :
    takeOut (s.withScript x) = (takeOut s).withScript x := by
  cases h : s.outSlot with
  | none => rw [takeOut_of_no_slot h, takeOut_of_no_slot (s := s.withScript x) h]
  | some v => rw [takeOut_of_slot h, takeOut_of_slot (s := s.withScript x) h]; rfl

/-- `n` turns of the engine, the host ready to take a byte after each, lead from `s` to `t`, whatever events come
after them. -/
def Drains (n : Nat) (s t : State) : Prop :=
  ∀ rest, run (2 * n) (s.withScript (hostDrain n ++ rest)) = .next (t.withScript rest)

theorem hostDrain_add (n k : Nat) : hostDrain (n + k) = hostDrain n ++ hostDrain k := by
  induction n with
  | zero => rw [Nat.zero_add]; rfl
  | succ n ih => rw [Nat.succ_add, hostDrain, ih]; rfl

theorem length_hostDrain (n : Nat) : (hostDrain n).length = 2 * n := by
  induction n with
  | zero => rfl
  | succ n ih => simp only [hostDrain, List.length_cons, ih]; omega

theorem Drains.refl (s : State) : Drains 0 s s := fun _ => rfl

theorem Drains.trans {n k : Nat} {s t u : State} (h : Drains n s t) (h' : Drains k t u) : Drains (n + k) s u := by
  intro rest
  rw [hostDrain_add, List.append_assoc, Nat.mul_add, run_add _ _ (h _)]
  exact h' rest

/-- One turn of the running command, and the host's take after it. The hypothesis says that the rule neither reads
nor changes the coming events. -/
theorem Drains.turn {i : Instr} {s t : State} (hs : Running i s)
    (h : ∀ x, ruleOf i (s.withScript x) = .next (t.withScript x)) : Drains 1 s (takeOut t) := by
  intro rest
  have hturn : step (s.withScript (hostDrain 1 ++ rest)) = .next (t.withScript (.take :: rest)) :=
    (step_engine_running (s := s.withScript (hostDrain 1 ++ rest)) rfl hs).trans (h _)
  rw [run_succ 1 hturn, run_succ 0 (step_take rfl), ← takeOut_withScript]
  rfl

/-- One turn of the running command that pushes nothing. -/
theorem Drains.turn_of_no_push {i : Instr} {s t : State} (hs : Running i s) (ht : t.outSlot = none)
    (h : ∀ x, ruleOf i (s.withScript x) = .next (t.withScript x)) : Drains 1 s t :=
  takeOut_of_no_slot ht ▸ Drains.turn hs h

/-- A command from the host's write of its word to the state that its turns lead to (R124, assumption 18). -/
theorem run_hostCmd {s t : State} {i : Instr} {n : Nat} (hs : s.script = hostCmd i ++ hostDrain n)
    (hq : s.seq = .idle) (h : Drains n (accept i s) t) :
    run s.script.length s = .next (t.withScript []) := by
  have hlen : s.script.length = 2 * n + 1 := by
    rw [hs, List.length_append, length_hostDrain, Nat.add_comm]; rfl
  have hrun := h []
  rw [List.append_nil] at hrun
  rw [hlen, run_succ _ (step_hostCmd hs hq), hrun]

end Sys2Proof.Machine

namespace Sys2Proof.Machine

open Sys2Proof

/-! ### The bits that a byte holds -/

/-- The lowest `k` bits of a byte, most significant first: what the accumulator holds (R242). -/
def lowBits (acc : Byte) (k : Nat) : List Bool := (List.range k).map (fun j => acc.getLsbD (k - 1 - j))

@[simp] theorem length_lowBits (acc : Byte) (k : Nat) : (lowBits acc k).length = k := by simp [lowBits]

@[simp] theorem lowBits_zero (acc : Byte) : lowBits acc 0 = [] := rfl

@[simp] theorem packedBits_nil : packedBits [] = [] := rfl

/-- A byte is packed as its eight bits, most significant first (R120). -/
theorem packedBits_cons (b : Byte) (p : List Byte) : packedBits (b :: p) = lowBits b 8 ++ packedBits p := rfl

theorem packedBits_append (p q : List Byte) : packedBits (p ++ q) = packedBits p ++ packedBits q :=
  List.flatMap_append

theorem packedBits_concat (p : List Byte) (b : Byte) : packedBits (p ++ [b]) = packedBits p ++ lowBits b 8 := by
  rw [packedBits_append, packedBits_cons, packedBits_nil, List.append_nil]

@[simp] theorem length_packedBits (p : List Byte) : (packedBits p).length = 8 * p.length := by
  induction p with
  | nil => rfl
  | cons b p ih => simp only [packedBits_cons, List.length_append, length_lowBits, ih, List.length_cons]; omega

/-- Packed bit `i` is bit 7 − (i mod 8) of byte i / 8 (R120). -/
theorem packedBits_getD (p : List Byte) (i : Nat) :
    (packedBits p).getD i false = (p.getD (i / 8) 0#8).getLsbD (7 - i % 8) := by
  induction p generalizing i with
  | nil => simp
  | cons b p ih =>
    rw [packedBits_cons]
    obtain hi | hi := Nat.lt_or_ge i 8
    · rw [List.getD_append _ _ _ _ (by simpa using hi), Nat.div_eq_of_lt hi, Nat.mod_eq_of_lt hi]
      simp [lowBits, hi]
    · obtain ⟨k, rfl⟩ := Nat.exists_eq_add_of_le' hi
      rw [List.getD_append_right _ _ _ _ (by simp), length_lowBits, Nat.add_sub_cancel, ih]
      simp

theorem shiftIn_getLsbD (acc : Byte) (b : Bool) {j : Nat} (hj : j < 8) :
    (shiftIn acc b).getLsbD j = if j = 0 then b else acc.getLsbD (j - 1) := by
  rw [shiftIn, BitVec.getLsbD_append]
  split
  · simp [show j = 0 by omega]
  · simp [show j ≠ 0 by omega, show j - 1 < 7 by omega]

/-- The new bit comes after the bits that the accumulator holds (R242). -/
theorem lowBits_shiftIn (acc : Byte) (b : Bool) {k : Nat} (hk : k < 8) :
    lowBits (shiftIn acc b) (k + 1) = lowBits acc k ++ [b] := by
  rw [lowBits, List.range_succ, List.map_append]
  congr 1
  · refine List.map_congr_left fun j hj => ?_
    have hj : j < k := List.mem_range.mp hj
    rw [shiftIn_getLsbD acc b (by omega), if_neg (by omega)]
    congr 1
    omega
  · rw [List.map_singleton, Nat.add_sub_cancel, Nat.sub_self, shiftIn_getLsbD acc b (by omega), if_pos rfl]

/-- The final partial byte holds the accumulator's bits and then zeros (R243). -/
theorem lowBits_shiftLeft (acc : Byte) {k : Nat} (hk : k ≤ 8) :
    lowBits (acc <<< (8 - k)) 8 = lowBits acc k ++ List.replicate (8 - k) false := by
  apply List.ext_getElem
  · simp; omega
  · intro j hj _
    have hj : j < 8 := by simpa using hj
    obtain hjk | hjk := Nat.lt_or_ge j k
    · rw [List.getElem_append_left (by simpa using hjk)]
      simp [lowBits, show 7 - j < 8 by omega, show ¬ 7 - j < 8 - k by omega, show 7 - j - (8 - k) = k - 1 - j by omega]
    · rw [List.getElem_append_right (by simpa using hjk)]
      simp [lowBits, show 7 - j < 8 - k by omega]

end Sys2Proof.Machine

namespace Sys2Proof.Machine

open Sys2Proof

/-! ### The turns of COMPRESS -/

theorem packerStart_of_ctValid {s : State} (h : s.ctValid = true) :
    packerStart s = { s with acc := 0#8, k := 0, nbits := 0#64, packOut := 0#64 } := by
  rw [packerStart]
  exact if_pos h

theorem packByte_of_present {i : Nat} {b : Byte} {s : State} (hp : s.pend.code = .none)
    (hb : (tableGet s.code b).present = true) : packByte i b s = { s with point := .atCode i b 0 } := by
  rw [packByte, if_pos hp, if_pos hb]

theorem packBit_of_lt {b : Bool} {s : State} (h : s.k < 7) :
    packBit b s = { s with acc := shiftIn s.acc b, k := s.k + 1, nbits := s.nbits + 1#64 } := by
  rw [packBit, if_neg (by omega)]

/-- The eighth bit pushes the byte (R242). -/
theorem packBit_of_eq {b : Bool} {s : State} (h : s.k = 7) :
    packBit b s =
      { s with
        outSlot := some (shiftIn s.acc b)
        acc := 0#8, k := 0, nbits := s.nbits + 1#64, packOut := s.packOut + 1#64 } := by
  rw [packBit, if_pos (by omega)]
  rfl

theorem packTail_of_bits {s : State} (hp : s.pend.code = .none) (h : 0 < s.k) :
    packTail s = { s with outSlot := some (s.acc <<< (8 - s.k)), packOut := s.packOut + 1#64 } := by
  rw [packTail, if_pos ⟨hp, h⟩]
  rfl

theorem packTail_of_no_bits {s : State} (h : s.k = 0) : packTail s = s := by
  rw [packTail, if_neg (by omega)]

theorem compressRule_entry {s : State} (h : s.point = .entry) :
    compressRule s = .next { packerStart s with point := .atPop 0 } := by
  rw [compressRule, h]

theorem compressRule_pop {s : State} {i : Nat} {b : Byte} {rest : List Byte} (h : s.point = .atPop i)
    (hi : i < s.msgLen) (hq : s.inQ = b :: rest) :
    compressRule s = .next (packByte i b { s with inQ := rest }) := by
  simp only [compressRule, h, if_pos hi, inPop, hq]

theorem compressRule_tail {s : State} {i : Nat} (h : s.point = .atPop i) (hi : s.msgLen ≤ i) :
    compressRule s = .next { packTail s with point := .atEnd } := by
  simp only [compressRule, h, if_neg (Nat.not_lt.mpr hi)]

theorem compressRule_bit {s : State} {i j : Nat} {b : Byte} (h : s.point = .atCode i b j)
    (hj : j < (tableGet s.code b).len.toNat) :
    compressRule s =
      .next { packBit ((tableGet s.code b).bits.getLsbD j) s with point := .atCode i b (j + 1) } := by
  simp only [compressRule, h, if_pos hj]

theorem compressRule_codeEnd {s : State} {i j : Nat} {b : Byte} (h : s.point = .atCode i b j)
    (hj : (tableGet s.code b).len.toNat ≤ j) : compressRule s = .next { s with point := .atPop (i + 1) } := by
  simp only [compressRule, h, if_neg (Nat.not_lt.mpr hj)]

theorem compressRule_end {s : State} (h : s.point = .atEnd) : compressRule s = .next (finish (packResults s)) := by
  rw [compressRule, h]

/-! ### The logical bitstream -/

@[simp] theorem length_codeString (e : CodeEntry) : (codeString e).length = e.len.toNat := by simp [codeString]

theorem drop_codeString {e : CodeEntry} {j : Nat} (hj : j < e.len.toNat) :
    (codeString e).drop j = e.bits.getLsbD j :: (codeString e).drop (j + 1) := by
  rw [List.drop_eq_getElem_cons (by simpa using hj)]
  simp [codeString]

theorem logicalBits_cons (code : Vector CodeEntry 256) (b : Byte) (m : List Byte) :
    logicalBits code (b :: m) = codeString (tableGet code b) ++ logicalBits code m := rfl

/-- A code is at most 255 bits long (R56). -/
theorem length_logicalBits_le (code : Vector CodeEntry 256) (m : List Byte) :
    (logicalBits code m).length ≤ 255 * m.length := by
  induction m with
  | nil => exact Nat.zero_le _
  | cons b m ih =>
    have := (tableGet code b).len.isLt
    simp only [logicalBits_cons, List.length_append, length_codeString, List.length_cons]
    omega

/-- The bytes `p` are the bits `S`, with fewer than eight padding zeros after them (R121, R123). -/
def Padded (S : List Bool) (p : List Byte) : Prop :=
  ∃ r, r < 8 ∧ packedBits p = S ++ List.replicate r false

theorem Padded.length {S : List Bool} {p : List Byte} (h : Padded S p) : p.length = ceilDiv8 S.length := by
  obtain ⟨r, hr, e⟩ := h
  have hlen := congrArg List.length e
  simp only [length_packedBits, List.length_append, List.length_replicate] at hlen
  unfold ceilDiv8
  omega

/-- Logical bit `i` is bit 7 − (i mod 8) of byte i / 8, and the padding bits are 0 (R120, R121). -/
theorem Padded.getLsbD {S : List Bool} {p : List Byte} (h : Padded S p) (i : Nat) :
    (p.getD (i / 8) 0#8).getLsbD (7 - i % 8) = S.getD i false := by
  obtain ⟨r, -, e⟩ := h
  rw [← packedBits_getD, e]
  obtain hi | hi := Nat.lt_or_ge i S.length
  · exact List.getD_append _ _ _ _ hi
  · rw [List.getD_append_right _ _ _ _ hi, List.getD_eq_default S _ hi, List.getD_eq_getElem?_getD,
      List.getElem?_getD_replicate_default_eq]

/-! ### The packer along a message -/

/-- What COMPRESS does not change: the memories, their validity flags and LEN. -/
def State.kept (s : State) : State := { s.memoryPart with len := s.len }

theorem code_of_kept {s u : State} (h : u.kept = s.kept) : u.code = s.code := (congrArg State.code h :)

theorem len_of_kept {s u : State} (h : u.kept = s.kept) : u.len = s.len := (congrArg State.len h :)

theorem memoryPart_of_kept {s u : State} (h : u.kept = s.kept) : u.memoryPart = s.memoryPart :=
  (congrArg State.memoryPart h :)

/-- COMPRESS, accepted in `s`, is running without an error in `u`; it has counted the bits `S`, and the host has
taken every byte pushed, `p`. -/
structure Delivered (s : State) (S : List Bool) (p : List Byte) (u : State) : Prop where
  running : Running .compress u
  clear : u.pend = ErrReport.clear
  kept : u.kept = s.kept
  nbits : u.nbits = BitVec.ofNat 64 S.length
  packOut : u.packOut = BitVec.ofNat 64 p.length
  taken : u.taken = s.taken ++ p

/-- The bits `S` are in the bytes taken and, the last of them, in the accumulator (R242). -/
structure Packing (s : State) (S : List Bool) (p : List Byte) (u : State) : Prop
    extends Delivered s S p u where
  accRange : u.k < 8
  bits : packedBits p ++ lowBits u.acc u.k = S

section

variable {s u : State} {S : List Bool} {p : List Byte}

theorem Delivered.noError (h : Delivered s S p u) : u.pend.code = .none := by rw [h.clear]; rfl

theorem Delivered.nbits_concat (h : Delivered s S p u) (c : Bool) :
    u.nbits + 1#64 = BitVec.ofNat 64 (S ++ [c]).length := by
  rw [h.nbits, List.length_append, BitVec.ofNat_add]
  rfl

theorem Delivered.packOut_concat (h : Delivered s S p u) (v : Byte) :
    u.packOut + 1#64 = BitVec.ofNat 64 (p ++ [v]).length := by
  rw [h.packOut, List.length_append, BitVec.ofNat_add]
  rfl

theorem Delivered.taken_concat (h : Delivered s S p u) (v : Byte) : u.taken ++ [v] = s.taken ++ (p ++ [v]) := by
  rw [h.taken, List.append_assoc]

theorem Packing.moveTo (h : Packing s S p u) (x : Point) (q : List Byte) :
    Packing s S p { u with point := x, inQ := q } :=
  ⟨⟨h.running, h.clear, h.kept, h.nbits, h.packOut, h.taken⟩, h.accRange, h.bits⟩

/-- The first turn clears the packer (R240). -/
theorem packing_start (hct : s.ctValid = true) (ho : s.outSlot = none) :
    ∃ u, Drains 1 (accept .compress s) u ∧ Packing s [] [] u ∧ u.point = .atPop 0 ∧ u.inQ = s.inQ := by
  refine ⟨{ accept .compress s with acc := 0#8, k := 0, nbits := 0#64, packOut := 0#64, point := .atPop 0 },
    Drains.turn_of_no_push ⟨rfl, ho⟩ ho fun x =>
      (compressRule_entry (s := (accept .compress s).withScript x) rfl).trans ?_,
    ⟨⟨⟨rfl, ho⟩, rfl, rfl, rfl, rfl, (List.append_nil _).symm⟩, Nat.zero_lt_succ 7, rfl⟩, rfl, rfl⟩
  rw [packerStart_of_ctValid (s := (accept .compress s).withScript x) hct]
  rfl

theorem packing_pop (h : Packing s S p u) {i : Nat} {b : Byte} {rest : List Byte} (hpoint : u.point = .atPop i)
    (hi : i < s.msgLen) (hq : u.inQ = b :: rest) (hb : (tableGet s.code b).present = true) :
    Drains 1 u { u with point := .atCode i b 0, inQ := rest } := by
  have hlen : i < u.msgLen := by rwa [State.msgLen, len_of_kept h.kept]
  have hpresent : (tableGet u.code b).present = true := by rwa [code_of_kept h.kept]
  refine Drains.turn_of_no_push h.running h.running.2 fun x =>
    (compressRule_pop (s := u.withScript x) hpoint hlen hq).trans ?_
  rw [packByte_of_present (s := { u.withScript x with inQ := rest }) h.noError hpresent]
  rfl

/-- One code character goes into the accumulator, or completes a byte that the host then takes (R242). -/
theorem packing_bit (h : Packing s S p u) {i j : Nat} {b : Byte} (hpoint : u.point = .atCode i b j)
    (hj : j < (tableGet s.code b).len.toNat) :
    ∃ p' u', Drains 1 u u' ∧ Packing s (S ++ [(tableGet s.code b).bits.getLsbD j]) p' u' ∧
      u'.point = .atCode i b (j + 1) ∧ u'.inQ = u.inQ := by
  rw [← code_of_kept h.kept] at hj ⊢
  generalize hc : (tableGet u.code b).bits.getLsbD j = c
  have hrule (x : List HostEvent) : ruleOf .compress (u.withScript x) =
      .next { packBit c (u.withScript x) with point := .atCode i b (j + 1) } :=
    hc ▸ compressRule_bit (s := u.withScript x) hpoint hj
  have hbits := lowBits_shiftIn u.acc c h.accRange
  have hnbits := h.nbits_concat c
  obtain hk | hk := Nat.lt_or_eq_of_le (Nat.le_of_lt_succ h.accRange)
  · refine ⟨p, { u with
        acc := shiftIn u.acc c, k := u.k + 1, nbits := u.nbits + 1#64, point := .atCode i b (j + 1) },
      Drains.turn_of_no_push h.running h.running.2 fun x => (hrule x).trans ?_,
      ⟨⟨h.running, h.clear, h.kept, hnbits, h.packOut, h.taken⟩, Nat.succ_lt_succ hk, ?_⟩, rfl, rfl⟩
    · rw [packBit_of_lt (s := u.withScript x) hk]
      rfl
    · rw [hbits, ← List.append_assoc, h.bits]
  · have hturn := Drains.turn (t := { packBit c u with point := .atCode i b (j + 1) }) h.running fun x =>
      (hrule x).trans (by rw [packBit_of_eq (s := u.withScript x) hk, packBit_of_eq hk]; rfl)
    rw [packBit_of_eq hk] at hturn
    refine ⟨p ++ [shiftIn u.acc c], _, hturn,
      ⟨⟨⟨h.running.1, rfl⟩, h.clear, h.kept, hnbits, h.packOut_concat _, h.taken_concat _⟩, Nat.zero_lt_succ 7, ?_⟩,
      rfl, rfl⟩
    change packedBits (p ++ [shiftIn u.acc c]) ++ [] = S ++ [c]
    rw [hk] at hbits
    rw [packedBits_concat, hbits, List.append_nil, ← List.append_assoc, ← hk, h.bits]

end

/-- The rest of a code, `n` characters from character `j` on, and the turn that leaves it (R240). -/
theorem packing_code {s : State} {i : Nat} {b : Byte} (n : Nat) :
    ∀ {j : Nat} {S : List Bool} {p : List Byte} {u : State}, Packing s S p u → u.point = .atCode i b j →
    j + n = (tableGet s.code b).len.toNat →
    ∃ p' u', Drains (n + 1) u u' ∧ Packing s (S ++ (codeString (tableGet s.code b)).drop j) p' u' ∧
      u'.point = .atPop (i + 1) ∧ u'.inQ = u.inQ := by
  induction n with
  | zero =>
    intro j S p u h hpoint hj
    have hend : (tableGet u.code b).len.toNat ≤ j := by rw [code_of_kept h.kept]; omega
    refine ⟨p, { u with point := .atPop (i + 1), inQ := u.inQ },
      Drains.turn_of_no_push h.running h.running.2 fun x => compressRule_codeEnd (s := u.withScript x) hpoint hend,
      ?_, rfl, rfl⟩
    rw [List.drop_eq_nil_of_le (by simp; omega), List.append_nil]
    exact h.moveTo _ _
  | succ n ih =>
    intro j S p u h hpoint hj
    have hlt : j < (tableGet s.code b).len.toNat := by omega
    obtain ⟨p₁, u₁, hd₁, h₁, hpoint₁, hq₁⟩ := packing_bit h hpoint hlt
    obtain ⟨p₂, u₂, hd₂, h₂, hpoint₂, hq₂⟩ := ih h₁ hpoint₁ (by omega)
    refine ⟨p₂, u₂, ?_, ?_, hpoint₂, hq₂.trans hq₁⟩
    · rw [Nat.add_comm]
      exact hd₁.trans hd₂
    · rw [drop_codeString hlt]
      rwa [List.append_assoc, List.singleton_append] at h₂

/-- The bytes of a message, from item `i` of the input loop on (R119, R240). -/
theorem packing_message {s : State} {rest : List Byte} (m : List Byte) :
    ∀ {i : Nat} {S : List Bool} {p : List Byte} {u : State}, Packing s S p u → u.point = .atPop i →
    u.inQ = m ++ rest → i + m.length = s.msgLen → (∀ b ∈ m, (tableGet s.code b).present = true) →
    ∃ p' u', Drains (2 * m.length + (logicalBits s.code m).length) u u' ∧
      Packing s (S ++ logicalBits s.code m) p' u' ∧ u'.point = .atPop s.msgLen ∧ u'.inQ = rest := by
  induction m with
  | nil =>
    intro i S p u h hpoint hq hi _
    exact ⟨p, u, .refl u, (List.append_nil S).symm ▸ h, hi ▸ hpoint, hq⟩
  | cons b m ih =>
    intro i S p u h hpoint hq hi hpresent
    rw [List.length_cons] at hi
    have hpop := packing_pop h hpoint (by omega) hq (hpresent b List.mem_cons_self)
    obtain ⟨p₁, u₁, hd₁, h₁, hpoint₁, hq₁⟩ :=
      packing_code _ (h.moveTo (.atCode i b 0) (m ++ rest)) rfl (Nat.zero_add _)
    obtain ⟨p₂, u₂, hd₂, h₂, hpoint₂, hq₂⟩ := ih h₁ hpoint₁ hq₁ (by omega)
      fun c hc => hpresent c (List.mem_cons_of_mem b hc)
    refine ⟨p₂, u₂, ?_, ?_, hpoint₂, hq₂⟩
    · have hd := (hpop.trans hd₁).trans hd₂
      rw [logicalBits_cons, List.length_append, length_codeString, List.length_cons]
      convert hd using 1
      omega
    · rwa [List.drop_zero, List.append_assoc, ← logicalBits_cons] at h₂

/-- The final partial byte (R243): after it the bytes taken are the whole bitstream, padded. -/
theorem packing_tail {s u : State} {S : List Bool} {p : List Byte} (h : Packing s S p u)
    (hpoint : u.point = .atPop s.msgLen) :
    ∃ p' u', Drains 1 u u' ∧ Delivered s S p' u' ∧ Padded S p' ∧ u'.point = .atEnd ∧ u'.inQ = u.inQ := by
  have hlen : u.msgLen ≤ s.msgLen := by rw [State.msgLen, len_of_kept h.kept]; rfl
  have hrule (x : List HostEvent) := compressRule_tail (s := u.withScript x) hpoint hlen
  obtain hk | hk := Nat.eq_zero_or_pos u.k
  · refine ⟨p, { u with point := .atEnd, inQ := u.inQ },
      Drains.turn_of_no_push h.running h.running.2 fun x => (hrule x).trans ?_,
      (h.moveTo _ _).toDelivered, ⟨0, Nat.zero_lt_succ 7, ?_⟩, rfl, rfl⟩
    · rw [packTail_of_no_bits (s := u.withScript x) hk]
      rfl
    · rw [← h.bits, hk, lowBits_zero, List.append_nil]
      exact (List.append_nil _).symm
  · have hturn := Drains.turn (t := { packTail u with point := .atEnd }) h.running fun x => (hrule x).trans (by
      rw [packTail_of_bits (s := u.withScript x) h.noError hk, packTail_of_bits h.noError hk]; rfl)
    rw [packTail_of_bits h.noError hk] at hturn
    refine ⟨p ++ [u.acc <<< (8 - u.k)], _, hturn,
      ⟨⟨h.running.1, rfl⟩, h.clear, h.kept, h.nbits, h.packOut_concat _, h.taken_concat _⟩, ⟨8 - u.k, by omega, ?_⟩,
      rfl, rfl⟩
    rw [packedBits_concat, lowBits_shiftLeft _ h.accRange.le, ← List.append_assoc, h.bits]

/-- COMPRESS of a whole message, from its acceptance to its report (R240, R241). -/
theorem drains_compress {s : State} {m rest : List Byte} (ho : s.outSlot = none) (hct : s.ctValid = true)
    (hq : s.inQ = m ++ rest) (hlen : s.msgLen = m.length) (hpresent : ∀ b ∈ m, (tableGet s.code b).present = true) :
    ∃ p u, Drains (2 * m.length + (logicalBits s.code m).length + 3) (accept .compress s) (finish (packResults u)) ∧
      Delivered s (logicalBits s.code m) p u ∧ Padded (logicalBits s.code m) p ∧ u.inQ = rest := by
  obtain ⟨u₁, hd₁, h₁, hpoint₁, hq₁⟩ := packing_start hct ho
  obtain ⟨p₂, u₂, hd₂, h₂, hpoint₂, hq₂⟩ := packing_message m h₁ hpoint₁ (hq₁.trans hq) (by omega) hpresent
  obtain ⟨p₃, u₃, hd₃, h₃, hpad, hpoint₃, hq₃⟩ := packing_tail h₂ hpoint₂
  have hd₄ : Drains 1 u₃ (finish (packResults u₃)) :=
    Drains.turn_of_no_push h₃.running h₃.running.2 fun x => compressRule_end (s := u₃.withScript x) hpoint₃
  refine ⟨p₃, u₃, ?_, h₃, hpad, hq₃.trans hq₂⟩
  convert ((hd₁.trans hd₂).trans hd₃).trans hd₄ using 1
  omega

/-- Settles O45: the bytes taken are the bits of the message, padded, and no count passes 2 ^ 64. -/
theorem compressPacksTheMessage : Obligations.CompressPacksTheMessage := by
  unfold Obligations.CompressPacksTheMessage
  intro s m rest hseq ho hct hq hlen hpresent hscript
  obtain ⟨p, u, hd, h, hpad, hrest⟩ := drains_compress ho hct hq hlen hpresent
  have hrun := run_hostCmd hscript hseq hd
  have hsmall : (logicalBits s.code m).length < 2 ^ 64 := by
    have := length_logicalBits_le s.code m
    have := s.len.isLt
    omega
  have hbitCnt : u.nbits.toNat = (logicalBits s.code m).length := by
    rw [h.nbits, BitVec.toNat_ofNat, Nat.mod_eq_of_lt hsmall]
  have hcount : p.length = ((logicalBits s.code m).length + 7) / 8 := hpad.length
  have houtCnt : u.packOut.toNat = p.length := by
    rw [h.packOut, BitVec.toNat_ofNat, Nat.mod_eq_of_lt (by omega)]
  obtain ⟨hnode, ⟨hroot, hleaf, htv⟩, hcode, hctv⟩ :=
    same_of_coderPart (coderPart_of_memoryPart (memoryPart_of_kept h.kept))
  have hfreq := freq_of_memoryPart (memoryPart_of_kept h.kept)
  exact ⟨_, p, hrun, h.taken, hcount, fun i _ => hpad.getLsbD i, hbitCnt, houtCnt, rfl, rfl,
    decide_eq_false (not_not_intro h.noError), h.noError, hrest, h.running.2, hfreq, hnode, hroot, hleaf, hcode,
    htv, hctv, len_of_kept h.kept⟩

end Sys2Proof.Machine

namespace Sys2Proof.Machine

open Sys2Proof

/-! ### The faults do not come up where the arena holds a tree (assumption 9) -/

/-- Going up from a node other than ROOT leads to an internal node of higher index (R53). -/
theorem TreeOk.parent_internal {t : Vector Node 511} {root : NodeIdx} {n i : Nat} (h : TreeOk t root n)
    (hi : i < root.toNat) :
    NodeIs t i (fun a => i < a.parent.toNat ∧ n ≤ a.parent.toNat ∧ a.parent.toNat ≤ root.toNat ∧
      ∃ p, nodeGet t a.parent = some p) := by
  obtain ⟨a, ha, hup, hroot, p, hp, hchild⟩ := h.parents i hi
  refine ⟨a, ha, hup, ?_, hroot, p, hp⟩
  by_contra hleaf
  obtain ⟨p', hp', -, hleft, hright⟩ := h.leaves _ (Nat.not_le.mp hleaf)
  cases hp.symm.trans hp'
  have hnull : Config.null.toNat = i := by
    rw [hleft, hright, or_self] at hchild
    exact hchild
  have : Config.null.toNat = 511 := rfl
  have := root.isLt
  omega

/-- A walk to ROOT ends: it leaves the leaves with its first branch, and the index grows with each one (R223). -/
theorem TreeOk.walkToRoot_ok {t : Vector Node 511} {root : NodeIdx} {n : Nat} (h : TreeOk t root n) (fuel : Nat) :
    ∀ (c : NodeIdx) (code : List Bool), c.toNat ≤ root.toNat → root.toNat ≤ fuel + max c.toNat (n - 1) →
      ∃ bs, walkToRoot t root fuel c code = .ok bs := by
  have hroot := h.count_le_root
  have hcount := h.count.1
  induction fuel with
  | zero =>
    intro c code hc hfuel
    have hend : c = root := BitVec.eq_of_toNat_eq (by omega)
    exact ⟨code, by rw [walkToRoot, if_pos hend]⟩
  | succ fuel ih =>
    intro c code hc hfuel
    by_cases hend : c = root
    · exact ⟨code, by rw [walkToRoot, if_pos hend]⟩
    · have hne : c.toNat ≠ root.toNat := fun e => hend (BitVec.eq_of_toNat_eq e)
      obtain ⟨a, ha, hup, hinternal, hle, p, hp⟩ := h.parent_internal (i := c.toNat) (by omega)
      obtain ⟨bs, hbs⟩ := ih a.parent (decide (p.left ≠ c) :: code) hle (by omega)
      have hc : nodeGet t c = some a := ha
      exact ⟨bs, by simp only [walkToRoot, if_neg hend, hc, hp, hbs]⟩

theorem TreeOk.addLeafCode_ok {t : Vector Node 511} {root : NodeIdx} {n i : Nat} (h : TreeOk t root n) (hi : i < n)
    (code : Vector CodeEntry 256) : ∃ code', addLeafCode t root code i = .ok code' := by
  have hroot := h.count_le_root
  have hrootIs := h.rootIs
  have hcount := h.count
  have hc : (BitVec.ofNat 9 i : NodeIdx).toNat = i := nodeIdx_toNat (by omega)
  obtain ⟨bs, hbs⟩ := h.walkToRoot_ok Config.maxCodeLen (BitVec.ofNat 9 i) [] (by omega) (by
    rw [hc, hrootIs]
    unfold Config.maxCodeLen
    split <;> omega)
  obtain ⟨a, ha, -⟩ := h.leaves i hi
  have hget : nodeGet t (BitVec.ofNat 9 i) = some a := by rw [nodeGet, hc, ha]
  exact ⟨tableSet code a.value (codeEntry bs), by simp only [addLeafCode, hbs, hget]⟩

theorem TreeOk.addLeafCodes_ok {t : Vector Node 511} {root : NodeIdx} {n : Nat} (h : TreeOk t root n) (l : List Nat)
    (hl : ∀ i ∈ l, i < n) (code : Vector CodeEntry 256) : ∃ code', addLeafCodes t root l code = .ok code' := by
  induction l generalizing code with
  | nil => exact ⟨code, rfl⟩
  | cons i l ih =>
    obtain ⟨code₁, h₁⟩ := h.addLeafCode_ok (hl i List.mem_cons_self) code
    obtain ⟨code₂, h₂⟩ := ih (fun j hj => hl j (List.mem_cons_of_mem i hj)) code₁
    exact ⟨code₂, by simp only [addLeafCodes, h₁, h₂]⟩

/-- BUILD_CODES goes through every leaf of a tree (R220). -/
theorem TreeOk.codeTable_ok {t : Vector Node 511} {root : NodeIdx} {n : Nat} (h : TreeOk t root n) :
    ∃ code, codeTable t root n = .ok code :=
  h.addLeafCodes_ok _ (fun _ hi => List.mem_range.mp hi) _

/-- A cursor in the tree is at a node, so that every bit can be decoded or ignored (R262, R263, R264). -/
theorem exists_unpackStep {s : State} (ht : TreeInv s) (hc : s.pend.code = .none → CursorOk s) (q : Nat)
    (byte : Byte) (k : Nat) : ∃ t, unpackStep q byte k s = .ok t := by
  unfold unpackStep
  split
  · next hbit =>
    obtain ⟨hv, hlow, hhigh⟩ := hc hbit.2
    obtain ⟨a, ha, -⟩ := (ht hv).internals _ hlow hhigh
    have hget : nodeGet s.node s.cur = some a := ha
    simp only [unpackBit, hget]
    split
    · exact ⟨_, rfl⟩
    · split <;> exact ⟨_, rfl⟩
  · exact ⟨s, rfl⟩

end Sys2Proof.Machine

namespace Sys2Proof.Machine

open Sys2Proof

/-! ### A turn of a running command, by the place where it stands -/

theorem recordRule_entry {s : State} (h : s.point = .entry) : recordRule s = .next { s with point := .atPop 0 } := by
  rw [recordRule, h]

theorem recordRule_pop {s : State} {i : Nat} {b : Byte} {rest : List Byte} (h : s.point = .atPop i)
    (hi : i < s.msgLen) (hq : s.inQ = b :: rest) :
    recordRule s = .next { recordByte i b { s with inQ := rest } with point := .atPop (i + 1) } := by
  simp only [recordRule, h, if_pos hi, inPop, hq]

theorem recordRule_end {s : State} {i : Nat} (h : s.point = .atPop i) (hi : s.msgLen ≤ i) :
    recordRule s = .next (finish s) := by
  simp only [recordRule, h, if_neg (Nat.not_lt.mpr hi)]

theorem decompressRule_entry {s : State} (h : s.point = .entry) :
    decompressRule s = .next { unpackerStart s with point := .atPop 0 } := by
  rw [decompressRule, h]

theorem decompressRule_pop {s : State} {q : Nat} {b : Byte} {rest : List Byte} (h : s.point = .atPop q)
    (hq : q < s.packedLen) (hin : s.inQ = b :: rest) :
    decompressRule s = .next { s with inQ := rest, point := .atBit q b 0 } := by
  simp only [decompressRule, h, if_pos hq, inPop, hin]

theorem decompressRule_end {s : State} {q : Nat} (h : s.point = .atPop q) (hq : s.packedLen ≤ q) :
    decompressRule s = .next (finish { s with outCnt := s.unpackOut }) := by
  simp only [decompressRule, h, if_neg (Nat.not_lt.mpr hq)]

theorem decompressRule_bit {s t : State} {q k : Nat} {byte : Byte} (h : s.point = .atBit q byte k)
    (ht : unpackStep q byte k s = .ok t) : decompressRule s = .next { t with point := afterBit q byte k } := by
  simp only [decompressRule, h, ht]

theorem buildCodesRule_of_tree {s : State} {code : Vector CodeEntry 256} (hv : s.treeValid = true)
    (hc : codeTable s.node s.root s.nLeaf.toNat = .ok code) :
    buildCodesRule s = .next (finish { s with code := code, ctValid := true }) := by
  simp only [buildCodesRule, if_pos hv, hc]

theorem buildCodesRule_of_no_tree {s : State} (hv : s.treeValid = false) :
    buildCodesRule s = .next (finish (raise .notReady 0#32 0#64 s)) := by
  rw [buildCodesRule, hv]
  rfl

/-! ### The bytes that a command still takes and the turns that it still makes -/

/-- How many of its `total` bytes a command at this place has still to take from IN (R113). -/
def Point.bytesLeft (total : Nat) : Point → Nat
  | .entry => total
  | .atPop i => total - i
  | .atCode i _ _ => total - (i + 1)
  | .atBit q _ _ => total - (q + 1)
  | .atEnd => 0

/-- A bound on the turns of a command at this place after the next one: 258 for each byte it has still to take, as a
code has at most 255 characters (R223). -/
def Point.turnsLeft (total : Nat) (p : Point) : Nat :=
  258 * p.bytesLeft total +
    match p with
    | .entry => 2
    | .atPop _ => 1
    | .atCode _ _ j => 2 + (255 - j)
    | .atBit _ _ t => 2 + (8 - t)
    | .atEnd => 0

/-- IN holds the bytes that command `i` has still to take, and `rest` behind them. -/
def Supplied (i : Instr) (rest : List Byte) (s : State) : Prop :=
  ∃ m, s.inQ = m ++ rest ∧ m.length = s.point.bytesLeft (s.bytesIn i)

theorem bytesLeft_of_entry {s : State} (h : s.point = .entry) (i : Instr) :
    s.point.bytesLeft (s.bytesIn i) = s.bytesIn i := by
  rw [h]
  rfl

theorem Supplied.inQ_eq_rest {i : Instr} {rest : List Byte} {s : State} (h : Supplied i rest s)
    (hleft : s.point.bytesLeft (s.bytesIn i) = 0) : s.inQ = rest := by
  obtain ⟨m, hq, hm⟩ := h
  rw [hleft, List.length_eq_zero_iff] at hm
  rw [hq, hm, List.nil_append]

theorem Supplied.exists_byte {i : Instr} {rest : List Byte} {s : State} {k : Nat} (h : Supplied i rest s)
    (hp : s.point = .atPop k) (hk : k < s.bytesIn i) :
    ∃ b m, s.inQ = b :: (m ++ rest) ∧ m.length = s.bytesIn i - (k + 1) := by
  obtain ⟨m, hq, hm⟩ := h
  rw [hp, Point.bytesLeft] at hm
  cases m with
  | nil => rw [List.length_nil] at hm; omega
  | cons b m => exact ⟨b, m, hq, by rw [List.length_cons] at hm; omega⟩

/-- Each place has fewer turns before the next byte than a byte is worth. -/
theorem Point.turnsLeft_le (total : Nat) (p : Point) : p.turnsLeft total ≤ 258 * p.bytesLeft total + 257 := by
  cases p <;> simp only [Point.turnsLeft] <;> omega

/-- The command has ended and has taken exactly its bytes, or it goes on with fewer turns left. -/
def Advances (i : Instr) (rest : List Byte) (s t : State) : Prop :=
  (t.seq = .idle ∧ t.inQ = rest) ∨
  (t.seq = s.seq ∧ Supplied i rest t ∧ t.point.turnsLeft (t.bytesIn i) < s.point.turnsLeft (s.bytesIn i))

/-- A rule whose input is on IN does not hold: it makes progress. -/
def RuleAdvances (i : Instr) (rest : List Byte) (s : State) : Prop :=
  ∃ t, ruleOf i s = .next t ∧ Advances i rest s t

section

variable {i : Instr} {rest : List Byte} {s : State}

theorem Supplied.finishes (h : Supplied i rest s) {u : State} (hq : u.inQ = s.inQ)
    (hleft : s.point.bytesLeft (s.bytesIn i) = 0) : Advances i rest s (finish u) :=
  .inl ⟨rfl, hq.trans (h.inQ_eq_rest hleft)⟩

/-- A turn that takes no byte leads to a place with as many bytes left and fewer turns. -/
theorem Supplied.goesOn (h : Supplied i rest s) {t : State} (hseq : t.seq = s.seq) (hin : t.bytesIn i = s.bytesIn i)
    (hq : t.inQ = s.inQ) (hleft : t.point.bytesLeft (s.bytesIn i) = s.point.bytesLeft (s.bytesIn i))
    (hturns : t.point.turnsLeft (s.bytesIn i) < s.point.turnsLeft (s.bytesIn i)) : Advances i rest s t := by
  obtain ⟨m, hm, hlen⟩ := h
  exact .inr ⟨hseq, ⟨m, hq.trans hm, by rw [hin, hleft, hlen]⟩, hin ▸ hturns⟩

/-- A turn that takes byte `k` leads to a place with one byte less left. -/
theorem advances_of_byte {t : State} {m : List Byte} {k : Nat} (hp : s.point = .atPop k) (hk : k < s.bytesIn i)
    (hm : m.length = s.bytesIn i - (k + 1)) (hseq : t.seq = s.seq) (hin : t.bytesIn i = s.bytesIn i)
    (hq : t.inQ = m ++ rest) (hleft : t.point.bytesLeft (s.bytesIn i) = s.bytesIn i - (k + 1)) :
    Advances i rest s t := by
  refine .inr ⟨hseq, ⟨m, hq, by rw [hin, hleft, hm]⟩, ?_⟩
  have hle := t.point.turnsLeft_le (s.bytesIn i)
  have hturns : s.point.turnsLeft (s.bytesIn i) = 258 * (s.bytesIn i - k) + 1 := by rw [hp]; rfl
  rw [hleft] at hle
  rw [hin, hturns]
  omega

end

/-! ### Every rule whose input is on IN advances -/

theorem recordRule_advances {rest : List Byte} {s : State} (hp : PointOk (.run .record) s.point)
    (h : Supplied .record rest s) : RuleAdvances .record rest s := by
  rcases hp with hp | ⟨k, hp⟩
  · exact ⟨_, recordRule_entry hp, h.goesOn rfl rfl rfl (by simp [hp, Point.bytesLeft])
      (by simp [hp, Point.turnsLeft, Point.bytesLeft])⟩
  · obtain hk | hk := Nat.lt_or_ge k s.msgLen
    · obtain ⟨b, m, hq, hm⟩ := h.exists_byte hp hk
      have hf := frame_recordByte k b { s with inQ := m ++ rest }
      exact ⟨_, recordRule_pop hp hk hq, advances_of_byte hp hk hm (seq_of_frame hf :)
        (congrArg (State.bytesIn .record) hf :) (inQ_recordByte k b { s with inQ := m ++ rest }) rfl⟩
    · exact ⟨_, recordRule_end hp hk, h.finishes rfl (by rw [hp]; exact Nat.sub_eq_zero_of_le hk)⟩

theorem compressRule_advances {rest : List Byte} {s : State} (hp : PointOk (.run .compress) s.point)
    (h : Supplied .compress rest s) : RuleAdvances .compress rest s := by
  have bytesIn_of_frame {t : State} (hf : t.frame = s.frame) : t.bytesIn .compress = s.bytesIn .compress :=
    (congrArg (State.bytesIn .compress) hf :)
  rcases hp with hp | ⟨k, hp⟩ | ⟨k, b, j, hp⟩ | hp
  · have hf := frame_packerStart s
    exact ⟨_, compressRule_entry hp, h.goesOn (seq_of_frame hf :) (bytesIn_of_frame hf)
      (inQ_of_sourcePart (sourcePart_packerStart s)) (by simp [hp, Point.bytesLeft])
      (by simp [hp, Point.turnsLeft, Point.bytesLeft])⟩
  · obtain hk | hk := Nat.lt_or_ge k s.msgLen
    · obtain ⟨b, m, hq, hm⟩ := h.exists_byte hp hk
      have hf := frame_packByte k b { s with inQ := m ++ rest }
      refine ⟨_, compressRule_pop hp hk hq, advances_of_byte hp hk hm (seq_of_frame hf :) (bytesIn_of_frame hf)
        (inQ_of_sourcePart (sourcePart_packByte k b { s with inQ := m ++ rest })) ?_⟩
      rcases point_packByte k b { s with inQ := m ++ rest } with e | e
      · rw [e]; rfl
      · rw [e]; rfl
    · have hf := frame_packTail s
      have hleft : s.bytesIn .compress - k = 0 := Nat.sub_eq_zero_of_le hk
      exact ⟨_, compressRule_tail hp hk, h.goesOn (seq_of_frame hf :) (bytesIn_of_frame hf)
        (inQ_of_sourcePart (sourcePart_packTail s)) (by simp [hp, Point.bytesLeft, hleft])
        (by simp [hp, Point.turnsLeft, Point.bytesLeft])⟩
  · obtain hj | hj := Nat.lt_or_ge j (tableGet s.code b).len.toNat
    · have hlen := (tableGet s.code b).len.isLt
      have hf := frame_packBit ((tableGet s.code b).bits.getLsbD j) s
      exact ⟨_, compressRule_bit hp hj, h.goesOn (seq_of_frame hf :) (bytesIn_of_frame hf)
        (inQ_of_sourcePart (sourcePart_packBit _ s)) (by simp [hp, Point.bytesLeft])
        (by simp only [hp, Point.turnsLeft, Point.bytesLeft]; omega)⟩
    · exact ⟨_, compressRule_codeEnd hp hj, h.goesOn rfl rfl rfl (by simp [hp, Point.bytesLeft])
        (by simp only [hp, Point.turnsLeft, Point.bytesLeft]; omega)⟩
  · exact ⟨_, compressRule_end hp, h.finishes rfl (by rw [hp]; rfl)⟩

@[simp] theorem bitCnt_unpackerStart (s : State) : (unpackerStart s).bitCnt = s.bitCnt := by
  unfold unpackerStart
  dsimp only
  split
  · rfl
  · exact raise_bitCnt ..

theorem bitCnt_unpackStep {q : Nat} {byte : Byte} {k : Nat} {s t : State} (h : unpackStep q byte k s = .ok t) :
    t.bitCnt = s.bitCnt := by
  obtain ⟨-, rfl⟩ | ⟨-, rfl⟩ | ⟨-, n, c, -, -, -, rfl⟩ := unpackStep_ok h
  · rfl
  · exact raise_bitCnt ..
  · unfold landOn
    split <;> rfl

theorem bytesLeft_afterBit (total q : Nat) (byte : Byte) (k : Nat) :
    (afterBit q byte k).bytesLeft total = total - (q + 1) := by
  unfold afterBit
  split <;> rfl

theorem turnsLeft_afterBit (total q : Nat) (byte : Byte) {k : Nat} (hk : k < 8) :
    (afterBit q byte k).turnsLeft total < (Point.atBit q byte k).turnsLeft total := by
  unfold afterBit
  split <;> simp only [Point.turnsLeft, Point.bytesLeft] <;> omega

theorem decompressRule_advances {rest : List Byte} {s : State} (hp : PointOk (.run .decompress) s.point)
    (ht : TreeInv s) (hc : s.point ≠ .entry → s.pend.code = .none → CursorOk s) (h : Supplied .decompress rest s) :
    RuleAdvances .decompress rest s := by
  have bytesIn_of_bitCnt {t : State} (he : t.bitCnt = s.bitCnt) : t.bytesIn .decompress = s.bytesIn .decompress :=
    congrArg (fun c : Count => ceilDiv8 c.toNat) he
  rcases hp with hp | ⟨q, hp⟩ | ⟨q, byte, k, hp, hk⟩
  · exact ⟨_, decompressRule_entry hp, h.goesOn (seq_of_frame (frame_unpackerStart s) :)
      (bytesIn_of_bitCnt (bitCnt_unpackerStart s)) (inQ_of_sourcePart (sourcePart_unpackerStart s))
      (by simp [hp, Point.bytesLeft]) (by simp [hp, Point.turnsLeft, Point.bytesLeft])⟩
  · obtain hq | hq := Nat.lt_or_ge q s.packedLen
    · obtain ⟨b, m, hin, hm⟩ := h.exists_byte hp hq
      exact ⟨_, decompressRule_pop hp hq hin, advances_of_byte hp hq hm rfl rfl rfl rfl⟩
    · exact ⟨_, decompressRule_end hp hq, h.finishes rfl (by rw [hp]; exact Nat.sub_eq_zero_of_le hq)⟩
  · obtain ⟨t, hstep⟩ := exists_unpackStep ht (hc (by simp [hp])) q byte k
    exact ⟨_, decompressRule_bit hp hstep, h.goesOn (seq_of_frame (frame_unpackStep hstep) :)
      (bytesIn_of_bitCnt (bitCnt_unpackStep hstep :)) (inQ_of_sourcePart (sourcePart_unpackStep hstep) :)
      (by rw [hp]; exact bytesLeft_afterBit _ q byte k) (by rw [hp]; exact turnsLeft_afterBit _ q byte hk)⟩

/-- A running command whose input is on IN advances, whatever its outcome will be (R154, R156). -/
theorem ruleOf_advances {i : Instr} {rest : List Byte} {s : State} (hs : Inv s) (hq : s.seq = .run i)
    (h : Supplied i rest s) : RuleAdvances i rest s := by
  have hp := hs.control.pointOk
  rw [hq] at hp
  cases i with
  | init => exact ⟨_, rfl, h.finishes rfl (bytesLeft_of_entry hp .init)⟩
  | record => exact recordRule_advances hp h
  | buildTree =>
    exact ⟨_, rfl, h.finishes (inQ_of_sourcePart (sourcePart_buildTreeBody s)) (bytesLeft_of_entry hp .buildTree)⟩
  | buildCodes =>
    have hleft := bytesLeft_of_entry hp .buildCodes
    cases hv : s.treeValid with
    | false => exact ⟨_, buildCodesRule_of_no_tree hv, h.finishes (raise_inQ ..) hleft⟩
    | true =>
      obtain ⟨code, hcode⟩ := (hs.tree hv).codeTable_ok
      exact ⟨_, buildCodesRule_of_tree hv hcode, h.finishes rfl hleft⟩
  | compress => exact compressRule_advances hp h
  | decompress => exact decompressRule_advances hp hs.tree (hs.cursor hq) h

end Sys2Proof.Machine

namespace Sys2Proof.Machine

open Sys2Proof

/-! ### A command to its end -/

theorem ruleOf_next_lastOp {i : Instr} {s t : State} (h : ruleOf i s = .next t) : t.lastOp = s.lastOp := by
  rcases ruleOf_next_frame h with hf | ⟨u, rfl, hf⟩
  · exact (congrArg State.lastOp hf :)
  · exact (congrArg State.lastOp hf :)

theorem ruleOf_next_script {i : Instr} {s t : State} (h : ruleOf i s = .next t) : t.script = s.script := by
  rcases ruleOf_next_frame h with hf | ⟨u, rfl, hf⟩
  · exact (congrArg State.script hf :)
  · exact (congrArg State.script hf :)

/-- The invariant says nothing of the coming events. -/
theorem Inv.withScript {s : State} (h : Inv s) (x : List HostEvent) : Inv (s.withScript x) :=
  ⟨h.control.congr rfl, h.tree, h.codes, h.cursor⟩

/-- The host's take empties the slot, and the record of what it took is all it changes besides (R87). -/
theorem takeOut_eq (s : State) : ∃ l, takeOut s = { s with outSlot := none, taken := l } := by
  cases h : s.outSlot with
  | none => exact ⟨s.taken, by rw [takeOut_of_no_slot h, ← h]⟩
  | some v => exact ⟨s.taken ++ [v], takeOut_of_slot h⟩

/-- Command `i` has ended and `rest` is left on IN. -/
structure Ended (i : Instr) (rest : List Byte) (t : State) : Prop where
  idle : t.seq = .idle
  done : t.done = true
  lastOp : t.lastOp = opcode i
  inQ : t.inQ = rest
  outSlot : t.outSlot = none

/-- Command `i` is running, its input is on IN, and no byte holds it on OUT. -/
structure Working (i : Instr) (rest : List Byte) (s : State) : Prop where
  inv : Inv s
  running : Running i s
  lastOp : s.lastOp = opcode i
  supplied : Supplied i rest s

/-- An IDLE engine with an empty output slot lets turns and takes pass by (R325). -/
theorem run_hostDrain_idle (n : Nat) {s : State} (hs : s.script = hostDrain n) (hq : s.seq = .idle)
    (ho : s.outSlot = none) : run (2 * n) s = .next (s.withScript []) := by
  induction n generalizing s with
  | zero => exact congrArg _ (by rw [State.withScript, ← (show s.script = [] from hs)])
  | succ n ih =>
    have hengine : step s = .next (s.withScript (.take :: hostDrain n)) :=
      step_of_turn_none (by rw [turn, hs]; simp only [hostDrain, eventTurn, engineTurn, hq, State.withScript])
    have htake := step_take (s := s.withScript (.take :: hostDrain n)) rfl
    rw [takeOut_of_no_slot (s := (s.withScript (.take :: hostDrain n)).withScript (hostDrain n)) ho] at htake
    rw [Nat.mul_succ, run_succ _ hengine, run_succ _ htake]
    exact ih rfl hq ho

/-- One turn and the take after it. -/
theorem Working.turn {i : Instr} {rest : List Byte} {s : State} {n : Nat} (h : Working i rest s)
    (hs : s.script = hostDrain (n + 1)) :
    ∃ t, run 2 s = .next t ∧ t.script = hostDrain n ∧
      (Ended i rest t ∨
        (Working i rest t ∧ t.point.turnsLeft (t.bytesIn i) < s.point.turnsLeft (s.bytesIn i))) := by
  obtain ⟨hinv, hrun, hlast, hsup⟩ := h
  obtain ⟨u, hrule, hadv⟩ := ruleOf_advances (hinv.withScript (.take :: hostDrain n)) hrun.1 hsup
  have hengine : step s = .next u := (step_engine_running hs hrun).trans hrule
  have hscript : u.script = .take :: hostDrain n := ruleOf_next_script hrule
  have htake := step_take hscript
  have hinvu := stepKeepsInvariant s u hinv hengine
  have hinvt := stepKeepsInvariant u _ hinvu htake
  have hlastu : u.lastOp = opcode i := (ruleOf_next_lastOp hrule).trans hlast
  obtain ⟨l, htaken⟩ := takeOut_eq (u.withScript (hostDrain n))
  rw [htaken] at htake hinvt
  refine ⟨_, by rw [run_succ 1 hengine, run_succ 0 htake]; rfl, rfl, ?_⟩
  obtain ⟨hidle, hin⟩ | ⟨hseq, hsupu, hturns⟩ := hadv
  · obtain hseq | ⟨-, hdone⟩ := ruleOf_next_seq hrule
    · exact nomatch (hidle.symm.trans hseq).trans hrun.1
    · exact .inl ⟨hidle, hdone, hlastu, hin, rfl⟩
  · exact .inr ⟨⟨hinvt, ⟨hseq.trans hrun.1, rfl⟩, hlastu, hsupu⟩, hturns⟩

/-- Enough turns end a running command: each one takes a turn off those that are left. -/
theorem Working.ends {i : Instr} {rest : List Byte} (n : Nat) {s : State} (h : Working i rest s)
    (hs : s.script = hostDrain n) (hn : s.point.turnsLeft (s.bytesIn i) < n) :
    ∃ t, run (2 * n) s = .next t ∧ Ended i rest t := by
  induction n generalizing s with
  | zero => exact absurd hn (Nat.not_lt_zero _)
  | succ n ih =>
    obtain ⟨u, hrun, hscript, hend | ⟨hwork, hturns⟩⟩ := h.turn hs
    · refine ⟨u.withScript [], ?_, ⟨hend.idle, hend.done, hend.lastOp, hend.inQ, hend.outSlot⟩⟩
      rw [Nat.mul_succ, Nat.add_comm, run_add 2 _ hrun]
      exact run_hostDrain_idle n hscript hend.idle hend.outSlot
    · obtain ⟨t, hrest, hend⟩ := ih hwork hscript (by omega)
      exact ⟨t, by rw [Nat.mul_succ, Nat.add_comm, run_add 2 _ hrun, hrest], hend⟩

theorem cmdOp_encode (i : Instr) : cmdOp (encode i) = opcode i := by
  cases i <;> rfl

/-- The acceptance of a command whose input is on IN (R151). -/
theorem working_accept {s : State} {i : Instr} {m rest : List Byte} (n : Nat) (hinv : Inv s) (hq : s.seq = .idle)
    (hin : s.inQ = m ++ rest) (hm : m.length = s.bytesIn i) :
    step { s with script := hostCmd i ++ hostDrain n } = .next ((accept i s).withScript (hostDrain n)) ∧
      Working i rest ((accept i s).withScript (hostDrain n)) := by
  have hstep : step { s with script := hostCmd i ++ hostDrain n } = .next ((accept i s).withScript (hostDrain n)) :=
    step_hostCmd rfl hq
  have ho : s.outSlot = none := hinv.control.outSlot_idle (by simp [hq]) (by simp [hq])
  exact ⟨hstep, stepKeepsInvariant _ _ (hinv.withScript _) hstep, ⟨rfl, ho⟩, cmdOp_encode i, m, hin, hm⟩

/-- Settles O55: an accepted command is working, and each turn takes a turn off those it has left; the turns after
its end change nothing. -/
theorem everyCommandEnds : Obligations.EveryCommandEnds := by
  unfold Obligations.EveryCommandEnds
  intro s i m rest hinv hq hin hm
  have hbytes : m.length = s.bytesIn i := by cases i <;> exact hm
  obtain ⟨haccept, hwork⟩ := working_accept (Point.entry.turnsLeft (s.bytesIn i) + 1) hinv hq hin hbytes
  obtain ⟨t, hrun, hend⟩ := hwork.ends _ rfl (Nat.lt_succ_self _)
  exact ⟨_, t, by rw [Nat.add_comm, run_succ _ haccept, hrun], hend.idle, hend.done, hend.lastOp, hend.inQ,
    hend.outSlot⟩

end Sys2Proof.Machine

namespace Sys2Proof.Machine

open Sys2Proof

/-! ### Launching a command -/

/-- Settles O4: CMD is not locked while IDLE, and the decoder names the command. -/
theorem stepRunsTheWrittenCommand : Obligations.StepRunsTheWrittenCommand := by
  unfold Obligations.StepRunsTheWrittenCommand
  intro s off v rest i h hq hoff hd
  have hreg : regOf off = .cmd := regOf_of_and hoff
  have hw : busWrite off v { s with script := rest } = (some i, { s with script := rest }) := by
    simp [busWrite, State.busy, hq, hreg, hd]
  exact step_of_turn_some ((turn_write h).trans hw)

theorem exec_idle {i : Instr} {s : State} (h : s.seq = .idle) : exec i s = .next (accept i s) := by
  rw [exec_eq_runCommand, runCommand_idle h]

theorem exec_running {i : Instr} {s : State} (h : Running i s) : exec i s = ruleOf i s := by
  rw [exec_eq_runCommand, runCommand_rule h.1 h.2]

/-- Settles O6: the acceptance latches the opcode of the command's word. -/
theorem acceptLaunchesTheCommand : Obligations.AcceptLaunchesTheCommand := by
  unfold Obligations.AcceptLaunchesTheCommand
  intro s i hq
  rw [exec_idle hq, accept, latchWord, cmdOp_encode]
  rfl

/-- An illegal word written to CMD while IDLE (R152). -/
theorem step_write_illegal {s : State} {off : BitVec 8} {w : Word} {rest : List HostEvent}
    (h : s.script = .write off w :: rest) (hq : s.seq = .idle) (hoff : off &&& 0xFC#8 = 0x04#8)
    (hd : decode w = none) : step s = .next (illegalWord w { s with script := rest }) := by
  have hreg : regOf off = .cmd := regOf_of_and hoff
  refine step_write h ?_
  simp [busWrite, State.busy, hq, hreg, hd]

/-- Settles O7. -/
theorem illegalWordIsReported : Obligations.IllegalWordIsReported := by
  unfold Obligations.IllegalWordIsReported
  intro s off w rest h hq hoff hd
  refine ⟨?_, rfl⟩
  rw [step_write_illegal h hq hoff hd, illegalWord_eq]
  rfl

/-! ### Success and error reports -/

/-- `finish` of a command without a recorded error (R153, R301). -/
theorem finish_of_success {s : State} (h : s.pend = ErrReport.clear) : finish s = reportSuccess s := by
  simp [finish, reportSuccess, h, ErrReport.clear]

/-- `finish` of a command that has recorded an error (R153, R303). -/
theorem finish_of_error {s : State} {c : ErrorCode} {x : Word} {p : Count} (hc : c ≠ .none) (h : s.pend = ⟨c, x, p⟩) :
    finish s = reportError c x p s := by
  simp [finish, reportError, h, hc]

/-- Settles O23: the body of INIT is `clearCoder`, and it records no error. -/
theorem initClearsTheCoder : Obligations.InitClearsTheCoder := by
  unfold Obligations.InitClearsTheCoder
  intro s hrun hpend
  refine ⟨_, _, ?_, tableGet_replicate 0#64, tableGet_replicate CodeEntry.absent⟩
  exact (exec_running hrun).trans (congrArg _ (finish_of_success (s := clearCoder s) hpend))

theorem packerStart_of_no_codes {s : State} (hp : s.pend.code = .none) (h : s.ctValid = false) :
    packerStart s = { s with
      acc := 0#8, k := 0, nbits := 0#64, packOut := 0#64, pend := ⟨.notReady, 0#32, 0#64⟩ } := by
  simp [packerStart, h, raise_of_clear, hp]

theorem unpackerStart_of_no_tree {s : State} (hp : s.pend.code = .none) (h : s.treeValid = false) :
    unpackerStart s = { s with unpackOut := 0#64, cur := s.root, pend := ⟨.notReady, 0#32, 0#64⟩ } := by
  simp [unpackerStart, h, raise_of_clear, hp]

/-- Settles O37: the readiness check is the first line of each of the three rules. -/
theorem notReadyIsReported : Obligations.NotReadyIsReported := by
  unfold Obligations.NotReadyIsReported
  refine ⟨fun s hrun hpend hv => ?_, fun s hrun hpoint hpend hv => ?_, fun s hrun hpoint hpend hv => ?_⟩
  · have hp : s.pend.code = .none := by rw [hpend]
    rw [exec_running hrun]
    refine (buildCodesRule_of_no_tree hv).trans ?_
    rw [raise_of_clear hp, finish_of_error (c := .notReady) (by decide) rfl]
    rfl
  · rw [exec_running hrun]
    refine (compressRule_entry hpoint).trans ?_
    rw [packerStart_of_no_codes (by rw [hpend]) hv]
  · rw [exec_running hrun]
    refine (decompressRule_entry hpoint).trans ?_
    rw [unpackerStart_of_no_tree (by rw [hpend]) hv]

/-! ### The report and the interrupt -/

/-- A command that ends has left no byte on OUT: its last turn pushes none (R93). -/
theorem ruleOf_next_outSlot_of_idle {i : Instr} {s t : State} (h : ruleOf i s = .next t) (hq : s.seq = .run i)
    (ho : s.outSlot = none) (ht : t.seq = .idle) : t.outSlot = none := by
  have running {u : State} (hf : u.frame = s.frame) : u.seq ≠ .idle := by simp [seq_of_frame hf, hq]
  obtain e | rfl | rfl := ruleOf_next_outSlot h
  · exact e.trans ho
  · obtain ⟨-, rfl⟩ | ⟨i, b, rest, -, -, -, rfl⟩ | ⟨i, -, -, rfl⟩ | ⟨i, b, j, -, -, rfl⟩ |
      ⟨i, b, j, -, -, rfl⟩ | ⟨-, rfl⟩ | rfl := compressRule_next h
    · exact absurd ht (running (frame_packerStart s))
    · exact absurd ht (running (frame_packByte i b { s with inQ := rest }))
    · exact absurd ht (running (frame_packTail s))
    · exact absurd ht (running (frame_packBit _ s))
    · exact ho
    · exact ho
    · exact ho
  · obtain ⟨-, rfl⟩ | ⟨q, b, rest, -, -, -, rfl⟩ | ⟨q, -, -, rfl⟩ | ⟨q, byte, k, s', -, hs, rfl⟩ |
      rfl := decompressRule_next h
    · exact absurd ht (running (frame_unpackerStart s))
    · exact ho
    · exact ho
    · exact absurd ht (running (frame_unpackStep hs :))
    · exact ho

/-- The turn that ends a running command is a `finish`, with no byte left on OUT (R153, R93). -/
theorem exec_next_idle {i : Instr} {s t : State} (hq : s.seq = .run i) (h : exec i s = .next t) (ht : t.seq = .idle) :
    ∃ u, t = finish u ∧ u.frame = s.frame ∧ t.outSlot = none := by
  obtain ⟨-, rfl⟩ | ⟨ho, hr⟩ := exec_running_next hq h
  · simp [hq] at ht
  · obtain hf | ⟨u, rfl, hf⟩ := ruleOf_next_frame hr
    · simp [seq_of_frame hf, hq] at ht
    · exact ⟨u, rfl, hf, ruleOf_next_outSlot_of_idle hr hq ho ht⟩

/-- A turn of a running command that does not end it leaves the frame alone. -/
theorem exec_next_running {i : Instr} {s t : State} (hq : s.seq = .run i) (h : exec i s = .next t)
    (ht : t.seq ≠ .idle) : t.frame = s.frame := by
  obtain ⟨-, rfl⟩ | ⟨-, hr⟩ := exec_running_next hq h
  · rfl
  · obtain hf | ⟨u, rfl, -⟩ := ruleOf_next_frame hr
    · exact hf
    · exact absurd rfl ht

theorem irq_of_not_done {s : State} (h : s.done = false) : s.irq = false := by
  rw [State.irq, h, Bool.and_false]

theorem irq_of_done {s : State} (h : s.done = true) : s.irq = s.ie := by
  rw [State.irq, h, Bool.and_true]

/-- Settles O20: a turn of a running command is a `finish` or leaves the frame alone; `irq` follows DONE and IE
through each write. -/
theorem finishReportsAndRaisesIrq : Obligations.FinishReportsAndRaisesIrq := by
  unfold Obligations.FinishReportsAndRaisesIrq
  refine ⟨fun i s t hq h => ⟨fun ht => ?_, fun ht => ?_⟩, fun s => ⟨?_, fun hs hq => ?_⟩, fun i s hq => ?_,
    fun s off v rest h => ⟨fun hoff hv => ?_, fun hoff => ?_, fun hoff hq hd => ?_, fun hq hoff => ?_⟩⟩
  · obtain ⟨u, rfl, hf, ho⟩ := exec_next_idle hq h ht
    have hie : u.ie = s.ie := (congrArg State.ie hf :)
    exact ⟨rfl, rfl, rfl, rfl, rfl, (irq_of_done rfl).trans hie, ho, rfl⟩
  · have hf := exec_next_running hq h ht
    exact ⟨(seq_of_frame hf).trans hq, (congrArg State.done hf :), (congrArg State.err hf :),
      (congrArg State.errCode hf :), (congrArg State.errInfo hf :), (congrArg State.errPos hf :)⟩
  · rw [State.irq, Bool.and_eq_true]
  · obtain ⟨hdone, -⟩ := hs.busyClean hq
    exact irq_of_not_done hdone
  · exact ⟨_, exec_idle hq, irq_of_not_done rfl⟩
  · obtain ⟨-, hack, -⟩ := busyLock s off v rest h
    exact ⟨_, hack hoff hv, irq_of_not_done rfl⟩
  · obtain ⟨-, -, hirqEn, -⟩ := busyLock s off v rest h
    exact ⟨_, hirqEn hoff, rfl⟩
  · exact ⟨_, step_write_illegal h hq hoff hd, irq_of_done rfl⟩
  · exact ⟨_, step_write_rejected h hq (locked_of_offset hoff), rfl⟩

end Sys2Proof.Machine

namespace Sys2Proof.Machine

open Sys2Proof

/-! ### Counting bytes -/

/-- The counters after one more byte `b` (R171). -/
def countByte (f : Vector Count 256) (b : Byte) : Vector Count 256 := tableSet f b (tableGet f b + 1#64)

theorem eq_maxCount_iff {c : Count} : c = Config.maxCount ↔ c.toNat = 2 ^ 64 - 1 := by
  rw [← BitVec.toNat_inj, BitVec.toNat_allOnes]

theorem toNat_countByte {f : Vector Count 256} {b : Byte} (h : (tableGet f b).toNat < 2 ^ 64 - 1) (c : Byte) :
    (tableGet (countByte f b) c).toNat = (tableGet f c).toNat + if c = b then 1 else 0 := by
  rw [countByte, tableGet_tableSet]
  split
  · next e =>
    rw [e]
    exact BitVec.toNat_add_of_lt (by rw [BitVec.toNat_ofNat]; omega)
  · rfl

/-- The room that the counters need for a message is enough for its first byte. -/
theorem lt_maxCount_of_count_cons {f : Vector Count 256} {b : Byte} {m : List Byte}
    (h : ∀ c, (tableGet f c).toNat + (b :: m).count c < 2 ^ 64) : (tableGet f b).toNat < 2 ^ 64 - 1 := by
  have hb := h b
  rw [List.count_cons_self] at hb
  omega

theorem toNat_countByte_add_count {f : Vector Count 256} {b : Byte} {m : List Byte}
    (h : (tableGet f b).toNat < 2 ^ 64 - 1) (c : Byte) :
    (tableGet (countByte f b) c).toNat + m.count c = (tableGet f c).toNat + (b :: m).count c := by
  rw [toNat_countByte h, List.count_cons, Nat.add_assoc, Nat.add_comm (m.count c)]
  simp only [beq_iff_eq, eq_comm (a := b)]

/-- A message that no counter overflows on adds to each counter the number of times its byte occurs (R170, R171). -/
theorem toNat_foldl_countByte (m : List Byte) {f : Vector Count 256}
    (h : ∀ c, (tableGet f c).toNat + m.count c < 2 ^ 64) (c : Byte) :
    (tableGet (m.foldl countByte f) c).toNat = (tableGet f c).toNat + m.count c := by
  induction m generalizing f with
  | nil => rfl
  | cons b m ih =>
    have hb := lt_maxCount_of_count_cons h
    rw [List.foldl_cons, ih (fun d => toNat_countByte_add_count hb d ▸ h d), toNat_countByte_add_count hb]

/-! ### One turn of RECORD -/

/-- The info word of an error is a value, zero-extended (R300). -/
theorem zero_append_eq_setWidth {w : Nat} (k : Nat) (x : BitVec w) : 0#k ++ x = x.setWidth (k + w) :=
  BitVec.eq_of_toNat_eq (by rw [BitVec.toNat_setWidth_of_le (Nat.le_add_left w k)]; simp)

theorem recordByte_counts {i : Nat} {b : Byte} {s : State} (hp : s.pend.code = .none)
    (hb : (tableGet s.freq b).toNat < 2 ^ 64 - 1) :
    recordByte i b s = { s with freq := countByte s.freq b } := by
  rw [recordByte, if_pos hp, if_neg (fun e => hb.ne (eq_maxCount_iff.mp e))]
  rfl

theorem recordByte_overflows {i : Nat} {b : Byte} {s : State} (hp : s.pend.code = .none)
    (hb : (tableGet s.freq b).toNat = 2 ^ 64 - 1) :
    recordByte i b s = { s with pend := ⟨.counterOverflow, b.setWidth 32, BitVec.ofNat 64 i⟩ } := by
  rw [recordByte, if_pos hp, if_pos (eq_maxCount_iff.mpr hb), raise_of_clear hp, zero_append_eq_setWidth]

theorem recordByte_drains {i : Nat} {b : Byte} {s : State} (hp : s.pend.code ≠ .none) : recordByte i b s = s := by
  rw [recordByte, if_neg hp]

/-- Settles O24: the three cases of a popped byte are those of `recordByte`. -/
theorem recordCountsOneByte : Obligations.RecordCountsOneByte := by
  unfold Obligations.RecordCountsOneByte
  intro s i b rest hrun hpoint hi hq
  have hpop := (exec_running hrun).trans (recordRule_pop hpoint hi hq)
  refine ⟨fun hp hb => ⟨countByte s.freq b, ?_, toNat_countByte hb⟩, fun hp hb => ?_, fun hp => ?_⟩
  · rw [hpop, recordByte_counts (s := { s with inQ := rest }) hp hb]
  · rw [hpop, recordByte_overflows (s := { s with inQ := rest }) hp hb]
  · rw [hpop, recordByte_drains (s := { s with inQ := rest }) hp]

/-- Settles O25: the end is a `finish`, whose report is that of the pending error. -/
theorem recordStartsAndEnds : Obligations.RecordStartsAndEnds := by
  unfold Obligations.RecordStartsAndEnds
  intro s hrun
  rw [exec_running hrun]
  refine ⟨recordRule_entry, fun i hpoint hi => ?_⟩
  have hend : ruleOf .record s = .next (finish s) := recordRule_end hpoint hi
  exact ⟨fun hp => hend.trans (congrArg _ (finish_of_success hp)),
    fun c x p hc hp => hend.trans (congrArg _ (finish_of_error hc hp))⟩

/-! ### RECORD of a whole message -/

/-- Where no event comes, the running command makes its turn (R361). -/
theorem step_running_of_no_event {i : Instr} {s : State} (h : s.script = []) (hs : Running i s) :
    step s = ruleOf i s :=
  ((stepRunsTheRunningCommand s i hs.1).1 h).trans (exec_running hs)

/-- RECORD about to pop byte `i`: no event comes, `q` is left on IN, and the counters are `f`. -/
def State.atRecord (s : State) (i : Nat) (q : List Byte) (f : Vector Count 256) : State :=
  { s with script := [], point := .atPop i, inQ := q, freq := f }

theorem step_atRecord_entry {s : State} (hs : Running .record s) (hscript : s.script = []) (hpoint : s.point = .entry) :
    step s = .next (s.atRecord 0 s.inQ s.freq) := by
  rw [step_running_of_no_event hscript hs, State.atRecord, ← hscript]
  exact recordRule_entry hpoint

theorem step_atRecord_pop {s : State} {i : Nat} {b : Byte} {q : List Byte} {f : Vector Count 256}
    (hs : Running .record s) (hp : s.pend.code = .none) (hi : i < s.msgLen)
    (hb : (tableGet f b).toNat < 2 ^ 64 - 1) :
    step (s.atRecord i (b :: q) f) = .next (s.atRecord (i + 1) q (countByte f b)) := by
  rw [step_running_of_no_event (s := s.atRecord i (b :: q) f) rfl hs]
  refine (recordRule_pop (s := s.atRecord i (b :: q) f) rfl hi rfl).trans ?_
  rw [recordByte_counts (s := { s.atRecord i (b :: q) f with inQ := q }) hp hb]
  rfl

theorem step_atRecord_end {s : State} {q : List Byte} {f : Vector Count 256} (hs : Running .record s)
    (hp : s.pend = ErrReport.clear) :
    step (s.atRecord s.msgLen q f) = .next (reportSuccess (s.atRecord s.msgLen q f)) := by
  rw [step_running_of_no_event (s := s.atRecord s.msgLen q f) rfl hs]
  exact (recordRule_end (s := s.atRecord s.msgLen q f) rfl (Nat.le_refl _)).trans (congrArg _ (finish_of_success hp))

/-- The loop of R170 over the bytes of a message, from byte `i` on. -/
theorem run_atRecord {s : State} {rest : List Byte} (hs : Running .record s) (hp : s.pend.code = .none)
    (m : List Byte) {i : Nat} {f : Vector Count 256} (hi : i + m.length = s.msgLen)
    (hf : ∀ c, (tableGet f c).toNat + m.count c < 2 ^ 64) :
    run m.length (s.atRecord i (m ++ rest) f) = .next (s.atRecord s.msgLen rest (m.foldl countByte f)) := by
  induction m generalizing i f with
  | nil => exact congrArg (fun j => Host.Outcome.next (s.atRecord j rest f)) hi
  | cons b m ih =>
    rw [List.length_cons] at hi
    have hb : (tableGet f b).toNat < 2 ^ 64 - 1 := lt_maxCount_of_count_cons hf
    rw [List.length_cons, List.cons_append, run_succ _ (step_atRecord_pop hs hp (by omega) hb)]
    exact ih (by omega) (fun c => toNat_countByte_add_count hb c ▸ hf c)

/-- Settles O26: the acceptance, the entry, one turn for each byte of the message, and the end; the loop leaves the
counters of the whole message. -/
theorem recordCountsTheMessage : Obligations.RecordCountsTheMessage := by
  unfold Obligations.RecordCountsTheMessage
  intro s m rest hq ho hscript hin hlen hfreq
  have haccept : step s = .next ((accept .record s).withScript []) :=
    step_hostCmd (hscript.trans (List.append_nil _).symm) hq
  have hs : Running .record ((accept .record s).withScript []) := ⟨rfl, ho⟩
  have hentry := step_atRecord_entry hs rfl rfl
  have hloop := run_atRecord (rest := rest) (f := s.freq) hs rfl m ((Nat.zero_add _).trans hlen.symm) hfreq
  rw [← hin] at hloop
  have hend := step_atRecord_end (q := rest) (f := m.foldl countByte s.freq) hs rfl
  refine ⟨m.foldl countByte s.freq, ?_, toNat_foldl_countByte m hfreq⟩
  calc run (m.length + 3) s
    _ = run (m.length + 2) ((accept .record s).withScript []) := run_succ _ haccept
    _ = run (m.length + 1) (((accept .record s).withScript []).atRecord 0 s.inQ s.freq) := run_succ _ hentry
    _ = run 1 (((accept .record s).withScript []).atRecord s.msgLen rest (m.foldl countByte s.freq)) :=
      run_add m.length 1 hloop
    _ = _ := run_succ 0 hend

end Sys2Proof.Machine

/-! ### The priority queue and the merges of BUILD_TREE

A queue is ordered by weight, and by node index where weights are equal (`Precedes`), so each merge takes the two
nodes that come first of all that is left. The statements about the finished tree follow from what one merge
keeps (`Weighed`) and from its being the same for any two arenas that agree below the new node. -/

namespace Sys2Proof.Machine

open Sys2Proof

/-! #### Weights -/

theorem weightOf_of_getElem? {t : Vector Node 511} {i : NodeIdx} {a : Node} (h : t[i.toNat]? = some a) :
    weightOf t i = a.weight := by
  simp [weightOf, nodeGet, h]

theorem weightOf_congr {t t' : Vector Node 511} {i : NodeIdx} (h : t'[i.toNat]? = t[i.toNat]?) :
    weightOf t' i = weightOf t i := by
  simp [weightOf, nodeGet, h]

/-- A node index other than NULL names an entry (R116). -/
theorem toNat_lt_of_ne_null {i : NodeIdx} (h : i ≠ Config.null) : i.toNat < 511 := by
  have hne : i.toNat ≠ 511 := fun e => h (BitVec.eq_of_toNat_eq e)
  have := i.isLt
  omega

/-! #### PQInsert and PQExtractMin -/

/-- Settles O27: the entries passed are `a`, the first greater one and what follows it are `c`. -/
theorem pqInsertPlace : Obligations.PqInsertPlace := by
  unfold Obligations.PqInsertPlace
  intro t i q
  induction q with
  | nil => exact ⟨[], [], rfl, rfl, nofun, nofun⟩
  | cons j q ih =>
    by_cases hlt : weightOf t i < weightOf t j
    · refine ⟨[], j :: q, rfl, by simp [pqInsert, hlt], nofun, fun k hk => ?_⟩
      obtain rfl : j = k := by simpa using hk
      exact hlt
    · obtain ⟨a, c, rfl, hins, ha, hc⟩ := ih
      refine ⟨j :: a, c, rfl, by simp [pqInsert, hlt, hins], fun k hk => ?_, hc⟩
      obtain rfl | hk := List.mem_cons.mp hk
      · exact Nat.le_of_not_lt hlt
      · exact ha k hk

/-- Inserting keeps an order of the queue that implies the one by weight, when the new entry comes after those of
no greater weight and before those of a greater one. -/
theorem pairwise_pqInsert {t : Vector Node 511} {i : NodeIdx} {q : List NodeIdx} {R : NodeIdx → NodeIdx → Prop}
    (hR : ∀ a b, R a b → (weightOf t a).toNat ≤ (weightOf t b).toNat) (hq : q.Pairwise R)
    (hle : ∀ j ∈ q, (weightOf t j).toNat ≤ (weightOf t i).toNat → R j i)
    (hlt : ∀ j ∈ q, (weightOf t i).toNat < (weightOf t j).toNat → R i j) : (pqInsert t i q).Pairwise R := by
  obtain ⟨a, c, rfl, hins, ha, hc⟩ := pqInsertPlace t i q
  obtain ⟨haa, hcc, hac⟩ := List.pairwise_append.mp hq
  have after : ∀ j ∈ c, R i j := fun j hj => by
    refine hlt j (by simp [hj]) ?_
    cases c with
    | nil => cases hj
    | cons k c =>
      have hik : (weightOf t i).toNat < (weightOf t k).toNat := hc k rfl
      obtain rfl | hj := List.mem_cons.mp hj
      · exact hik
      · exact hik.trans_le (hR k j (List.rel_of_pairwise_cons hcc hj))
  rw [hins, List.pairwise_append, List.pairwise_cons]
  refine ⟨haa, ⟨after, hcc⟩, fun j hj k hk => ?_⟩
  obtain rfl | hk := List.mem_cons.mp hk
  · exact hle j (by simp [hj]) (ha j hj)
  · exact hac j hj k hk

/-- Settles O28: the place of the new entry keeps the order by weight, and the others stay in theirs. -/
theorem pqInsertKeepsOrder : Obligations.PqInsertKeepsOrder := by
  unfold Obligations.PqInsertKeepsOrder
  intro t i q hq
  refine ⟨pairwise_pqInsert (fun _ _ h => h) hq (fun _ _ h => h) (fun _ _ h => h.le), ?_,
    (pqInsert_perm t i q).length_eq⟩
  obtain ⟨a, c, rfl, hins, -, -⟩ := pqInsertPlace t i q
  rw [hins]
  exact (List.sublist_cons_self i c).append_left a

theorem pqExtractMin_of_cons {b : Builder} {q : NodeIdx} {qs : List NodeIdx} (h : b.pq = q :: qs) :
    pqExtractMin b = (q, { b with pq := qs }) := by
  simp [pqExtractMin, h]

theorem pqExtractMin_of_nil {b : Builder} (h : b.pq = []) :
    pqExtractMin b = (Config.null,
      { b with pend := if b.pend.code = .none then ⟨.emptyQueue, 0#32, 0#64⟩ else b.pend }) := by
  cases b
  cases h
  rfl

/-- A merge leaves the nodes alone that are neither the new one nor its children. -/
theorem getElem?_mergedNodes_other (t : Vector Node 511) {x y z : NodeIdx} {i : Nat} (hz : z.toNat < 511)
    (hx : i ≠ x.toNat) (hy : i ≠ y.toNat) (hi : i ≠ z.toNat) : (mergedNodes t x y z)[i]? = t[i]? := by
  rw [mergedNodes, getElem?_setParent, if_neg hy, getElem?_setParent, if_neg hx, getElem?_nodeSet _ _ _ hz, if_neg hi]

/-- Settles O29: PQExtractMin is the case split of its definition, and a merge leaves `mergedNodes`. -/
theorem pqExtractTakesTheFirst : Obligations.PqExtractTakesTheFirst := by
  unfold Obligations.PqExtractTakesTheFirst
  refine ⟨fun b => ⟨fun q qs h => pqExtractMin_of_cons h, fun h hp => ?_, fun h hp => ?_⟩, rfl,
    fun b x y z qs nx ny hq hp hnx hny hz _ hxz hyz => ?_⟩
  · rw [pqExtractMin_of_nil h, if_pos hp]
  · rw [pqExtractMin_of_nil h, if_neg hp]
  · have hz' : z.toNat < 511 := toNat_lt_of_ne_null hz
    have hm := merged_mergedNodes b.node hz' hxz hyz
    refine ⟨mergedNodes b.node x y z, mergeOnce_of_cons z hq hp, ?_, ?_, ?_,
      fun i hx hy hi => getElem?_mergedNodes_other b.node hz' hx hy hi⟩
    · rw [hm.made, weightOf_of_getElem? hnx, weightOf_of_getElem? hny]
      rfl
    · rw [hm.kept _ nx (fun e => hxz (BitVec.eq_of_toNat_eq e)) hnx, if_pos (.inl rfl)]
    · rw [hm.kept _ ny (fun e => hyz (BitVec.eq_of_toNat_eq e)) hny, if_pos (.inr rfl)]

end Sys2Proof.Machine

namespace Sys2Proof.Machine

open Sys2Proof

/-! #### The outcome of BUILD_TREE -/

/-- The root, and what BUILD_TREE leaves in its memories, with no error recorded before. -/
def builtTree (s : State) : NodeIdx × Builder :=
  buildFrom (nDistinct s.freq) (seedAll s.freq s.node ErrReport.clear)

theorem pend_builtTree {s : State} (hn : 1 ≤ nDistinct s.freq) : (builtTree s).2.pend = ErrReport.clear :=
  (buildFrom_seedAll s.node (by omega) rfl).1

theorem treeOk_builtTree {s : State} (hn : 1 ≤ nDistinct s.freq) :
    TreeOk (builtTree s).2.node (builtTree s).1 (nDistinct s.freq) :=
  (buildFrom_seedAll s.node (by omega) rfl).2

theorem root_builtTree {s : State} (hn : 1 ≤ nDistinct s.freq) :
    (builtTree s).1 = BitVec.ofNat 9 (if nDistinct s.freq = 1 then 1 else 2 * nDistinct s.freq - 2) := by
  rw [← (treeOk_builtTree hn).rootIs, BitVec.ofNat_toNat, BitVec.setWidth_eq]

/-- The state with the tree in place of what NODE, PQ, ROOT and NLEAF held, and no code table (R197). -/
def State.withTree (s : State) : State :=
  { s with
    node := (builtTree s).2.node, pq := (builtTree s).2.pq, ctValid := false, treeValid := true
    root := (builtTree s).1, nLeaf := BitVec.ofNat 9 (nDistinct s.freq) }

theorem buildTreeBody_of_present {s : State} (hpend : s.pend = ErrReport.clear) (hn : 1 ≤ nDistinct s.freq) :
    buildTreeBody s = s.withTree := by
  have hp : (buildFrom (nDistinct s.freq) (seedAll s.freq s.node s.pend)).2.pend = s.pend := by
    rw [hpend]
    exact pend_builtTree hn
  have hcode : s.pend.code = .none := by rw [hpend]; rfl
  simp only [buildTreeBody, State.withTree, builtTree, ← hpend, hp]
  rw [if_neg (by omega), if_neg (not_not.mpr hcode)]

/-- BUILD_TREE over one or more byte values makes its tree and reports success (R194). -/
theorem exec_buildTree_of_present {s : State} (hrun : Running .buildTree s) (hpend : s.pend = ErrReport.clear)
    (hn : 1 ≤ nDistinct s.freq) : exec .buildTree s = .next (reportSuccess s.withTree) := by
  have hbody : ruleOf .buildTree s = .next (finish s.withTree) :=
    congrArg (fun u => Host.Outcome.next (finish u)) (buildTreeBody_of_present hpend hn)
  rw [exec_running hrun, hbody, finish_of_success (s := s.withTree) hpend]

/-- Settles O30: with no counter other than 0 the body of BUILD_TREE only raises the error. -/
theorem buildTreeOfNothing : Obligations.BuildTreeOfNothing := by
  unfold Obligations.BuildTreeOfNothing
  intro s hrun hpend hfreq
  have hn : nDistinct s.freq = 0 := List.countP_eq_zero.mpr fun b _ => by simp [hfreq b]
  have hbody : buildTreeBody s = { s with pend := ⟨.emptyAlphabet, 0#32, 0#64⟩ } := by
    simp [buildTreeBody, hn, raise_of_clear, hpend]
  refine ⟨?_, rfl⟩
  have hrule : ruleOf .buildTree s = .next (finish { s with pend := ⟨.emptyAlphabet, 0#32, 0#64⟩ }) :=
    congrArg (fun u => Host.Outcome.next (finish u)) hbody
  rw [exec_running hrun, hrule, finish_of_error (c := .emptyAlphabet) (by decide) rfl]
  rfl

/-- Settles O32: no merge finds the queue empty, and the finished tree has the root of its shape. -/
theorem buildTreeSucceeds : Obligations.BuildTreeSucceeds := by
  unfold Obligations.BuildTreeSucceeds
  intro s hrun hpend hn
  refine ⟨(builtTree s).2.node, (builtTree s).2.pq, ?_⟩
  rw [exec_buildTree_of_present hrun hpend hn, ← root_builtTree hn]
  rfl

/-- Settles O34: the finished queue is a forest of one tree. -/
theorem buildTreeShape : Obligations.BuildTreeShape := by
  unfold Obligations.BuildTreeShape
  intro s t hrun hpend hn h
  rw [exec_buildTree_of_present hrun hpend hn] at h
  cases h
  exact treeOk_builtTree hn

/-! #### The tree of one symbol -/

theorem buildFrom_one (b : Builder) : buildFrom 1 b = padRoot b := rfl

theorem padRoot_leaf {b : Builder} {a : Node} (h : b.node[0]? = some a) :
    (padRoot b).2.node[0]? = some { a with parent := 1#9 } := by
  rw [padRoot, getElem?_setParent, if_pos (by decide), getElem?_nodeSet _ _ _ (by decide), if_neg (by decide), h]
  rfl

theorem padRoot_root {b : Builder} {a : Node} (h : b.node[0]? = some a) :
    (padRoot b).2.node[1]? = some (internalNode a.weight 0#9 Config.null) := by
  rw [padRoot, getElem?_setParent, if_neg (by decide), getElem?_nodeSet _ _ _ (by decide), if_pos (by decide),
    weightOf_of_getElem? (i := 0#9) h]

/-- With one present byte value, BUILD_TREE makes its leaf and the pad node over it (R198). -/
theorem nodes_builtTree_of_one {s : State} {v : Byte} (h : presentIn s.freq allBytes = [v]) :
    (builtTree s).2.node[0]? = some { leafNode v (tableGet s.freq v) with parent := 1#9 } ∧
    (builtTree s).2.node[1]? = some (internalNode ((tableGet s.freq v).setWidth 72) 0#9 Config.null) := by
  have hn : nDistinct s.freq = 1 := by rw [nDistinct_eq_present, h]; rfl
  have hleaf : (seedAll s.freq s.node ErrReport.clear).node[0]? = some (leafNode v (tableGet s.freq v)) :=
    (seeded_seedAll ..).nodes 0 v (by rw [h]; rfl)
  rw [builtTree, hn, buildFrom_one]
  exact ⟨padRoot_leaf hleaf, padRoot_root hleaf⟩

theorem presentIn_of_only {freq : Vector Count 256} {b : Byte} (h : ∀ c, tableGet freq c ≠ 0#64 ↔ c = b) :
    presentIn freq allBytes = [b] := by
  simp only [presentIn, h]
  rw [List.filter_eq, List.count_eq_one_of_mem allBytes_nodup (mem_allBytes b)]
  rfl

/-- Settles O31: the one present byte value is leaf 0, and node 1 is the pad node. -/
theorem buildTreeOfOneSymbol : Obligations.BuildTreeOfOneSymbol := by
  unfold Obligations.BuildTreeOfOneSymbol
  intro s b hrun hpend hfreq
  have hone := presentIn_of_only hfreq
  have hn : nDistinct s.freq = 1 := by rw [nDistinct_eq_present, hone]; rfl
  have hroot : (builtTree s).1 = 1#9 := by rw [root_builtTree hn.ge, hn]; rfl
  refine ⟨(builtTree s).2.node, (builtTree s).2.pq, ?_, nodes_builtTree_of_one hone⟩
  rw [exec_buildTree_of_present hrun hpend hn.ge, State.withTree, hroot, hn]

end Sys2Proof.Machine

namespace Sys2Proof.Machine

open Sys2Proof

/-! #### The merges one by one -/

theorem NodeIs.imp {t : Vector Node 511} {i : Nat} {P Q : Node → Prop} (h : NodeIs t i P) (hPQ : ∀ a, P a → Q a) :
    NodeIs t i Q :=
  have ⟨a, ha, hp⟩ := h
  ⟨a, ha, hPQ a hp⟩

theorem NodeIs.and {t : Vector Node 511} {i : Nat} {P Q : Node → Prop} (hP : NodeIs t i P) (hQ : NodeIs t i Q) :
    NodeIs t i (fun a => P a ∧ Q a) := by
  obtain ⟨a, ha, hp⟩ := hP
  obtain ⟨b, hb, hq⟩ := hQ
  cases ha.symm.trans hb
  exact ⟨a, ha, hp, hq⟩

/-- The next turn of the merge loop: the two first entries `x` and `y` of the queue are merged into node `z`. -/
theorem Forest.mergeLoop_succ {n : Nat} (hn : n ≤ 256) {z : Nat} {b : Builder} (h : Forest b.node n z b.pq)
    (hp : b.pend.code = .none) (hnz : n ≤ z) (hz : z + 1 < 2 * n) (c : Nat) :
    ∃ x y qs t, b.pq = x :: y :: qs ∧ Merged b.node t x y (BitVec.ofNat 9 z) ∧
      Machine.mergeLoop (c + 1) z b =
        Machine.mergeLoop c (z + 1) { b with node := t, pq := pqInsert t (BitVec.ofNat 9 z) qs } := by
  have hzi : (BitVec.ofNat 9 z : NodeIdx).toNat = z := nodeIdx_toNat (by omega)
  obtain ⟨x, y, qs, hq⟩ : ∃ x y qs, b.pq = x :: y :: qs := by
    have hlen := h.length
    match hb : b.pq with
    | [] | [_] => rw [hb] at hlen; simp at hlen; omega
    | x :: y :: qs => exact ⟨x, y, qs, rfl⟩
  have below : ∀ j ∈ x :: y :: qs, j ≠ BitVec.ofNat 9 z := fun j hj e => by
    have := h.queued j (hq ▸ hj)
    rw [e, hzi] at this
    omega
  refine ⟨x, y, qs, mergedNodes b.node x y (BitVec.ofNat 9 z), hq,
    merged_mergedNodes b.node (by omega) (below x (by simp)) (below y (by simp)), ?_⟩
  rw [Machine.mergeLoop, mergeOnce_of_cons _ hq hp]
  exact if_neg (not_not.mpr hp)

/-- What every merge of a forest keeps holds when the merges are made. -/
theorem Forest.mergeLoop_induction {n : Nat} (hn : n ≤ 256) {P : Nat → Vector Node 511 → List NodeIdx → Prop}
    (step : ∀ {t t' : Vector Node 511} {x y z : NodeIdx} {qs : List NodeIdx}, n ≤ z.toNat →
      Forest t n z.toNat (x :: y :: qs) → Merged t t' x y z → P z.toNat t (x :: y :: qs) →
      P (z.toNat + 1) t' (pqInsert t' z qs))
    (c : Nat) {z : Nat} {b : Builder} (h : Forest b.node n z b.pq) (hp : b.pend.code = .none) (hnz : n ≤ z)
    (hz : z + c + 1 = 2 * n) (hP : P z b.node b.pq) :
    P (2 * n - 1) (Machine.mergeLoop c z b).node (Machine.mergeLoop c z b).pq := by
  induction c generalizing z b with
  | zero => exact (by omega : z = 2 * n - 1) ▸ hP
  | succ c ih =>
    obtain ⟨x, y, qs, t, hq, hm, hloop⟩ := h.mergeLoop_succ hn hp hnz (by omega) c
    have hzi : (BitVec.ofNat 9 z : NodeIdx).toNat = z := nodeIdx_toNat (by omega)
    rw [hq, ← hzi] at h hP
    have h' := h.merge hm (pqInsert_perm t _ qs) (by omega) (by omega)
    have hP' := step (by omega) h hm hP
    rw [hzi] at h' hP'
    rw [hloop]
    exact ih h' hp (by omega) (by omega) hP'

/-- After the last merge the queue holds the root only. -/
theorem Forest.buildFrom {n : Nat} (h1 : n ≠ 1) (hn : n ≤ 256) {b : Builder} (h : Forest b.node n n b.pq)
    (hp : b.pend.code = .none) (hpos : 1 ≤ n) :
    (Machine.buildFrom n b).2.node = (Machine.mergeLoop (n - 1) n b).node ∧
    (Machine.mergeLoop (n - 1) n b).pq = [(Machine.buildFrom n b).1] := by
  obtain ⟨-, hf⟩ := h.mergeLoop hn (n - 1) hp le_rfl (by omega)
  have hone : (Machine.mergeLoop (n - 1) n b).pq.length = 1 := by have := hf.length; omega
  obtain ⟨r, hr⟩ := List.length_eq_one_iff.mp hone
  rw [Machine.buildFrom, if_neg h1, pqExtractMin_of_cons hr]
  exact ⟨rfl, hr⟩

theorem code_pend_seedAll (freq : Vector Count 256) (node : Vector Node 511) :
    (seedAll freq node ErrReport.clear).pend.code = .none := by
  rw [pend_seedAll]
  rfl

/-- Seeding leaves a forest of one leaf for each present byte value. -/
theorem forest_seedAll (freq : Vector Count 256) (node : Vector Node 511) (pend : ErrReport) :
    Forest (seedAll freq node pend).node (nDistinct freq) (nDistinct freq) (seedAll freq node pend).pq := by
  have hseed := seeded_seedAll freq node pend
  have hleaves : (seedAll freq node pend).leaves = nDistinct freq := by rw [hseed.leaves, nDistinct_eq_present]
  have hf := hseed.forest
  rwa [hleaves] at hf

/-- What seeding establishes and every merge keeps holds of the tree of two or more symbols. -/
theorem builtTree_induction {s : State} (hn : 2 ≤ nDistinct s.freq)
    {P : Nat → Vector Node 511 → List NodeIdx → Prop}
    (step : ∀ {t t' : Vector Node 511} {x y z : NodeIdx} {qs : List NodeIdx}, nDistinct s.freq ≤ z.toNat →
      Forest t (nDistinct s.freq) z.toNat (x :: y :: qs) → Merged t t' x y z → P z.toNat t (x :: y :: qs) →
      P (z.toNat + 1) t' (pqInsert t' z qs))
    (seed : P (nDistinct s.freq) (seedAll s.freq s.node ErrReport.clear).node
      (seedAll s.freq s.node ErrReport.clear).pq) :
    P (2 * nDistinct s.freq - 1) (builtTree s).2.node [(builtTree s).1] := by
  have hp := code_pend_seedAll s.freq s.node
  have hf := forest_seedAll s.freq s.node ErrReport.clear
  obtain ⟨hnode, hpq⟩ := hf.buildFrom (by omega) (nDistinct_le s.freq) hp (by omega)
  rw [builtTree, hnode, ← hpq]
  exact hf.mergeLoop_induction (nDistinct_le s.freq) step _ hp le_rfl (by omega) seed

/-! #### The leaves -/

/-- Leaf `k` is the `k`-th present byte value with its counter (R195). -/
theorem leaf_builtTree {s : State} {k : Nat} {v : Byte} (hk : (presentIn s.freq allBytes)[k]? = some v) :
    NodeIs (builtTree s).2.node k (fun a => a.kind = .leaf ∧ a.value = v ∧
      a.weight = (tableGet s.freq v).setWidth 72) := by
  have hlt : k < nDistinct s.freq := by
    rw [nDistinct_eq_present]
    exact (List.getElem?_eq_some_iff.mp hk).1
  by_cases hone : nDistinct s.freq = 1
  · obtain ⟨u, hu⟩ := List.length_eq_one_iff.mp ((nDistinct_eq_present s.freq).symm.trans hone)
    obtain rfl : k = 0 := by omega
    obtain rfl : u = v := by simpa [hu] using hk
    exact ⟨_, (nodes_builtTree_of_one hu).1, rfl, rfl, rfl⟩
  · exact builtTree_induction (s := s) (by omega)
      (P := fun _ t _ => NodeIs t k _)
      (fun hnz _ hm => hm.nodeIs (by omega) (fun _ _ h => h))
      ⟨_, (seeded_seedAll ..).nodes k v hk, rfl, rfl, rfl⟩

/-- Settles O33: seeding makes the leaves, and a merge changes no more of a leaf than its parent. -/
theorem buildTreeLeaves : Obligations.BuildTreeLeaves := by
  unfold Obligations.BuildTreeLeaves
  intro s t hrun hpend hn h k b hk
  rw [exec_buildTree_of_present hrun hpend hn] at h
  cases h
  refine (leaf_builtTree hk).imp fun a ⟨hkind, hvalue, hweight⟩ => ⟨hkind, hvalue, ?_⟩
  rw [hweight, BitVec.toNat_setWidth_of_le (by decide)]

end Sys2Proof.Machine

namespace Sys2Proof.Machine

open Sys2Proof

/-! #### Weights and the order of the merges -/

/-- Node `x` comes before node `y` in the queue's order: by weight, then by node index (R190). -/
def Precedes (t : Vector Node 511) (x y : NodeIdx) : Prop :=
  (weightOf t x).toNat < (weightOf t y).toNat ∨
  ((weightOf t x).toNat = (weightOf t y).toNat ∧ x.toNat < y.toNat)

theorem Precedes.congr {t t' : Vector Node 511} {x y : NodeIdx} (hx : weightOf t' x = weightOf t x)
    (hy : weightOf t' y = weightOf t y) (h : Precedes t x y) : Precedes t' x y := by
  rwa [Precedes, hx, hy]

theorem Precedes.le {t : Vector Node 511} {x y : NodeIdx} (h : Precedes t x y) :
    (weightOf t x).toNat ≤ (weightOf t y).toNat :=
  h.elim Nat.le_of_lt fun ⟨e, _⟩ => e.le

theorem precedes_of_le {t : Vector Node 511} {x y : NodeIdx} (hw : (weightOf t x).toNat ≤ (weightOf t y).toNat)
    (hi : x.toNat < y.toNat) : Precedes t x y :=
  (Nat.lt_or_eq_of_le hw).imp_right fun e => ⟨e, hi⟩

/-- What the nodes of a queue weigh together. -/
def queueWeight (t : Vector Node 511) (q : List NodeIdx) : Nat := (q.map (fun j => (weightOf t j).toNat)).sum

theorem queueWeight_cons (t : Vector Node 511) (j : NodeIdx) (q : List NodeIdx) :
    queueWeight t (j :: q) = (weightOf t j).toNat + queueWeight t q := rfl

/-- The queue is in its order, and its nodes weigh `total` together. -/
structure Ranked (t : Vector Node 511) (q : List NodeIdx) (total : Nat) : Prop where
  sorted : q.Pairwise (Precedes t)
  total : queueWeight t q = total

/-- A node with a higher index than all that is queued takes its place in the queue's order (R191). -/
theorem Ranked.insert {t t' : Vector Node 511} {q : List NodeIdx} {total : Nat} {i : NodeIdx} (h : Ranked t q total)
    (hw : ∀ j ∈ q, weightOf t' j = weightOf t j) (hi : ∀ j ∈ q, j.toNat < i.toNat) :
    Ranked t' (pqInsert t' i q) ((weightOf t' i).toNat + total) where
  sorted := by
    refine pairwise_pqInsert (fun _ _ hab => hab.le) ?_ (fun j hj hle => precedes_of_le hle (hi j hj))
      (fun j _ hlt => .inl hlt)
    exact h.sorted.imp_of_mem fun ha hb hab => hab.congr (hw _ ha) (hw _ hb)
  total := by
    have hsame : queueWeight t' q = queueWeight t q :=
      congrArg List.sum (List.map_congr_left fun j hj => congrArg BitVec.toNat (hw j hj))
    rw [← h.total, ← hsame, ← queueWeight_cons]
    exact ((pqInsert_perm t' i q).map _).sum_eq

theorem Ranked.tail {t : Vector Node 511} {x : NodeIdx} {q : List NodeIdx} {total : Nat} (h : Ranked t (x :: q) total) :
    Ranked t q (queueWeight t q) :=
  ⟨h.sorted.of_cons, rfl⟩

/-- What the counters of some byte values are together. -/
def countSum (freq : Vector Count 256) (l : List Byte) : Nat := (l.map (fun b => (tableGet freq b).toNat)).sum

theorem countSum_concat (freq : Vector Count 256) (l : List Byte) (v : Byte) :
    countSum freq (l ++ [v]) = (tableGet freq v).toNat + countSum freq l := by
  simp [countSum, Nat.add_comm]

/-- Weights hold every sum of counters (R201). -/
theorem countSum_allBytes_lt (freq : Vector Count 256) : countSum freq allBytes < 2 ^ 72 := by
  have h : countSum freq allBytes ≤ (allBytes.map (fun b => (tableGet freq b).toNat)).length • (2 ^ 64 - 1) := by
    refine List.sum_le_card_nsmul _ _ fun c hc => ?_
    obtain ⟨b, -, rfl⟩ := List.mem_map.mp hc
    exact Nat.le_pred_of_lt (tableGet freq b).isLt
  rw [List.length_map, length_allBytes, smul_eq_mul] at h
  omega

theorem weightOf_leafNode {t : Vector Node 511} {i : NodeIdx} {v : Byte} {c : Count}
    (h : t[i.toNat]? = some (leafNode v c)) : (weightOf t i).toNat = c.toNat := by
  rw [weightOf_of_getElem? h]
  exact BitVec.toNat_setWidth_of_le (by decide)

theorem ranked_seedByte {freq : Vector Count 256} {l : List Byte} {b : Builder} (hs : Seeded freq l b) (v : Byte)
    (hl : (presentIn freq l).length < 511) (h : Ranked b.node b.pq (countSum freq l)) :
    Ranked (seedByte freq b v).node (seedByte freq b v).pq (countSum freq (l ++ [v])) := by
  rw [countSum_concat]
  unfold seedByte
  by_cases hv : tableGet freq v = 0#64
  · rw [if_pos hv, hv]
    simpa using h
  · rw [if_neg hv]
    have hi : (BitVec.ofNat 9 b.leaves : NodeIdx).toNat = b.leaves := nodeIdx_toNat (by have := hs.leaves; omega)
    have hlt : (BitVec.ofNat 9 b.leaves : NodeIdx).toNat < 511 := by have := hs.leaves; omega
    have hnew := weightOf_leafNode (i := BitVec.ofNat 9 b.leaves)
      ((getElem?_nodeSet b.node (leafNode v (tableGet freq v)) _ hlt).trans (if_pos rfl))
    have below : ∀ j ∈ b.pq, j.toNat < (BitVec.ofNat 9 b.leaves : NodeIdx).toNat := fun j hj =>
      hi.symm ▸ (hs.queued j).mp hj
    have hinsert := h.insert (i := BitVec.ofNat 9 b.leaves)
      (t' := nodeSet b.node (BitVec.ofNat 9 b.leaves) (leafNode v (tableGet freq v)))
      (fun j hj => weightOf_congr ((getElem?_nodeSet _ _ _ hlt).trans (if_neg (below j hj).ne))) below
    rwa [hnew] at hinsert

theorem ranked_foldl (freq : Vector Count 256) (node : Vector Node 511) (pend : ErrReport) (l : List Byte)
    (hl : l.length < 512) :
    Ranked (l.foldl (seedByte freq) { node := node, pq := [], pend := pend, leaves := 0 }).node
      (l.foldl (seedByte freq) { node := node, pq := [], pend := pend, leaves := 0 }).pq (countSum freq l) := by
  induction l using List.reverseRecOn with
  | nil => exact ⟨.nil, rfl⟩
  | append_singleton l v ih =>
    rw [List.length_append, List.length_singleton] at hl
    have := length_presentIn_le freq l
    rw [List.foldl_concat]
    exact ranked_seedByte (seeded_foldl freq node pend l (by omega)) v (by omega) (ih (by omega))

/-- Seeding leaves the leaves in the queue's order, with the weight of all counters (R195). -/
theorem ranked_seedAll (freq : Vector Count 256) (node : Vector Node 511) (pend : ErrReport) :
    Ranked (seedAll freq node pend).node (seedAll freq node pend).pq (countSum freq allBytes) :=
  ranked_foldl freq node pend allBytes (by simp [length_allBytes])

/-- The internal nodes made so far, `n … z − 1`: each weighs its two children together, they were taken in the
queue's order, and before all that was left. -/
structure Weighed (n total z : Nat) (t : Vector Node 511) (q : List NodeIdx) : Prop where
  ranked : Ranked t q total
  sums : ∀ i, n ≤ i → i < z → NodeIs t i (fun a =>
    a.weight.toNat = (weightOf t a.left).toNat + (weightOf t a.right).toNat)
  siblings : ∀ i, n ≤ i → i < z → NodeIs t i (fun a => Precedes t a.left a.right)
  next : ∀ i, n ≤ i → i + 1 < z → NodeIs t i (fun a => NodeIs t (i + 1) (fun c => Precedes t a.right c.left))
  queued : ∀ i, n ≤ i → i + 1 = z → NodeIs t i (fun a => ∀ j ∈ q, Precedes t a.right j)

section Merge

variable {t t' : Vector Node 511} {n total : Nat} {x y z : NodeIdx} {qs : List NodeIdx}

theorem Merged.weightOf_old (h : Merged t t' x y z) {q : List NodeIdx} (hf : Forest t n z.toNat q) {i : NodeIdx}
    (hi : i.toNat < z.toNat) : weightOf t' i = weightOf t i := by
  obtain ⟨a, ha⟩ := hf.exists_node hi
  rw [weightOf_of_getElem? ha, weightOf_of_getElem? (h.kept _ a hi.ne ha)]
  split <;> rfl

theorem Merged.weightOf_made (h : Merged t t' x y z) : weightOf t' z = weightOf t x + weightOf t y :=
  weightOf_of_getElem? h.made

theorem Weighed.total_eq (h : Weighed n total z.toNat t (x :: y :: qs)) :
    (weightOf t x).toNat + (weightOf t y).toNat + queueWeight t qs = total := by
  rw [← h.ranked.total, queueWeight_cons, queueWeight_cons, Nat.add_assoc]

/-- No weight overflows (R201). -/
theorem Weighed.toNat_made (h : Weighed n total z.toNat t (x :: y :: qs)) (ht : total < 2 ^ 72)
    (hm : Merged t t' x y z) : (weightOf t' z).toNat = (weightOf t x).toNat + (weightOf t y).toNat := by
  have := h.total_eq
  rw [hm.weightOf_made, BitVec.toNat_add_of_lt (by omega)]

/-- What is said of an old internal node and the weights of its children stays true. -/
theorem Merged.internal_keeps (hm : Merged t t' x y z) {q : List NodeIdx} (hf : Forest t n z.toNat q) {i : Nat}
    (hn : n ≤ i) (hi : i < z.toNat) {P P' : Node → Prop} (hP : NodeIs t i P)
    (hPP : ∀ a p, a.left.toNat < i → a.right.toNat < i → P a → P' { a with parent := p }) : NodeIs t' i P' := by
  obtain ⟨a, ha, hp⟩ := hP
  obtain ⟨a', ha', -, hl, hr, -⟩ := hf.internals i hn hi
  cases ha.symm.trans ha'
  refine ⟨_, hm.kept i a hi.ne ha, ?_⟩
  split
  · exact hPP a z hl hr hp
  · exact hPP a a.parent hl hr hp

variable (hf : Forest t n z.toNat (x :: y :: qs)) (hm : Merged t t' x y z)
  (h : Weighed n total z.toNat t (x :: y :: qs))

include hf hm h

theorem Weighed.merge_ranked (ht : total < 2 ^ 72) : Ranked t' (pqInsert t' z qs) total := by
  have hqs : ∀ j ∈ qs, j.toNat < z.toNat := fun j hj => hf.queued j (by simp [hj])
  have hinsert := h.ranked.tail.tail.insert (fun j hj => hm.weightOf_old hf (hqs j hj)) hqs
  rwa [h.toNat_made ht hm, h.total_eq] at hinsert

/-- The second node taken comes before all that is queued after the merge. -/
theorem Weighed.merge_queued (ht : total < 2 ^ 72) : ∀ j ∈ pqInsert t' z qs, Precedes t' y j := by
  have hy : y.toNat < z.toNat := hf.queued y (by simp)
  have hwy := hm.weightOf_old hf hy
  intro j hj
  rw [(pqInsert_perm t' z qs).mem_iff, List.mem_cons] at hj
  obtain rfl | hj := hj
  · refine precedes_of_le ?_ hy
    rw [hwy, h.toNat_made ht hm]
    exact Nat.le_add_left _ _
  · exact (List.rel_of_pairwise_cons h.ranked.sorted.of_cons hj).congr hwy
      (hm.weightOf_old hf (hf.queued j (by simp [hj])))

theorem Weighed.merge_sums (ht : total < 2 ^ 72) (i : Nat) (hn : n ≤ i) (hi : i < z.toNat + 1) :
    NodeIs t' i (fun a => a.weight.toNat = (weightOf t' a.left).toNat + (weightOf t' a.right).toNat) := by
  rcases Nat.lt_succ_iff_lt_or_eq.mp hi with hi | rfl
  · refine hm.internal_keeps hf hn hi (h.sums i hn hi) fun a p hl hr hs => ?_
    rw [hm.weightOf_old hf (hl.trans hi), hm.weightOf_old hf (hr.trans hi)]
    exact hs
  · refine ⟨_, hm.made, ?_⟩
    show (weightOf t x + weightOf t y).toNat = (weightOf t' x).toNat + (weightOf t' y).toNat
    rw [← hm.weightOf_made, h.toNat_made ht hm, hm.weightOf_old hf (hf.queued x (by simp)),
      hm.weightOf_old hf (hf.queued y (by simp))]

theorem Weighed.merge_siblings (i : Nat) (hn : n ≤ i) (hi : i < z.toNat + 1) :
    NodeIs t' i (fun a => Precedes t' a.left a.right) := by
  rcases Nat.lt_succ_iff_lt_or_eq.mp hi with hi | rfl
  · exact hm.internal_keeps hf hn hi (h.siblings i hn hi) fun a p hl hr hs =>
      hs.congr (hm.weightOf_old hf (hl.trans hi)) (hm.weightOf_old hf (hr.trans hi))
  · have hxy : Precedes t x y := List.rel_of_pairwise_cons h.ranked.sorted (by simp)
    exact ⟨_, hm.made, hxy.congr (hm.weightOf_old hf (hf.queued x (by simp)))
      (hm.weightOf_old hf (hf.queued y (by simp)))⟩

theorem Weighed.merge_next (i : Nat) (hn : n ≤ i) (hi : i + 1 < z.toNat + 1) :
    NodeIs t' i (fun a => NodeIs t' (i + 1) (fun c => Precedes t' a.right c.left)) := by
  rcases Nat.lt_succ_iff_lt_or_eq.mp hi with hi | hi
  · refine hm.internal_keeps hf hn (by omega) (h.next i hn hi) fun a p _ hr hs => ?_
    refine hm.internal_keeps hf (by omega) hi hs fun c p hl _ hc => ?_
    exact hc.congr (hm.weightOf_old hf (hr.trans (by omega))) (hm.weightOf_old hf (hl.trans hi))
  · refine hm.internal_keeps hf hn (by omega) (h.queued i hn hi) fun a p _ hr hs => ?_
    rw [hi]
    exact ⟨_, hm.made, (hs x (by simp)).congr (hm.weightOf_old hf (hr.trans (by omega)))
      (hm.weightOf_old hf (hf.queued x (by simp)))⟩

/-- One merge takes the two nodes that come first. -/
theorem Weighed.merge (ht : total < 2 ^ 72) : Weighed n total (z.toNat + 1) t' (pqInsert t' z qs) where
  ranked := h.merge_ranked hf hm ht
  sums := h.merge_sums hf hm ht
  siblings := h.merge_siblings hf hm
  next := h.merge_next hf hm
  queued i _ hi := by
    obtain rfl : i = z.toNat := Nat.succ_injective hi
    exact ⟨_, hm.made, h.merge_queued hf hm ht⟩

end Merge

/-- The tree of two or more symbols has exact weights, and its merges took the queue in its order. -/
theorem weighed_builtTree {s : State} (hn : 2 ≤ nDistinct s.freq) :
    Weighed (nDistinct s.freq) (countSum s.freq allBytes) (2 * nDistinct s.freq - 1) (builtTree s).2.node
      [(builtTree s).1] := by
  refine builtTree_induction (P := Weighed (nDistinct s.freq) (countSum s.freq allBytes)) hn
    (fun _ hf hm h => h.merge hf hm (countSum_allBytes_lt s.freq)) ?_
  exact ⟨ranked_seedAll .., fun i hi hi' => by omega, fun i hi hi' => by omega, fun i hi hi' => by omega,
    fun i hi hi' => by omega⟩

theorem countSum_presentIn (freq : Vector Count 256) (l : List Byte) :
    countSum freq (presentIn freq l) = countSum freq l := by
  induction l with
  | nil => rfl
  | cons v l ih =>
    by_cases hv : tableGet freq v = 0#64
    · simpa [countSum, presentIn, hv] using ih
    · simpa [countSum, presentIn, hv] using ih

/-- The root weighs the sum of all counters (R201). -/
theorem weightOf_root_builtTree {s : State} (hn : 1 ≤ nDistinct s.freq) :
    (weightOf (builtTree s).2.node (builtTree s).1).toNat = countSum s.freq allBytes := by
  by_cases hone : nDistinct s.freq = 1
  · obtain ⟨v, hv⟩ := List.length_eq_one_iff.mp ((nDistinct_eq_present s.freq).symm.trans hone)
    have hroot : (builtTree s).1 = 1#9 := by rw [root_builtTree hn, hone]; rfl
    rw [hroot, weightOf_of_getElem? (i := 1#9) (nodes_builtTree_of_one hv).2, ← countSum_presentIn, hv]
    exact BitVec.toNat_setWidth_of_le (by decide)
  · exact (weighed_builtTree (by omega)).ranked.total

/-- Settles O35: seeding leaves the queue in its order with the weight of all counters, and every merge keeps
both. -/
theorem buildTreeWeights : Obligations.BuildTreeWeights := by
  unfold Obligations.BuildTreeWeights
  intro s t hrun hpend hn h
  rw [exec_buildTree_of_present hrun hpend hn] at h
  cases h
  have below : 2 ≤ nDistinct s.freq → ∀ {i}, i ≤ (builtTree s).1.toNat → i < 2 * nDistinct s.freq - 1 :=
    fun h2 i hi => by
      rw [(treeOk_builtTree hn).rootIs, if_neg (by omega)] at hi
      omega
  refine ⟨weightOf_root_builtTree hn, fun h2 i hi hi' => (weighed_builtTree h2).sums i hi (below h2 hi'), ?_⟩
  intro h2 before i hi hi'
  have hw := weighed_builtTree h2
  by_cases hlt : i < (builtTree s).1.toNat
  · exact ((hw.siblings i hi (below h2 hi')).and (hw.next i hi (below h2 hlt))).imp fun a ⟨hsib, hnext⟩ =>
      ⟨hsib, fun _ => hnext⟩
  · exact (hw.siblings i hi (below h2 hi')).imp fun a hsib => ⟨hsib, fun hc => absurd hc hlt⟩

end Sys2Proof.Machine

namespace Sys2Proof.Machine

open Sys2Proof

/-! #### The tree is a function of FREQ -/

/-- PQInsert looks at the weights of the new entry and of those that are queued. -/
theorem pqInsert_congr {t t' : Vector Node 511} {z : Nat} {i : NodeIdx} {q : List NodeIdx}
    (h : ∀ k, k < z → t'[k]? = t[k]?) (hi : i.toNat < z) (hq : ∀ j ∈ q, j.toNat < z) :
    pqInsert t' i q = pqInsert t i q := by
  induction q with
  | nil => rfl
  | cons j q ih =>
    rw [pqInsert, pqInsert, weightOf_congr (h _ hi), weightOf_congr (h _ (hq j (by simp))),
      ih fun k hk => hq k (by simp [hk])]

/-- Two builders with the same queue and the same nodes `0 … z − 1`. -/
structure AgreeBelow (z : Nat) (b b' : Builder) : Prop where
  pq : b'.pq = b.pq
  node : ∀ i, i < z → b'.node[i]? = b.node[i]?

/-- Seeding makes the same leaves, whatever the arena held. -/
theorem Seeded.node_eq {freq : Vector Count 256} {l : List Byte} {b b' : Builder} (hs : Seeded freq l b)
    (hs' : Seeded freq l b') (i : Nat) (hi : i < b.leaves) : b'.node[i]? = b.node[i]? := by
  have hk := List.getElem?_eq_getElem (hs.leaves ▸ hi : i < (presentIn freq l).length)
  rw [hs.nodes i _ hk, hs'.nodes i _ hk]

theorem pq_seedByte_eq {freq : Vector Count 256} {l : List Byte} {b b' : Builder} (hs : Seeded freq l b)
    (hs' : Seeded freq l b') (v : Byte) (hl : (presentIn freq l).length < 511) (h : b'.pq = b.pq) :
    (seedByte freq b' v).pq = (seedByte freq b v).pq := by
  have hleaves : b'.leaves = b.leaves := hs'.leaves.trans hs.leaves.symm
  have hnode := (seeded_seedByte hs v hl).node_eq (seeded_seedByte hs' v hl)
  unfold seedByte at hnode ⊢
  by_cases hv : tableGet freq v = 0#64
  · rw [if_pos hv, if_pos hv, h]
  · rw [if_neg hv, if_neg hv] at hnode ⊢
    have hlt : b.leaves < 511 := hs.leaves ▸ hl
    rw [hleaves] at hnode ⊢
    rw [h]
    refine pqInsert_congr hnode ?_ fun j hj => Nat.lt_succ_of_lt ((hs.queued j).mp hj)
    rw [nodeIdx_toNat (by omega)]
    exact Nat.lt_succ_self _

theorem pq_foldl_seedByte_eq (freq : Vector Count 256) (node node' : Vector Node 511) (pend : ErrReport)
    (l : List Byte) (hl : l.length < 512) :
    (l.foldl (seedByte freq) { node := node', pq := [], pend := pend, leaves := 0 }).pq =
    (l.foldl (seedByte freq) { node := node, pq := [], pend := pend, leaves := 0 }).pq := by
  induction l using List.reverseRecOn with
  | nil => rfl
  | append_singleton l v ih =>
    rw [List.length_append, List.length_singleton] at hl
    have := length_presentIn_le freq l
    rw [List.foldl_concat, List.foldl_concat]
    exact pq_seedByte_eq (seeded_foldl freq node pend l (by omega)) (seeded_foldl freq node' pend l (by omega)) v
      (by omega) (ih (by omega))

theorem agreeBelow_seedAll (freq : Vector Count 256) (node node' : Vector Node 511) (pend : ErrReport) :
    AgreeBelow (nDistinct freq) (seedAll freq node pend) (seedAll freq node' pend) where
  pq := pq_foldl_seedByte_eq freq node node' pend allBytes (by simp [length_allBytes])
  node := by
    have hs := seeded_seedAll freq node pend
    rw [nDistinct_eq_present, ← hs.leaves]
    exact hs.node_eq (seeded_seedAll freq node' pend)

/-- A merge makes the same node in two arenas that agree below it. -/
theorem Merged.node_eq {t t' u u' : Vector Node 511} {n : Nat} {x y z : NodeIdx} {qs : List NodeIdx}
    (hf : Forest t n z.toNat (x :: y :: qs)) (hm : Merged t t' x y z) (hm' : Merged u u' x y z)
    (h : ∀ i, i < z.toNat → u[i]? = t[i]?) (i : Nat) (hi : i < z.toNat + 1) : u'[i]? = t'[i]? := by
  rcases Nat.lt_succ_iff_lt_or_eq.mp hi with hi | rfl
  · obtain ⟨a, ha⟩ := hf.exists_node hi
    rw [hm.kept i a hi.ne ha, hm'.kept i a hi.ne ((h i hi).trans ha)]
  · rw [hm.made, hm'.made, weightOf_congr (h _ (hf.queued x (by simp))), weightOf_congr (h _ (hf.queued y (by simp)))]

theorem agreeBelow_mergeLoop {n : Nat} (hn : n ≤ 256) (c : Nat) {z : Nat} {b b' : Builder}
    (hf : Forest b.node n z b.pq) (hf' : Forest b'.node n z b'.pq) (hp : b.pend.code = .none)
    (hp' : b'.pend.code = .none) (hnz : n ≤ z) (hz : z + c + 1 = 2 * n) (h : AgreeBelow z b b') :
    AgreeBelow (2 * n - 1) (mergeLoop c z b) (mergeLoop c z b') := by
  induction c generalizing z b b' with
  | zero => exact (by omega : z = 2 * n - 1) ▸ h
  | succ c ih =>
    obtain ⟨x, y, qs, t, hq, hm, hloop⟩ := hf.mergeLoop_succ hn hp hnz (by omega) c
    obtain ⟨x', y', qs', t', hq', hm', hloop'⟩ := hf'.mergeLoop_succ hn hp' hnz (by omega) c
    obtain ⟨rfl, rfl, rfl⟩ : x' = x ∧ y' = y ∧ qs' = qs := by
      simpa [hq'] using h.pq.trans hq
    have hzi : (BitVec.ofNat 9 z : NodeIdx).toNat = z := nodeIdx_toNat (by omega)
    rw [hq, ← hzi] at hf
    rw [hq', ← hzi] at hf'
    have hnode := Merged.node_eq hf hm hm' (hzi.symm ▸ h.node)
    have hnext := hf.merge hm (pqInsert_perm t _ qs') (by omega) (by omega)
    have hnext' := hf'.merge hm' (pqInsert_perm t' _ qs') (by omega) (by omega)
    have hinsert : pqInsert t' (BitVec.ofNat 9 z) qs' = pqInsert t (BitVec.ofNat 9 z) qs' :=
      pqInsert_congr hnode (Nat.lt_succ_self _) fun j hj => Nat.lt_succ_of_lt (hf.queued j (by simp [hj]))
    rw [hzi] at hnode hnext hnext'
    rw [hloop, hloop']
    exact ih hnext hnext' hp hp' (by omega) (by omega) ⟨hinsert, hnode⟩

/-- The nodes `0 … ROOT` of the tree are those of any other state with the same FREQ. -/
theorem node_builtTree_eq {s s' : State} (hfreq : s'.freq = s.freq) (hn : 1 ≤ nDistinct s.freq) (i : Nat)
    (hi : i ≤ (builtTree s).1.toNat) : (builtTree s').2.node[i]? = (builtTree s).2.node[i]? := by
  rw [(treeOk_builtTree hn).rootIs] at hi
  by_cases hone : nDistinct s.freq = 1
  · obtain ⟨v, hv⟩ := List.length_eq_one_iff.mp ((nDistinct_eq_present s.freq).symm.trans hone)
    obtain ⟨h0, h1⟩ := nodes_builtTree_of_one hv
    obtain ⟨h0', h1'⟩ := nodes_builtTree_of_one (s := s') (hfreq ▸ hv)
    rw [if_pos hone] at hi
    obtain rfl | rfl : i = 0 ∨ i = 1 := by omega
    · rw [h0, h0', hfreq]
    · rw [h1, h1', hfreq]
  · rw [if_neg hone] at hi
    have hle := nDistinct_le s.freq
    have hp := code_pend_seedAll s.freq
    have hf (node : Vector Node 511) := forest_seedAll s.freq node ErrReport.clear
    have h := agreeBelow_mergeLoop hle (nDistinct s.freq - 1) (hf s.node) (hf s'.node) (hp _) (hp _) le_rfl (by omega)
      (agreeBelow_seedAll ..)
    rw [builtTree, builtTree, hfreq, ((hf s.node).buildFrom hone hle (hp _) hn).1,
      ((hf s'.node).buildFrom hone hle (hp _) hn).1]
    exact h.node i (by omega)

/-- Settles O36: seeding and each merge look at FREQ, at the queue they made and at the nodes they made. -/
theorem buildTreeDependsOnFreqOnly : Obligations.BuildTreeDependsOnFreqOnly := by
  unfold Obligations.BuildTreeDependsOnFreqOnly
  intro s1 s2 t1 t2 hrun1 hrun2 hpend1 hpend2 hfreq hn h1 h2
  rw [exec_buildTree_of_present hrun1 hpend1 hn] at h1
  rw [exec_buildTree_of_present hrun2 hpend2 (hfreq ▸ hn)] at h2
  cases h1
  cases h2
  refine ⟨?_, ?_, fun i hi => (node_builtTree_eq hfreq.symm hn i hi).symm⟩
  · show (builtTree s1).1 = (builtTree s2).1
    rw [root_builtTree hn, root_builtTree (hfreq ▸ hn), hfreq]
  · show BitVec.ofNat 9 (nDistinct s1.freq) = BitVec.ofNat 9 (nDistinct s2.freq)
    rw [hfreq]

end Sys2Proof.Machine

/-! ### The code table of a tree

A walk from a leaf to ROOT gives the branches from ROOT down to the leaf (`TreeOk.descend_of_walkToRoot`), so each entry
of the table that is not absent is a path to a leaf (`LeafEntry`), and no path goes on below a leaf (R222 to R225). -/

namespace Sys2Proof.Machine

open Sys2Proof

/-! #### A code as a table entry -/

/-- Bit `j` of the code vector is character `j`, and the bits beyond the code are 0 (R118). -/
theorem codeVector_getLsbD (bs : List Bool) (hbs : bs.length ≤ 256) (j : Nat) :
    (codeVector bs).getLsbD j = bs.getD j false := by
  induction bs generalizing j with
  | nil => simp [codeVector]
  | cons b bs ih =>
    rw [List.length_cons] at hbs
    rw [codeVector, BitVec.getLsbD_or, BitVec.getLsbD_shiftLeft]
    cases j with
    | zero => cases b <;> rfl
    | succ j =>
      rw [Nat.add_sub_cancel, ih (by omega), List.getD_cons_succ]
      by_cases hj : j < bs.length
      · simp [show j + 1 < 256 by omega]
      · simp [Nat.not_lt.mp hj]

/-- The length of a code that fits a table entry is stored whole (R56). -/
theorem len_codeEntry {bs : List Bool} (h : bs.length ≤ 255) :
    (codeEntry bs).len.toNat = bs.length := by
  rw [codeEntry, BitVec.toNat_ofNat, Nat.mod_eq_of_lt (by omega)]

theorem codeString_codeEntry {bs : List Bool} (h : bs.length ≤ 255) : codeString (codeEntry bs) = bs := by
  refine List.ext_getElem (by rw [length_codeString, len_codeEntry h]) fun j _ hj => ?_
  simp only [codeString, List.getElem_map, List.getElem_range]
  rw [codeEntry, codeVector_getLsbD bs (by omega), List.getD_eq_getElem _ _ hj]

theorem codeEntry_bits_beyond {bs : List Bool} (h : bs.length ≤ 255) {j : Nat}
    (hj : (codeEntry bs).len.toNat ≤ j) : (codeEntry bs).bits.getLsbD j = false := by
  rw [len_codeEntry h] at hj
  rw [codeEntry, codeVector_getLsbD bs (by omega), List.getD_eq_default _ _ hj]

/-! #### The way down -/

theorem descend_of_node {t : Vector Node 511} {c : NodeIdx} {a : Node} (h : nodeGet t c = some a) (b : Bool)
    (bs : List Bool) : descend t c (b :: bs) = descend t (childOf a b) bs := by
  rw [descend, h]

theorem descend_append (t : Vector Node 511) (c : NodeIdx) (p q : List Bool) :
    descend t c (p ++ q) = (descend t c p).bind (fun d => descend t d q) := by
  induction p generalizing c with
  | nil => rfl
  | cons b p ih =>
    rw [List.cons_append]
    cases h : nodeGet t c with
    | none => simp only [descend, h, Option.bind_none]
    | some a => rw [descend_of_node h, descend_of_node h, ih]

theorem descend_null (t : Vector Node 511) {bs : List Bool} {c : NodeIdx} (h : descend t Config.null bs = some c) :
    c = Config.null := by
  cases bs with
  | nil => cases h; rfl
  | cons b bs => simp only [descend, nodeGet_null] at h; cases h

/-- The branch that the walk up records at a node leads from the parent back to the node (R220). -/
theorem TreeOk.childOf_parent {t : Vector Node 511} {root : NodeIdx} {n : Nat} (h : TreeOk t root n) {c : NodeIdx}
    {a p : Node} (hc : c.toNat < root.toNat) (ha : nodeGet t c = some a) (hp : nodeGet t a.parent = some p) :
    childOf p (decide (p.left ≠ c)) = c := by
  obtain ⟨a', ha', -, -, p', hp', hchild⟩ := h.parents _ hc
  cases ha.symm.trans ha'
  cases hp.symm.trans hp'
  by_cases hleft : p.left = c
  · simp [childOf, hleft]
  · have hne : p.left.toNat ≠ c.toNat := fun e => hleft (BitVec.eq_of_toNat_eq e)
    have hright : p.right = c := BitVec.eq_of_toNat_eq (hchild.resolve_left hne)
    simp [childOf, hleft, hright]

/-- A walk up from `c` puts in front of what it was given the branches from ROOT down to `c` (R224). The index grows
with each branch, and the first one leaves the leaves, so there are at most ROOT − max(c, n − 1) of them (R223). -/
theorem TreeOk.descend_of_walkToRoot {t : Vector Node 511} {root : NodeIdx} {n : Nat} (h : TreeOk t root n)
    {fuel : Nat} {c : NodeIdx} {code bs : List Bool} (hc : c.toNat ≤ root.toNat)
    (hw : walkToRoot t root fuel c code = .ok bs) :
    ∃ path, bs = path ++ code ∧ descend t root path = some c ∧
      path.length + max c.toNat (n - 1) ≤ root.toNat := by
  have hroot := h.count_le_root
  induction fuel generalizing c code with
  | zero =>
    rw [walkToRoot] at hw
    split at hw
    · next hend => cases hw; exact ⟨[], rfl, by rw [hend]; rfl, by simp; omega⟩
    · cases hw
  | succ fuel ih =>
    by_cases hend : c = root
    · rw [walkToRoot, if_pos hend] at hw
      cases hw
      exact ⟨[], rfl, by rw [hend]; rfl, by simp; omega⟩
    · have hlt : c.toNat < root.toNat := by
        have hne : c.toNat ≠ root.toNat := fun e => hend (BitVec.eq_of_toNat_eq e)
        omega
      obtain ⟨a, ha, hup, hinternal, hle, p, hp⟩ := h.parent_internal hlt
      have hget : nodeGet t c = some a := ha
      simp only [walkToRoot, if_neg hend, hget, hp] at hw
      obtain ⟨path, rfl, hpath, hlen⟩ := ih hle hw
      refine ⟨path ++ [decide (p.left ≠ c)], by simp, ?_, by simp; omega⟩
      rw [descend_append, hpath, Option.bind_some, descend_of_node hp, h.childOf_parent hlt hget hp]
      rfl

/-- From a leaf no string but the empty one leads to a leaf: both children of a leaf are NULL (R53). -/
theorem TreeOk.eq_nil_of_descend_leaf {t : Vector Node 511} {root : NodeIdx} {n k : Nat} (h : TreeOk t root n)
    (hk : k < n) {bs : List Bool} {c : NodeIdx} (hc : c.toNat < n)
    (hd : descend t (BitVec.ofNat 9 k) bs = some c) : bs = [] := by
  have hcount := h.count
  cases bs with
  | nil => rfl
  | cons b bs =>
    obtain ⟨a, ha, -, hleft, hright⟩ := h.leaves k hk
    have hget : nodeGet t (BitVec.ofNat 9 k) = some a := by rw [nodeGet, nodeIdx_toNat (by omega), ha]
    have hchild : childOf a b = Config.null := by cases b <;> assumption
    rw [descend_of_node hget, hchild] at hd
    have : c.toNat = 511 := congrArg BitVec.toNat (descend_null t hd)
    omega

end Sys2Proof.Machine

namespace Sys2Proof.Machine

open Sys2Proof

/-! #### The entries of the table -/

/-- What a table entry holds that is the code of leaf `k` in a tree of `n` leaves. -/
structure LeafEntry (t : Vector Node 511) (root : NodeIdx) (n k : Nat) (e : CodeEntry) : Prop where
  /-- the node is a leaf -/
  leaf : k < n
  present : e.present = true
  /-- the code is the path from ROOT to the leaf (R224) -/
  path : descend t root (codeString e) = some (BitVec.ofNat 9 k)
  /-- no code is longer than there are internal nodes (R223) -/
  len_le : e.len.toNat + (n - 1) ≤ root.toNat
  /-- the bits from the length up are 0 (R118) -/
  beyond : ∀ j, e.len.toNat ≤ j → e.bits.getLsbD j = false

theorem TreeOk.root_le {t : Vector Node 511} {root : NodeIdx} {n : Nat} (h : TreeOk t root n) :
    root.toNat ≤ 255 + (n - 1) := by
  have hcount := h.count
  rw [h.rootIs]
  split <;> omega

/-- The code of a walk from a leaf. -/
theorem TreeOk.leafEntry_of_walkToRoot {t : Vector Node 511} {root : NodeIdx} {n k : Nat} (h : TreeOk t root n)
    (hk : k < n) {fuel : Nat} {bs : List Bool} (hw : walkToRoot t root fuel (BitVec.ofNat 9 k) [] = .ok bs) :
    LeafEntry t root n k (codeEntry bs) := by
  have hcount := h.count
  have hkn : (BitVec.ofNat 9 k : NodeIdx).toNat = k := nodeIdx_toNat (by omega)
  have hroot := h.count_le_root
  obtain ⟨path, rfl, hpath, hlen⟩ := h.descend_of_walkToRoot (by omega) hw
  rw [List.append_nil]
  have hle : path.length + (n - 1) ≤ root.toNat := by omega
  have hmax : path.length ≤ 255 := by have := h.root_le; omega
  exact {
    leaf := hk
    present := rfl
    path := by rw [codeString_codeEntry hmax, hpath]
    len_le := by rw [len_codeEntry hmax]; exact hle
    beyond := fun _ hj => codeEntry_bits_beyond hmax hj }

/-- Leaf `k` of BUILD_CODES writes its code into the entry of its value, and nothing else (R220). -/
theorem TreeOk.addLeafCode_eq {t : Vector Node 511} {root : NodeIdx} {n k : Nat} (h : TreeOk t root n) (hk : k < n)
    {code code' : Vector CodeEntry 256} (hc : addLeafCode t root code k = .ok code') :
    ∃ a e, t[k]? = some a ∧ LeafEntry t root n k e ∧ code' = tableSet code a.value e := by
  have hcount := h.count
  unfold addLeafCode at hc
  dsimp only at hc
  split at hc
  · cases hc
  · next bs hw =>
    split at hc
    · cases hc
    · next a ha =>
      cases hc
      rw [nodeGet, nodeIdx_toNat (by omega)] at ha
      exact ⟨a, _, ha, h.leafEntry_of_walkToRoot hk hw, rfl⟩

/-- After some leaves an entry holds the code of a leaf with its value, or it is as before and none of them has its
value. -/
theorem TreeOk.tableGet_addLeafCodes {t : Vector Node 511} {root : NodeIdx} {n : Nat} (h : TreeOk t root n)
    {l : List Nat} (hl : ∀ k ∈ l, k < n) {code code' : Vector CodeEntry 256}
    (hc : addLeafCodes t root l code = .ok code') (b : Byte) :
    (∃ k, NodeIs t k (fun a => a.value = b) ∧ LeafEntry t root n k (tableGet code' b)) ∨
    (tableGet code' b = tableGet code b ∧ ∀ k ∈ l, ¬ NodeIs t k (fun a => a.value = b)) := by
  induction l generalizing code with
  | nil => cases hc; exact .inr ⟨rfl, nofun⟩
  | cons k l ih =>
    obtain ⟨hk, hl⟩ := List.forall_mem_cons.mp hl
    rw [addLeafCodes] at hc
    split at hc
    · cases hc
    · next code₁ h₁ =>
      obtain ⟨a, e, ha, he, rfl⟩ := h.addLeafCode_eq hk h₁
      obtain hleaf | ⟨hsame, hnone⟩ := ih hl hc
      · exact .inl hleaf
      · by_cases hv : a.value = b
        · refine .inl ⟨k, ⟨a, ha, hv⟩, ?_⟩
          rwa [hsame, hv, tableGet_tableSet_same]
        · refine .inr ⟨by rw [hsame, tableGet_tableSet_ne _ _ hv], List.forall_mem_cons.mpr ⟨?_, hnone⟩⟩
          rintro ⟨a', ha', hv'⟩
          cases ha.symm.trans ha'
          exact hv hv'

/-- An entry of the table of a tree is the code of a leaf with its value, or it is absent and no leaf has its value
(R220). -/
theorem TreeOk.tableGet_codeTable {t : Vector Node 511} {root : NodeIdx} {n : Nat} (h : TreeOk t root n)
    {code : Vector CodeEntry 256} (hc : codeTable t root n = .ok code) (b : Byte) :
    (∃ k, NodeIs t k (fun a => a.value = b) ∧ LeafEntry t root n k (tableGet code b)) ∨
    (tableGet code b = CodeEntry.absent ∧ ∀ k, k < n → ¬ NodeIs t k (fun a => a.value = b)) := by
  have := h.tableGet_addLeafCodes (fun _ hk => List.mem_range.mp hk) hc b
  simpa only [tableGet_replicate, List.mem_range] using this

/-- A present entry is the code of a leaf. -/
theorem TreeOk.leafEntry_of_present {t : Vector Node 511} {root : NodeIdx} {n : Nat} (h : TreeOk t root n)
    {code : Vector CodeEntry 256} (hc : codeTable t root n = .ok code) {b : Byte}
    (hb : (tableGet code b).present = true) :
    ∃ k, NodeIs t k (fun a => a.value = b) ∧ LeafEntry t root n k (tableGet code b) := by
  refine (h.tableGet_codeTable hc b).resolve_right ?_
  rintro ⟨habsent, -⟩
  rw [habsent] at hb
  cases hb

/-- Leaves with the same value are the same (R195). -/
theorem TreeOk.leaf_unique {t : Vector Node 511} {root : NodeIdx} {n i j : Nat} (h : TreeOk t root n) (hi : i < n)
    (hj : j < n) {b : Byte} (hib : NodeIs t i (fun a => a.value = b)) (hjb : NodeIs t j (fun a => a.value = b)) :
    i = j := by
  obtain ⟨a, ha, rfl⟩ := hib
  obtain ⟨c, hc, hv⟩ := hjb
  rcases Nat.lt_trichotomy i j with hij | hij | hij
  · have := h.ascending i j hij hj a c ha hc
    rw [hv] at this
    omega
  · exact hij
  · have := h.ascending j i hij hi c a hc ha
    rw [hv] at this
    omega

/-- The code of a leaf has a character: ROOT is no leaf. -/
theorem LeafEntry.codeString_ne_nil {t : Vector Node 511} {root : NodeIdx} {n k : Nat} {e : CodeEntry}
    (he : LeafEntry t root n k e) (h : TreeOk t root n) : codeString e ≠ [] := by
  intro hnil
  have hpath := he.path
  rw [hnil, descend, Option.some.injEq] at hpath
  have hroot := h.count_le_root
  have hk := he.leaf
  have hcount := h.count
  rw [hpath, nodeIdx_toNat (by omega)] at hroot
  omega

/-- In the tree of one symbol the one branch to the leaf is a left one: the pad node has no right child (R222). -/
theorem LeafEntry.codeString_of_one {t : Vector Node 511} {root : NodeIdx} {k : Nat} {e : CodeEntry}
    (he : LeafEntry t root 1 k e) (h : TreeOk t root 1) : codeString e = [false] := by
  have hroot : root.toNat = 1 := h.rootIs
  have hlen : (codeString e).length = 1 := by
    have hpos := List.length_pos_iff.mpr (he.codeString_ne_nil h)
    have hle := he.len_le
    rw [hroot, ← length_codeString] at hle
    omega
  obtain ⟨b, hb⟩ := List.length_eq_one_iff.mp hlen
  obtain ⟨pad, hpad, hright⟩ := h.pad rfl
  have hget : nodeGet t root = some pad := by rw [nodeGet, hroot, hpad]
  have hpath := he.path
  rw [hb, descend_of_node hget, descend, Option.some.injEq] at hpath
  cases b with
  | false => exact hb
  | true =>
    have hk := he.leaf
    have hnull : Config.null = BitVec.ofNat 9 k := hright.symm.trans hpath
    have htoNat : 511 = k := (congrArg BitVec.toNat hnull).trans (nodeIdx_toNat (by omega))
    omega

/-- Settles O38: over a tree no walk stops, and the table's entries are the paths to the leaves. -/
theorem buildCodesWritesThePaths : Obligations.BuildCodesWritesThePaths := by
  unfold Obligations.BuildCodesWritesThePaths
  intro s hrun hpend hv h
  obtain ⟨code, hc⟩ := h.codeTable_ok
  refine ⟨code, ?_, fun k a hk ha => ?_, fun b hnone => ?_⟩
  · rw [exec_running hrun]
    exact (buildCodesRule_of_tree hv hc).trans (congrArg _ (finish_of_success hpend))
  · obtain ⟨k', hk', he⟩ | ⟨-, hnone⟩ := h.tableGet_codeTable hc a.value
    · obtain rfl := h.leaf_unique he.leaf hk hk' ⟨a, ha, rfl⟩
      exact ⟨he.present, he.path⟩
    · exact absurd ⟨a, ha, rfl⟩ (hnone k hk)
  · obtain ⟨k, ⟨a, ha, hb⟩, he⟩ | ⟨habsent, -⟩ := h.tableGet_codeTable hc b
    · exact absurd hb (hnone k a he.leaf ha)
    · exact habsent

/-- Settles O40: what is left of the longer code would lead on from the leaf of the shorter one. -/
theorem codesArePrefixFree : Obligations.CodesArePrefixFree := by
  unfold Obligations.CodesArePrefixFree
  intro t root n code b c h hc hbc hb hc'
  obtain ⟨i, ⟨x, hx, rfl⟩, hi⟩ := h.leafEntry_of_present hc hb
  obtain ⟨j, ⟨y, hy, rfl⟩, hj⟩ := h.leafEntry_of_present hc hc'
  rintro ⟨rest, hrest⟩
  have hcount := h.count
  have hjn := hj.leaf
  have hin := hi.leaf
  have hd := hj.path
  rw [← hrest, descend_append, hi.path, Option.bind_some] at hd
  obtain rfl := h.eq_nil_of_descend_leaf hin (by rwa [nodeIdx_toNat (by omega)]) hd
  rw [descend, Option.some.injEq] at hd
  have hij : i = j := by
    rw [← nodeIdx_toNat (i := i) (by omega), hd, nodeIdx_toNat (by omega)]
  subst hij
  cases hx.symm.trans hy
  exact hbc rfl

/-- Settles O39: a present code is a path to a leaf, and ROOT is no leaf and at most n − 1 branches above one. -/
theorem codeLengths : Obligations.CodeLengths := by
  unfold Obligations.CodeLengths
  intro t root n code b h hc hb
  obtain ⟨k, -, he⟩ := h.leafEntry_of_present hc hb
  refine ⟨fun hn => ⟨?_, ?_⟩, ?_, he.beyond⟩
  · rw [← length_codeString]
    exact List.length_pos_iff.mpr (he.codeString_ne_nil h)
  · have hroot := h.rootIs
    have hlen := he.len_le
    rw [if_neg (by omega)] at hroot
    omega
  · rintro rfl
    exact he.codeString_of_one h

end Sys2Proof.Machine

namespace Sys2Proof.Machine

open Sys2Proof

/-! ### The results of one turn of COMPRESS -/

/-- The shift as arithmetic: twice the accumulator plus the new bit, without the bit that leaves at the top (R242). -/
theorem toNat_shiftIn (acc : Byte) (b : Bool) : (shiftIn acc b).toNat = (2 * acc.toNat + b.toNat) % 256 := by
  have hb := Bool.toNat_lt b
  rw [shiftIn, BitVec.toNat_append, BitVec.extractLsb'_toNat, bit, BitVec.toNat_ofBool,
    ← Nat.shiftLeft_add_eq_or_of_lt (by simpa using hb), Nat.shiftLeft_eq, Nat.shiftRight_zero]
  omega

theorem packByte_of_absent {i : Nat} {b : Byte} {s : State} (hp : s.pend.code = .none)
    (hb : (tableGet s.code b).present = false) :
    packByte i b s = { s with
      point := .atPop (i + 1), pend := ⟨.unknownSymbol, b.setWidth 32, BitVec.ofNat 64 i⟩ } := by
  rw [packByte, if_pos hp, if_neg (by rw [hb]; decide), raise_of_clear hp, zero_append_eq_setWidth]

theorem packByte_drains {i : Nat} {b : Byte} {s : State} (hp : s.pend.code ≠ .none) :
    packByte i b s = { s with point := .atPop (i + 1) } := by
  rw [packByte, if_neg hp]

theorem packTail_of_error {s : State} (hp : s.pend.code ≠ .none) : packTail s = s := by
  rw [packTail, if_neg fun h => hp h.1]

/-- Settles O41: the three cases of a popped byte are those of `packByte`. -/
theorem compressTakesOneByte : Obligations.CompressTakesOneByte := by
  unfold Obligations.CompressTakesOneByte
  intro s i b rest hrun hpoint hi hq
  have hpop := (exec_running hrun).trans (compressRule_pop hpoint hi hq)
  refine ⟨fun hp hb => ?_, fun hp hb => ?_, fun hp => ?_⟩
  · rw [hpop, packByte_of_present (s := { s with inQ := rest }) hp hb]
  · rw [hpop, packByte_of_absent (s := { s with inQ := rest }) hp hb]
  · rw [hpop, packByte_drains (s := { s with inQ := rest }) hp]

/-- Settles O42: the new accumulator is `shiftIn`, and the place in it tells whether the byte goes out. -/
theorem compressPacksOneBit : Obligations.CompressPacksOneBit := by
  unfold Obligations.CompressPacksOneBit
  intro s i b j hrun hpoint
  refine ⟨fun hj => ?_, fun hj => (exec_running hrun).trans (compressRule_codeEnd hpoint hj)⟩
  have hbit := (exec_running hrun).trans (compressRule_bit hpoint hj)
  refine ⟨shiftIn s.acc ((tableGet s.code b).bits.getLsbD j), toNat_shiftIn _ _, fun hk => ?_, fun hk => ?_⟩
  · rw [hbit, packBit_of_lt hk]
  · rw [hbit, packBit_of_eq hk]

/-- Settles O43: the byte is the accumulator shifted up by the `8 − k` bits that are missing. -/
theorem compressFinalByte : Obligations.CompressFinalByte := by
  unfold Obligations.CompressFinalByte
  intro s i hrun hpoint hi
  have htail := (exec_running hrun).trans (compressRule_tail hpoint hi)
  refine ⟨fun hp hk hk' => ⟨s.acc <<< (8 - s.k), ?_, fun j hj => ?_, fun j hj => ?_⟩, ?_⟩
  · rw [htail, packTail_of_bits hp hk]
  · rw [BitVec.getLsbD_shiftLeft, Nat.add_sub_cancel_left]
    simp [show 8 - s.k + j < 8 by omega]
  · simp [BitVec.getLsbD_shiftLeft, hj]
  · rintro (hp | hk)
    · rw [htail, packTail_of_error hp]
    · rw [htail, packTail_of_no_bits hk]

/-- Settles O44: the end is a `finish` of the results, whose report is that of the pending error. -/
theorem compressStartsAndEnds : Obligations.CompressStartsAndEnds := by
  unfold Obligations.CompressStartsAndEnds
  intro s hrun
  rw [exec_running hrun]
  refine ⟨fun hpoint hv => ?_, fun hpoint hp => ?_, fun c x p hpoint hc hp => ?_⟩
  · exact (compressRule_entry hpoint).trans (by rw [packerStart_of_ctValid hv])
  · exact (compressRule_end hpoint).trans (congrArg _ (finish_of_success (s := packResults s) hp))
  · exact (compressRule_end hpoint).trans (congrArg _ (finish_of_error (s := packResults s) hc hp))

end Sys2Proof.Machine

namespace Sys2Proof.Machine

open Sys2Proof

/-! ### The decoding of one bit -/

theorem unpackerStart_of_tree {s : State} (h : s.treeValid = true) :
    unpackerStart s = { s with unpackOut := 0#64, cur := s.root } := by
  rw [unpackerStart]
  exact if_pos h

theorem landOn_of_leaf {i : NodeIdx} {d : Node} {s : State} (h : d.kind = .leaf) :
    landOn i d s = { s with outSlot := some d.value, unpackOut := s.unpackOut + 1#64, cur := s.root } := by
  rw [landOn, h]
  rfl

theorem landOn_of_internal {i : NodeIdx} {d : Node} {s : State} (h : d.kind = .internal) :
    landOn i d s = { s with cur := i } := by
  rw [landOn, h]

theorem corrupt_of_clear {i : Nat} {s : State} (hp : s.pend.code = .none) :
    corrupt i s = { s with pend := ⟨.streamCorruption, s.cur.setWidth 32, BitVec.ofNat 64 i⟩ } := by
  rw [corrupt, raise_of_clear hp, zero_append_eq_setWidth]

section

variable {s : State} {q k : Nat} {byte : Byte} {n d : Node}

/-- The two reasons to ignore a bit (R264, R156). -/
theorem unpackStep_ignored (h : s.pend.code ≠ .none ∨ s.bitLen ≤ 8 * q + k) : unpackStep q byte k s = .ok s := by
  rw [unpackStep, if_neg fun hbit => ?_]
  rcases h with h | h
  · exact h hbit.2
  · exact Nat.not_lt.mpr h hbit.1

theorem unpackStep_of_leaf (hp : s.pend.code = .none) (hi : 8 * q + k < s.bitLen)
    (hn : nodeGet s.node s.cur = some n) (hk : n.kind = .leaf) :
    unpackStep q byte k s = .ok (corrupt (8 * q + k) s) := by
  simp only [unpackStep, if_pos (And.intro hi hp), unpackBit, hn, hk]

theorem unpackStep_of_no_child (hp : s.pend.code = .none) (hi : 8 * q + k < s.bitLen)
    (hn : nodeGet s.node s.cur = some n) (hk : n.kind = .internal)
    (hd : nodeGet s.node (childOf n (byte.getLsbD (7 - k))) = none) :
    unpackStep q byte k s = .ok (corrupt (8 * q + k) s) := by
  simp only [unpackStep, if_pos (And.intro hi hp), unpackBit, hn, hk, hd]

theorem unpackStep_of_child (hp : s.pend.code = .none) (hi : 8 * q + k < s.bitLen)
    (hn : nodeGet s.node s.cur = some n) (hk : n.kind = .internal)
    (hd : nodeGet s.node (childOf n (byte.getLsbD (7 - k))) = some d) :
    unpackStep q byte k s = .ok (landOn (childOf n (byte.getLsbD (7 - k))) d s) := by
  simp only [unpackStep, if_pos (And.intro hi hp), unpackBit, hn, hk, hd]

end

theorem afterBit_eq (q : Nat) (byte : Byte) {t : Nat} (ht : t < 8) :
    afterBit q byte t = if t = 7 then .atPop (q + 1) else .atBit q byte (t + 1) := by
  unfold afterBit
  obtain h | h := Nat.lt_or_eq_of_le (Nat.le_of_lt_succ ht)
  · rw [if_pos (by omega), if_neg (by omega)]
  · rw [if_neg (by omega), if_pos h]

/-- Settles O46: the cases are those of `unpackStep`. -/
theorem decompressDecodesOneBit : Obligations.DecompressDecodesOneBit := by
  unfold Obligations.DecompressDecodesOneBit
  intro s q t byte hrun hpoint ht
  have hbit {u : State} (h : unpackStep q byte t s = .ok u) :
      exec .decompress s =
        .next { u with point := if t = 7 then .atPop (q + 1) else .atBit q byte (t + 1) } := by
    rw [exec_running hrun, ← afterBit_eq q byte ht]
    exact decompressRule_bit hpoint h
  refine ⟨fun h => hbit (unpackStep_ignored h), fun n hn => ⟨fun hp hi hk => ?_, fun hp hi hk =>
    ⟨fun hnull => ?_, fun d hd hleaf => ?_, fun d hd hinternal => ?_⟩⟩⟩
  · rw [hbit (unpackStep_of_leaf hp hi hn hk), corrupt_of_clear hp]
  · have hd : nodeGet s.node (childOf n (byte.getLsbD (7 - t))) = none := by
      rw [childOf, hnull]
      exact nodeGet_null s.node
    rw [hbit (unpackStep_of_no_child hp hi hn hk hd), corrupt_of_clear hp]
  · rw [hbit (unpackStep_of_child hp hi hn hk hd), landOn_of_leaf hleaf]
  · rw [hbit (unpackStep_of_child hp hi hn hk hd), landOn_of_internal hinternal]
    rfl

/-- Settles O47: the end is a `finish`, whose report is that of the pending error. -/
theorem decompressStartsAndEnds : Obligations.DecompressStartsAndEnds := by
  unfold Obligations.DecompressStartsAndEnds
  intro s hrun
  rw [exec_running hrun]
  refine ⟨fun hpoint hv => ?_, fun q b rest hpoint hq hin => decompressRule_pop hpoint hq hin,
    fun q hpoint hq => ?_⟩
  · exact (decompressRule_entry hpoint).trans (by rw [unpackerStart_of_tree hv])
  · have hend := decompressRule_end hpoint hq
    exact ⟨fun hp => hend.trans (congrArg _ (finish_of_success (s := { s with outCnt := s.unpackOut }) hp)),
      fun c x p hc hp => hend.trans (congrArg _ (finish_of_error (s := { s with outCnt := s.unpackOut }) hc hp))⟩

/-! ### A cursor in the tree -/

/-- In a tree of two or more symbols each bit leads an internal node to a child (R202, R263). -/
theorem TreeOk.exists_child {t : Vector Node 511} {root c : NodeIdx} {n : Nat} (h : TreeOk t root n) (h2 : 2 ≤ n)
    (hlow : n ≤ c.toNat) (hhigh : c.toNat ≤ root.toNat) {a : Node} (ha : nodeGet t c = some a) (b : Bool) :
    ∃ d, nodeGet t (childOf a b) = some d := by
  have hc := nodeGet_lt ha
  have hlt : (childOf a b).toNat < c.toNat := by
    cases b with
    | false =>
      obtain ⟨a', ha', -, hleft⟩ := h.internals _ hlow hhigh
      cases ha.symm.trans ha'
      exact hleft
    | true =>
      obtain ⟨a', ha', hright, -⟩ := h.full h2 _ hlow hhigh
      cases ha.symm.trans ha'
      exact hright
  refine nodeGet_isSome t fun hnull => ?_
  have : (childOf a b).toNat = 511 := congrArg BitVec.toNat hnull
  omega

/-- A cursor in the tree is at an internal node. -/
theorem CursorOk.node {s : State} (h : CursorOk s) (ht : TreeInv s) :
    ∃ n, nodeGet s.node s.cur = some n ∧ n.kind = .internal := by
  obtain ⟨hv, hlow, hhigh⟩ := h
  obtain ⟨n, hn, hk, -⟩ := (ht hv).internals _ hlow hhigh
  exact ⟨n, hn, hk⟩

/-- Everything that one bit can do where the cursor is in the tree: it is ignored (R264, R156), it meets a missing
child, or it leads to a child (R262, R263). -/
inductive UnpackTo (q : Nat) (byte : Byte) (k : Nat) (s : State) : State → Prop
  | ignored (h : s.pend.code ≠ .none ∨ s.bitLen ≤ 8 * q + k) : UnpackTo q byte k s s
  | corrupted {n : Node} (hp : s.pend.code = .none) (hi : 8 * q + k < s.bitLen) (hn : nodeGet s.node s.cur = some n)
      (hk : n.kind = .internal) (hd : nodeGet s.node (childOf n (byte.getLsbD (7 - k))) = none) :
      UnpackTo q byte k s { s with pend := ⟨.streamCorruption, s.cur.setWidth 32, BitVec.ofNat 64 (8 * q + k)⟩ }
  | landed {n d : Node} (hp : s.pend.code = .none) (hi : 8 * q + k < s.bitLen) (hn : nodeGet s.node s.cur = some n)
      (hk : n.kind = .internal) (hd : nodeGet s.node (childOf n (byte.getLsbD (7 - k))) = some d) :
      UnpackTo q byte k s (landOn (childOf n (byte.getLsbD (7 - k))) d s)

theorem UnpackTo.unpackStep_eq {q k : Nat} {byte : Byte} {s t : State} (h : UnpackTo q byte k s t) :
    unpackStep q byte k s = .ok t := by
  cases h with
  | ignored h => exact unpackStep_ignored h
  | corrupted hp hi hn hk hd => rw [unpackStep_of_no_child hp hi hn hk hd, corrupt_of_clear hp]
  | landed hp hi hn hk hd => exact unpackStep_of_child hp hi hn hk hd

theorem exists_unpackTo {s : State} (ht : TreeInv s) (hc : s.pend.code = .none → CursorOk s) (q : Nat) (byte : Byte)
    (k : Nat) : ∃ t, UnpackTo q byte k s t := by
  by_cases h : s.pend.code ≠ .none ∨ s.bitLen ≤ 8 * q + k
  · exact ⟨s, .ignored h⟩
  · rw [not_or, not_not, Nat.not_le] at h
    obtain ⟨hp, hi⟩ := h
    obtain ⟨n, hn, hk⟩ := (hc hp).node ht
    cases hd : nodeGet s.node (childOf n (byte.getLsbD (7 - k))) with
    | none => exact ⟨_, .corrupted hp hi hn hk hd⟩
    | some d => exact ⟨_, .landed hp hi hn hk hd⟩

theorem unpackTo_of_unpackStep {s t : State} {q k : Nat} {byte : Byte} (ht : TreeInv s)
    (hc : s.pend.code = .none → CursorOk s) (h : unpackStep q byte k s = .ok t) : UnpackTo q byte k s t := by
  obtain ⟨t', hto⟩ := exists_unpackTo ht hc q byte k
  cases h.symm.trans hto.unpackStep_eq
  exact hto

@[simp] theorem landOn_pend (i : NodeIdx) (d : Node) (s : State) : (landOn i d s).pend = s.pend := by
  unfold landOn
  split <;> rfl

/-- Settles O54: the only error a bit can raise is that of a missing child, and in such a tree none is missing. -/
theorem noCorruptionWithTwoSymbols : Obligations.NoCorruptionWithTwoSymbols := by
  unfold Obligations.NoCorruptionWithTwoSymbols
  intro s t hs hq h2 hv hp h
  obtain ⟨-, rfl⟩ | ⟨-, hr⟩ := exec_running_next hq h
  · exact hp
  · obtain ⟨-, rfl⟩ | ⟨q, b, rest, -, -, -, rfl⟩ | ⟨q, -, -, rfl⟩ | ⟨q, byte, k, s', hpoint, hs', rfl⟩ |
      rfl := decompressRule_next hr
    · rw [unpackerStart_of_tree hv]
      exact hp
    · exact hp
    · exact hp
    · have hc := hs.cursor hq (by simp [hpoint])
      cases unpackTo_of_unpackStep hs.tree hc hs' with
      | ignored _ => exact hp
      | corrupted _ _ hn _ hd =>
        obtain ⟨-, hlow, hhigh⟩ := hc hp
        obtain ⟨d, hd'⟩ := (hs.tree hv).exists_child h2 hlow hhigh hn (byte.getLsbD (7 - k))
        cases hd.symm.trans hd'
      | landed _ _ _ _ _ => exact (congrArg ErrReport.code (landOn_pend ..)).trans hp
    · exact hp

end Sys2Proof.Machine

namespace Sys2Proof.Machine

open Sys2Proof

/-! ### The decoding of a string of bits -/

/-- What landing on a node emits: a leaf's value, and nothing at an internal node (R262). -/
def Node.emits (d : Node) : List Byte :=
  match d.kind with
  | .leaf => [d.value]
  | .internal => []

/-- Where the cursor is after landing on node `i`, which is `d` (R262). -/
def Node.nextCursor (root i : NodeIdx) (d : Node) : NodeIdx :=
  match d.kind with
  | .leaf => root
  | .internal => i

section

variable {t : Vector Node 511} {root c : NodeIdx} {n d : Node} {b : Bool}

theorem decodeBits_of_child (hn : nodeGet t c = some n) (hd : nodeGet t (childOf n b) = some d) (bs : List Bool) :
    decodeBits t root c (b :: bs) = d.emits ++ decodeBits t root (d.nextCursor root (childOf n b)) bs := by
  rw [Node.emits, Node.nextCursor]
  cases hk : d.kind <;> simp [decodeBits, hn, hd, hk]

theorem decodeBits_of_no_child (hn : nodeGet t c = some n) (hd : nodeGet t (childOf n b) = none) (bs : List Bool) :
    decodeBits t root c (b :: bs) = [] := by
  simp only [decodeBits, hn, hd]

theorem length_emits_le (d : Node) : d.emits.length ≤ 1 := by
  unfold Node.emits
  split <;> simp

/-- Each decoded byte takes at least one bit (R261). -/
theorem length_decodeBits_le (t : Vector Node 511) (root : NodeIdx) (bs : List Bool) (c : NodeIdx) :
    (decodeBits t root c bs).length ≤ bs.length := by
  induction bs generalizing c with
  | nil => exact Nat.le_refl 0
  | cons b bs ih =>
    cases hn : nodeGet t c with
    | none => simp [decodeBits, hn]
    | some n =>
      cases hd : nodeGet t (childOf n b) with
      | none => simp [decodeBits_of_no_child hn hd]
      | some d =>
        have hemits := length_emits_le d
        have hrest := ih (d.nextCursor root (childOf n b))
        rw [decodeBits_of_child hn hd, List.length_append, List.length_cons]
        omega

end

/-- From cursor `c` the bits decode to the bytes of the list, and each of them leads to a child (R262). -/
inductive Decodes (t : Vector Node 511) (root : NodeIdx) : NodeIdx → List Bool → List Byte → Prop
  | nil (c : NodeIdx) : Decodes t root c [] []
  | cons {c : NodeIdx} {n d : Node} {b : Bool} {bs : List Bool} {out : List Byte} (hn : nodeGet t c = some n)
      (hd : nodeGet t (childOf n b) = some d) (h : Decodes t root (d.nextCursor root (childOf n b)) bs out) :
      Decodes t root c (b :: bs) (d.emits ++ out)

theorem Decodes.decodeBits_eq {t : Vector Node 511} {root c : NodeIdx} {bs : List Bool} {out : List Byte}
    (h : Decodes t root c bs out) : decodeBits t root c bs = out := by
  induction h with
  | nil c => rfl
  | cons hn hd _ ih => rw [decodeBits_of_child hn hd, ih]

/-- From cursor `c` no bit of the string meets a missing child (R263). -/
def Decodable (t : Vector Node 511) (root c : NodeIdx) (bs : List Bool) : Prop := ∃ out, Decodes t root c bs out

theorem Decodable.next {t : Vector Node 511} {root c : NodeIdx} {n : Node} {b : Bool} {bs : List Bool}
    (h : Decodable t root c (b :: bs)) (hn : nodeGet t c = some n) :
    ∃ d, nodeGet t (childOf n b) = some d ∧ Decodable t root (d.nextCursor root (childOf n b)) bs := by
  obtain ⟨_, h⟩ := h
  cases h with
  | cons hn' hd h =>
    cases hn.symm.trans hn'
    exact ⟨_, hd, _, h⟩

/-- The leaves of a tree are its first `n` nodes (R53). -/
theorem TreeOk.kind_eq_leaf_iff {t : Vector Node 511} {root c : NodeIdx} {n : Nat} (h : TreeOk t root n)
    (hc : c.toNat ≤ root.toNat) {a : Node} (ha : nodeGet t c = some a) : a.kind = .leaf ↔ c.toNat < n := by
  obtain hlt | hge := Nat.lt_or_ge c.toNat n
  · obtain ⟨a', ha', hk, -⟩ := h.leaves _ hlt
    cases ha.symm.trans ha'
    simp [hk, hlt]
  · obtain ⟨a', ha', hk, -⟩ := h.internals _ hge hc
    cases ha.symm.trans ha'
    simp [hk, Nat.not_lt.mpr hge]

/-- The cursor stays at internal nodes (R263). -/
theorem TreeOk.nextCursor_internal {t : Vector Node 511} {root i : NodeIdx} {n : Nat} (h : TreeOk t root n)
    (hi : i.toNat ≤ root.toNat) {d : Node} (hd : nodeGet t i = some d) :
    n ≤ (d.nextCursor root i).toNat ∧ (d.nextCursor root i).toNat ≤ root.toNat := by
  have hleaf := h.kind_eq_leaf_iff hi hd
  unfold Node.nextCursor
  split
  · exact ⟨h.count_le_root, le_rfl⟩
  · next hk => exact ⟨Nat.not_lt.mp fun hlt => by simp [hleaf.mpr hlt] at hk, hi⟩

/-- In a tree of two or more symbols every string of bits decodes (R263). -/
theorem TreeOk.decodable {t : Vector Node 511} {root : NodeIdx} {n : Nat} (h : TreeOk t root n) (h2 : 2 ≤ n)
    (bs : List Bool) : ∀ {c : NodeIdx}, n ≤ c.toNat → c.toNat ≤ root.toNat → Decodable t root c bs := by
  induction bs with
  | nil => exact fun _ _ => ⟨[], .nil _⟩
  | cons b bs ih =>
    intro c hlow hhigh
    obtain ⟨a, ha, -⟩ := h.internals _ hlow hhigh
    obtain ⟨d, hd⟩ := h.exists_child h2 hlow hhigh ha b
    have hlt := h.child_lt hlow hhigh ha hd
    obtain ⟨hlow', hhigh'⟩ := h.nextCursor_internal (hlt.trans_le hhigh).le hd
    obtain ⟨out, hout⟩ := ih hlow' hhigh'
    exact ⟨_, .cons ha hd hout⟩

/-- A path to a node of the arena starts at one: nothing is below NULL (R116). -/
theorem exists_node_of_descend {t : Vector Node 511} {k : Nat} (hk : k < 511) {i : NodeIdx} {path : List Bool}
    (h : descend t i path = some (BitVec.ofNat 9 k)) : ∃ d, nodeGet t i = some d := by
  refine nodeGet_isSome t fun hnull => ?_
  rw [hnull] at h
  have : k = 511 := (nodeIdx_toNat (by omega)).symm.trans (congrArg BitVec.toNat (descend_null t h))
  omega

/-- A path down to a leaf decodes to the leaf's value, and leaves the cursor at ROOT (R224, R262). -/
theorem TreeOk.decodes_path {t : Vector Node 511} {root : NodeIdx} {n k : Nat} (h : TreeOk t root n) {a : Node}
    (hk : k < n) (ha : t[k]? = some a) {rest : List Bool} {out : List Byte} (hrest : Decodes t root root rest out)
    (path : List Bool) : ∀ {c : NodeIdx}, n ≤ c.toNat → c.toNat ≤ root.toNat →
      descend t c path = some (BitVec.ofNat 9 k) → Decodes t root c (path ++ rest) (a.value :: out) := by
  have hcount := h.count
  have hkn : (BitVec.ofNat 9 k : NodeIdx).toNat = k := nodeIdx_toNat (by omega)
  induction path with
  | nil =>
    intro c hlow _ hd
    rw [descend, Option.some.injEq] at hd
    rw [hd] at hlow
    omega
  | cons b path ih =>
    intro c hlow hhigh hdown
    obtain ⟨p, hp, -⟩ := h.internals _ hlow hhigh
    have hget : nodeGet t c = some p := hp
    rw [descend_of_node hget] at hdown
    obtain ⟨d, hd⟩ := exists_node_of_descend (by omega) hdown
    have hlt := h.child_lt hlow hhigh hget hd
    have hleaf := h.kind_eq_leaf_iff (hlt.trans_le hhigh).le hd
    have hstep {out' : List Byte} (hout : Decodes t root (d.nextCursor root (childOf p b)) (path ++ rest) out') :
        Decodes t root c (b :: (path ++ rest)) (d.emits ++ out') := .cons hget hd hout
    cases hkind : d.kind with
    | leaf =>
      have hdn := hleaf.mp hkind
      have hself : BitVec.ofNat 9 (childOf p b).toNat = childOf p b := BitVec.ofNat_toNat ..
      obtain rfl := h.eq_nil_of_descend_leaf hdn (by rwa [hkn]) (hself.symm ▸ hdown)
      rw [descend, Option.some.injEq] at hdown
      rw [hdown, nodeGet, hkn] at hd
      cases ha.symm.trans hd
      simp only [Node.emits, Node.nextCursor, hkind] at hstep
      exact hstep hrest
    | internal =>
      have hdn : n ≤ (childOf p b).toNat := Nat.not_lt.mp fun hlt' => by simp [hleaf.mpr hlt'] at hkind
      simp only [Node.emits, Node.nextCursor, hkind] at hstep
      exact hstep (ih hdn (hlt.trans_le hhigh).le hdown)

/-- The codes of a message decode to the message (R266). -/
theorem TreeOk.decodes_logicalBits {t : Vector Node 511} {root : NodeIdx} {n : Nat} (h : TreeOk t root n)
    {code : Vector CodeEntry 256} (hc : codeTable t root n = .ok code) (m : List Byte)
    (hm : ∀ b ∈ m, (tableGet code b).present = true) : Decodes t root root (logicalBits code m) m := by
  induction m with
  | nil => exact .nil root
  | cons b m ih =>
    obtain ⟨hb, htail⟩ := List.forall_mem_cons.mp hm
    obtain ⟨k, ⟨a, ha, rfl⟩, he⟩ := h.leafEntry_of_present hc hb
    exact h.decodes_path he.leaf ha (ih htail) _ h.count_le_root le_rfl he.path

end Sys2Proof.Machine

namespace Sys2Proof.Machine

open Sys2Proof

/-! ### DECOMPRESS along a bitstream -/

theorem landOn_withScript (i : NodeIdx) (d : Node) (s : State) (x : List HostEvent) :
    landOn i d (s.withScript x) = (landOn i d s).withScript x := by
  unfold landOn
  split <;> rfl

/-- The decoding of a bit neither reads nor changes the coming events. -/
theorem UnpackTo.withScript {q k : Nat} {byte : Byte} {s t : State} (h : UnpackTo q byte k s t)
    (x : List HostEvent) : UnpackTo q byte k (s.withScript x) (t.withScript x) := by
  cases h with
  | ignored h => exact .ignored h
  | corrupted hp hi hn hk hd => exact .corrupted hp hi hn hk hd
  | landed hp hi hn hk hd =>
    rw [← landOn_withScript]
    exact .landed hp hi hn hk hd

@[simp] theorem landOn_node (i : NodeIdx) (d : Node) (s : State) : (landOn i d s).node = s.node :=
  (congrArg State.node (coderPart_landOn i d s) :)

@[simp] theorem landOn_root (i : NodeIdx) (d : Node) (s : State) : (landOn i d s).root = s.root :=
  (congrArg State.root (coderPart_landOn i d s) :)

@[simp] theorem landOn_cur (i : NodeIdx) (d : Node) (s : State) :
    (landOn i d s).cur = d.nextCursor s.root i := by
  rw [landOn, Node.nextCursor]
  cases d.kind <;> rfl

/-- The bytes in handshake on OUT: none or one (R87). -/
def State.offered (s : State) : List Byte := s.outSlot.toList

theorem offered_of_no_slot {s : State} (h : s.outSlot = none) : s.offered = [] := by
  rw [State.offered, h]
  rfl

theorem landOn_offered (i : NodeIdx) (d : Node) {s : State} (h : s.outSlot = none) :
    (landOn i d s).offered = d.emits := by
  rw [landOn, Node.emits]
  cases d.kind
  · rfl
  · exact offered_of_no_slot h

theorem landOn_unpackOut (i : NodeIdx) (d : Node) (s : State) :
    (landOn i d s).unpackOut = s.unpackOut + BitVec.ofNat 64 d.emits.length := by
  rw [landOn, Node.emits]
  cases d.kind
  · rfl
  · exact (BitVec.add_zero _).symm

theorem takeOut_eq_offered (s : State) : takeOut s = { s with outSlot := none, taken := s.taken ++ s.offered } := by
  cases h : s.outSlot with
  | none => rw [takeOut_of_no_slot h, offered_of_no_slot h, List.append_nil, ← h]
  | some v => rw [takeOut_of_slot h, State.offered, h]; rfl

/-- The bytes that a running DECOMPRESS still decodes from the bits left: none after an error (R263). -/
def State.toDecode (s : State) (bs : List Bool) : List Byte :=
  if s.pend.code = .none then decodeBits s.node s.root s.cur bs else []

/-- No bit left will raise an error, and none has. -/
def State.Clean (s : State) (bs : List Bool) : Prop :=
  s.pend.code = .none ∧ Decodable s.node s.root s.cur bs

theorem toDecode_nil (s : State) : s.toDecode [] = [] := ite_self _

theorem toDecode_of_error {s : State} (h : s.pend.code ≠ .none) (bs : List Bool) : s.toDecode bs = [] := if_neg h

theorem toDecode_of_clear {s : State} (h : s.pend.code = .none) (bs : List Bool) :
    s.toDecode bs = decodeBits s.node s.root s.cur bs := if_pos h

/-- The bits after bit `i` of a stream of `n` are those from bit `i` without the first. -/
theorem take_sub_of_lt {n i : Nat} (h : i < n) (b : Bool) (bs : List Bool) :
    (b :: bs).take (n - i) = b :: bs.take (n - (i + 1)) := by
  rw [show n - i = n - (i + 1) + 1 by omega, List.take_succ_cons]

theorem take_sub_of_le {n i : Nat} (h : n ≤ i) (bs : List Bool) : bs.take (n - i) = [] := by
  rw [Nat.sub_eq_zero_of_le h, List.take_zero]

section

variable {s t : State} {q k : Nat} {byte : Byte} (h : UnpackTo q byte k s t) (ho : s.outSlot = none)

include h

theorem UnpackTo.pend_code : t.pend.code = s.pend.code ∨ t.pend.code = .streamCorruption := by
  cases h with
  | ignored _ => exact .inl rfl
  | corrupted _ _ _ _ _ => exact .inr rfl
  | landed _ _ _ _ _ => exact .inl (congrArg ErrReport.code (landOn_pend ..))

/-- A bit that decodes raises no error and leaves bits that decode (R263). -/
theorem UnpackTo.clean {bs : List Bool}
    (hs : s.Clean ((byte.getLsbD (7 - k) :: bs).take (s.bitLen - (8 * q + k)))) :
    t.Clean (bs.take (s.bitLen - (8 * q + (k + 1)))) := by
  obtain ⟨hp, hdec⟩ := hs
  cases h with
  | ignored h =>
    have hle := h.resolve_left (not_not_intro hp)
    rw [take_sub_of_le (by omega)]
    exact ⟨hp, [], .nil _⟩
  | corrupted _ hi hn _ hd =>
    rw [take_sub_of_lt hi] at hdec
    obtain ⟨d, hd', -⟩ := hdec.next hn
    cases hd.symm.trans hd'
  | landed _ hi hn _ hd =>
    rw [take_sub_of_lt hi] at hdec
    obtain ⟨d, hd', hnext⟩ := hdec.next hn
    cases hd.symm.trans hd'
    refine ⟨by simpa using hp, ?_⟩
    rw [landOn_node, landOn_root, landOn_cur]
    exact hnext

include ho

/-- The count of the unpacker counts the byte that the bit pushes (R261). -/
theorem UnpackTo.unpackOut_eq : t.unpackOut = s.unpackOut + BitVec.ofNat 64 t.offered.length := by
  cases h with
  | ignored _ | corrupted _ _ _ _ _ => simp [State.offered, ho]
  | landed _ _ _ _ _ => rw [landOn_offered _ _ ho, landOn_unpackOut]

/-- What a bit pushes and what the bits after it decode to is what they decode to together (R262, R263, R264). -/
theorem UnpackTo.offered_append_toDecode (bs : List Bool) :
    t.offered ++ t.toDecode (bs.take (s.bitLen - (8 * q + (k + 1)))) =
      s.toDecode ((byte.getLsbD (7 - k) :: bs).take (s.bitLen - (8 * q + k))) := by
  cases h with
  | ignored h =>
    rw [offered_of_no_slot ho, List.nil_append]
    rcases h with hp | hle
    · rw [toDecode_of_error hp, toDecode_of_error hp]
    · rw [take_sub_of_le (by omega), take_sub_of_le hle]
  | corrupted hp hi hn _ hd =>
    rw [take_sub_of_lt hi, toDecode_of_clear hp, decodeBits_of_no_child hn hd]
    exact congrArg₂ (· ++ ·) (offered_of_no_slot ho) (toDecode_of_error (by simp) _)
  | landed hp hi hn _ hd =>
    rw [landOn_offered _ _ ho, toDecode_of_clear (by simpa using hp), take_sub_of_lt hi, toDecode_of_clear hp,
      decodeBits_of_child hn hd, landOn_node, landOn_root, landOn_cur]
    rfl

end

end Sys2Proof.Machine

namespace Sys2Proof.Machine

open Sys2Proof

/-! ### DECOMPRESS of a whole bitstream -/

/-- What DECOMPRESS does not change: the memories, their validity flags and BITCNT (R260). -/
def State.unpackKept (s : State) : State := { s.memoryPart with bitCnt := s.bitCnt }

theorem memoryPart_of_unpackKept {s u : State} (h : u.unpackKept = s.unpackKept) : u.memoryPart = s.memoryPart :=
  (congrArg State.memoryPart h :)

theorem bitLen_of_unpackKept {s u : State} (h : u.unpackKept = s.unpackKept) : u.bitLen = s.bitLen :=
  (congrArg State.bitLen h :)

theorem treeInv_of_unpackKept {s u : State} (h : u.unpackKept = s.unpackKept) (hs : TreeInv s) : TreeInv u := by
  have hkept : TreeInv s.unpackKept := hs
  rw [← h] at hkept
  exact hkept

theorem UnpackTo.unpackKept_eq {q k : Nat} {byte : Byte} {s t : State} (h : UnpackTo q byte k s t) :
    t.unpackKept = s.unpackKept := by
  cases h with
  | ignored _ | corrupted _ _ _ _ _ => rfl
  | landed _ _ _ _ _ =>
    unfold landOn
    split <;> rfl

/-- DECOMPRESS of the bits `A`, accepted in `s`, is running in `u`; the bits `S` of them are left, and the host has
taken every byte pushed. -/
structure Unpacking (s : State) (A S : List Bool) (u : State) : Prop where
  running : Running .decompress u
  kept : u.unpackKept = s.unpackKept
  cursor : u.pend.code = .none → CursorOk u
  error : u.pend.code = .none ∨ u.pend.code = .streamCorruption
  /-- an error comes only from bits that do not decode -/
  clean : Decodable s.node s.root s.root A → u.Clean S
  /-- the bytes taken are those decoded so far -/
  out : ∃ out, u.taken = s.taken ++ out ∧ u.unpackOut = BitVec.ofNat 64 out.length ∧
    out ++ u.toDecode S = decodeBits s.node s.root s.root A

section

variable {s u : State} {A : List Bool}

/-- The first turn puts the cursor at ROOT (R260). -/
theorem unpacking_start (A : List Bool) (ht : TreeInv s) (hv : s.treeValid = true) (ho : s.outSlot = none) :
    ∃ u, Drains 1 (accept .decompress s) u ∧ Unpacking s A A u ∧ u.point = .atPop 0 ∧ u.inQ = s.inQ := by
  refine ⟨{ accept .decompress s with unpackOut := 0#64, cur := s.root, point := .atPop 0 },
    Drains.turn_of_no_push ⟨rfl, ho⟩ ho fun x =>
      (decompressRule_entry (s := (accept .decompress s).withScript x) rfl).trans ?_,
    { running := ⟨rfl, ho⟩
      kept := rfl
      cursor := fun _ => ⟨hv, (ht hv).count_le_root, le_rfl⟩
      error := .inl rfl
      clean := fun h => ⟨rfl, h⟩
      out := ⟨[], (List.append_nil _).symm, rfl, rfl⟩ }, rfl, rfl⟩
  rw [unpackerStart_of_tree (s := (accept .decompress s).withScript x) hv]
  rfl

theorem unpacking_pop {S : List Bool} (h : Unpacking s A S u) {q : Nat} {b : Byte} {rest : List Byte}
    (hpoint : u.point = .atPop q) (hq : q < s.packedLen) (hin : u.inQ = b :: rest) :
    ∃ u', Drains 1 u u' ∧ Unpacking s A S u' ∧ u'.point = .atBit q b 0 ∧ u'.inQ = rest := by
  have hlt : q < u.packedLen := by rwa [State.packedLen, bitLen_of_unpackKept h.kept]
  exact ⟨{ u with inQ := rest, point := .atBit q b 0 },
    Drains.turn_of_no_push h.running h.running.2 fun x => decompressRule_pop (s := u.withScript x) hpoint hlt hin,
    ⟨h.running, h.kept, h.cursor, h.error, h.clean, h.out⟩, rfl, rfl⟩

/-- Bit `k` of packed byte `q` is decoded, and the host takes the byte that it pushes (R262). -/
theorem unpacking_bit (ht : TreeInv s) {q k : Nat} {byte : Byte} {bs : List Bool}
    (h : Unpacking s A ((byte.getLsbD (7 - k) :: bs).take (s.bitLen - (8 * q + k))) u)
    (hpoint : u.point = .atBit q byte k) :
    ∃ u', Drains 1 u u' ∧ Unpacking s A (bs.take (s.bitLen - (8 * q + (k + 1)))) u' ∧
      u'.point = afterBit q byte k ∧ u'.inQ = u.inQ := by
  have htree := treeInv_of_unpackKept h.kept ht
  obtain ⟨t, hto⟩ := exists_unpackTo htree h.cursor q byte k
  have hstep := hto.unpackStep_eq
  have hturn := Drains.turn (t := { t with point := afterBit q byte k }) h.running fun x =>
    decompressRule_bit (s := u.withScript x) hpoint (hto.withScript x).unpackStep_eq
  rw [takeOut_eq_offered] at hturn
  have hframe := frame_unpackStep hstep
  have hkeep : t.taken = u.taken := (congrArg State.taken hframe :)
  obtain ⟨out, htaken, hout, hdec⟩ := h.out
  have hclean := h.clean
  rw [← bitLen_of_unpackKept h.kept] at hclean hdec ⊢
  refine ⟨_, hturn, ?_, rfl, (inQ_of_sourcePart (sourcePart_unpackStep hstep) :)⟩
  exact {
    running := ⟨(seq_of_frame hframe).trans h.running.1, rfl⟩
    kept := hto.unpackKept_eq.trans h.kept
    cursor := (cursorOk_unpackStep htree h.cursor hstep :)
    error := by
      obtain e | e := hto.pend_code
      · exact h.error.imp e.trans e.trans
      · exact .inr e
    clean := fun hA => hto.clean (hclean hA)
    out := by
      refine ⟨out ++ t.offered, ?_, ?_, ?_⟩
      · rw [← List.append_assoc, ← htaken, ← hkeep]
        rfl
      · rw [List.length_append, BitVec.ofNat_add, ← hout]
        exact hto.unpackOut_eq h.running.2
      · rw [List.append_assoc, ← hdec, ← hto.offered_append_toDecode h.running.2]
        rfl }

end

theorem drop_lowBits (byte : Byte) {k : Nat} (hk : k < 8) :
    (lowBits byte 8).drop k = byte.getLsbD (7 - k) :: (lowBits byte 8).drop (k + 1) := by
  rw [List.drop_eq_getElem_cons (by simpa using hk)]
  simp [lowBits]

/-- The bits of packed byte `q` from bit `k` on, `n + 1` of them (R262). -/
theorem unpacking_byte {s : State} {A bs : List Bool} (ht : TreeInv s) {q : Nat} {byte : Byte} (n : Nat) :
    ∀ {k : Nat} {u : State}, Unpacking s A (((lowBits byte 8).drop k ++ bs).take (s.bitLen - (8 * q + k))) u →
    u.point = .atBit q byte k → k + n = 7 →
    ∃ u', Drains (n + 1) u u' ∧ Unpacking s A (bs.take (s.bitLen - 8 * (q + 1))) u' ∧
      u'.point = .atPop (q + 1) ∧ u'.inQ = u.inQ := by
  induction n with
  | zero =>
    intro k u h hpoint hk
    obtain rfl : k = 7 := hk
    exact unpacking_bit ht h hpoint
  | succ n ih =>
    intro k u h hpoint hk
    rw [drop_lowBits byte (by omega), List.cons_append] at h
    obtain ⟨u₁, hd₁, h₁, hpoint₁, hq₁⟩ := unpacking_bit ht h hpoint
    rw [afterBit, if_pos (by omega)] at hpoint₁
    obtain ⟨u₂, hd₂, h₂, hpoint₂, hq₂⟩ := ih h₁ hpoint₁ (by omega)
    refine ⟨u₂, ?_, h₂, hpoint₂, hq₂.trans hq₁⟩
    rw [Nat.add_comm]
    exact hd₁.trans hd₂

/-- The packed bytes, from item `q` of the input loop on (R260). -/
theorem unpacking_bytes {s : State} {A : List Bool} {rest : List Byte} (ht : TreeInv s) (p : List Byte) :
    ∀ {q : Nat} {u : State}, Unpacking s A ((packedBits p).take (s.bitLen - 8 * q)) u → u.point = .atPop q →
    u.inQ = p ++ rest → q + p.length = s.packedLen →
    ∃ u', Drains (9 * p.length) u u' ∧ Unpacking s A [] u' ∧ u'.point = .atPop s.packedLen ∧ u'.inQ = rest := by
  induction p with
  | nil =>
    intro q u h hpoint hin hq
    rw [packedBits_nil, List.take_nil] at h
    exact ⟨u, .refl u, h, hq ▸ hpoint, hin⟩
  | cons b p ih =>
    intro q u h hpoint hin hq
    rw [List.length_cons] at hq
    obtain ⟨u₁, hd₁, h₁, hpoint₁, hin₁⟩ := unpacking_pop h hpoint (by omega) hin
    obtain ⟨u₂, hd₂, h₂, hpoint₂, hin₂⟩ := unpacking_byte ht 7 h₁ hpoint₁ rfl
    obtain ⟨u₃, hd₃, h₃, hpoint₃, hin₃⟩ := ih h₂ hpoint₂ (hin₂.trans hin₁) (by omega)
    refine ⟨u₃, ?_, h₃, hpoint₃, hin₃⟩
    convert (hd₁.trans hd₂).trans hd₃ using 1
    rw [List.length_cons]
    omega

/-- The bits that DECOMPRESS decodes of the packed bytes `p`: the first BITCNT (R264). -/
def State.streamBits (s : State) (p : List Byte) : List Bool := (packedBits p).take s.bitCnt.toNat

/-- DECOMPRESS of a whole bitstream, from its acceptance to its report (R260, R261). -/
theorem drains_decompress {s : State} {p rest : List Byte} (ht : TreeInv s) (hv : s.treeValid = true)
    (ho : s.outSlot = none) (hin : s.inQ = p ++ rest) (hlen : p.length = s.packedLen) :
    ∃ u, Drains (9 * p.length + 2) (accept .decompress s) (finish { u with outCnt := u.unpackOut }) ∧
      Unpacking s (s.streamBits p) [] u ∧ u.inQ = rest := by
  obtain ⟨u₁, hd₁, h₁, hpoint₁, hin₁⟩ := unpacking_start (s.streamBits p) ht hv ho
  obtain ⟨u₂, hd₂, h₂, hpoint₂, hin₂⟩ := unpacking_bytes ht p h₁ hpoint₁ (hin₁.trans hin) (by omega)
  have hend : u₂.packedLen ≤ s.packedLen := by rw [State.packedLen, bitLen_of_unpackKept h₂.kept]; rfl
  have hd₃ : Drains 1 u₂ (finish { u₂ with outCnt := u₂.unpackOut }) :=
    Drains.turn_of_no_push h₂.running h₂.running.2 fun x => decompressRule_end (s := u₂.withScript x) hpoint₂ hend
  refine ⟨u₂, ?_, h₂, hin₂⟩
  convert (hd₁.trans hd₂).trans hd₃ using 1
  omega

/-- When no bit is left, the bytes taken are those that the bits decode to, and OUTCNT will count them: no more than
BITCNT, so that the count does not wrap (R261). -/
theorem Unpacking.decoded {s u : State} {p : List Byte} (h : Unpacking s (s.streamBits p) [] u) :
    u.taken = s.taken ++ decodeBits s.node s.root s.root (s.streamBits p) ∧
      u.unpackOut.toNat = (decodeBits s.node s.root s.root (s.streamBits p)).length := by
  obtain ⟨out, htaken, hout, hdec⟩ := h.out
  rw [toDecode_nil, List.append_nil] at hdec
  have hle := length_decodeBits_le s.node s.root (s.streamBits p) s.root
  have hbits : (s.streamBits p).length ≤ s.bitCnt.toNat := List.length_take_le ..
  have hlt := s.bitCnt.isLt
  rw [← hdec] at hle ⊢
  exact ⟨htaken, by rw [hout, BitVec.toNat_ofNat, Nat.mod_eq_of_lt (by omega)]⟩

/-- Settles O48: the bytes taken are those decoded so far, bit by bit, and in a tree of two or more symbols every
string of bits decodes. -/
theorem decompressDecodesTheStream : Obligations.DecompressDecodesTheStream := by
  unfold Obligations.DecompressDecodesTheStream
  intro s p rest hseq ho hv htree hin hlen hscript
  obtain ⟨u, hd, h, hrest⟩ := drains_decompress (fun _ => htree) hv ho hin hlen
  obtain ⟨htaken, hcount⟩ := h.decoded
  obtain ⟨hnode, ⟨hroot, hleaf, htv⟩, hcode, hctv⟩ :=
    same_of_coderPart (coderPart_of_memoryPart (memoryPart_of_unpackKept h.kept))
  have hfreq := freq_of_memoryPart (memoryPart_of_unpackKept h.kept)
  have hclean (h2 : 2 ≤ s.nLeaf.toNat) : u.pend.code = .none :=
    (h.clean (htree.decodable h2 _ htree.count_le_root le_rfl)).1
  exact ⟨_, run_hostCmd hscript hseq hd, htaken, hcount, hclean, h.error, rfl, rfl, hrest, h.running.2,
    (congrArg State.bitCnt h.kept :), hfreq, hnode, hroot, hleaf, hcode, htv, hctv⟩

/-! ### The round trip -/

/-- The first bits of bytes that hold the bits `S` one by one are `S` (R120). -/
theorem take_packedBits {S : List Bool} {p : List Byte} (hlen : p.length = (S.length + 7) / 8)
    (h : ∀ i, i < 8 * p.length → (p.getD (i / 8) 0#8).getLsbD (7 - i % 8) = S.getD i false) :
    (packedBits p).take S.length = S := by
  refine List.ext_getElem (by rw [List.length_take, length_packedBits]; omega) fun i hi hi' => ?_
  have hbit := h i (by omega)
  rw [← packedBits_getD, List.getD_eq_getElem _ _ (by rw [length_packedBits]; omega),
    List.getD_eq_getElem _ _ hi'] at hbit
  rw [List.getElem_take, hbit]

/-- DECOMPRESS of bits that decode to `m` gives `m` and reports success (R260, R261). -/
theorem run_decompress_of_decodes {s : State} {p rest m : List Byte} (hq : s.seq = .idle) (ht : TreeInv s)
    (hv : s.treeValid = true) (ho : s.outSlot = none) (hin : s.inQ = p ++ rest) (hlen : p.length = s.packedLen)
    (hscript : s.script = hostCmd .decompress ++ hostDrain (9 * p.length + 2))
    (hm : Decodes s.node s.root s.root (s.streamBits p) m) :
    ∃ u, run s.script.length s = .next u ∧ u.taken = s.taken ++ m ∧ u.outCnt.toNat = m.length ∧ u.err = false ∧
      u.done = true ∧ u.seq = .idle := by
  obtain ⟨u, hd, h, -⟩ := drains_decompress ht hv ho hin hlen
  obtain ⟨htaken, hcount⟩ := h.decoded
  rw [hm.decodeBits_eq] at htaken hcount
  have hclean : u.pend.code = .none := (h.clean ⟨m, hm⟩).1
  exact ⟨_, run_hostCmd hscript hq hd, htaken, hcount, decide_eq_false (not_not_intro hclean), rfl, rfl⟩

/-- Settles O49: the first BITCNT bits of the packed bytes are the codes of the message, and the tree walk decodes
each code to its byte. -/
theorem roundTrip : Obligations.RoundTrip := by
  unfold Obligations.RoundTrip
  intro s m hseq ho hv hct htree hcode hlen hpresent hin htaken hscript
  obtain ⟨t, p, hrun, hp, hplen, hbits, hbitCnt, -, htseq, hdone, herr, -, -, hto, -, hnode, hroot, hleaf, -, htv,
    -, -⟩ := compressPacksTheMessage s m [] hseq ho hct (by rw [hin, List.append_nil]) hlen hpresent hscript
  rw [htaken, List.nil_append] at hp
  subst hp
  have htlen : t.taken.length = (t.bitCnt.toNat + 7) / 8 := by rw [hplen, hbitCnt]
  have hdec : Decodes t.node t.root t.root (t.streamBits t.taken) m := by
    rw [State.streamBits, hbitCnt, take_packedBits hplen hbits, hnode, hroot]
    exact htree.decodes_logicalBits hcode m hpresent
  have htree' : TreeInv t := fun _ => by rw [hnode, hroot, hleaf]; exact htree
  obtain ⟨u, hrun', hout⟩ := run_decompress_of_decodes
    (s := { t with
      taken := [], inQ := t.taken, script := hostCmd .decompress ++ hostDrain (9 * t.taken.length + 2) })
    htseq htree' (htv.trans hv) hto (List.append_nil _).symm htlen rfl hdec
  rw [List.length_append, length_hostDrain] at hrun'
  exact ⟨t, u, hrun, herr, hdone, htlen, hrun', hout⟩

end Sys2Proof.Machine

namespace Sys2Proof.Machine

open Sys2Proof

/-! ### The frequency window in an IDLE engine -/

theorem regWrite_withScript (r : Reg) (v : Word) (s : State) (x : List HostEvent) :
    regWrite r v (s.withScript x) = (regWrite r v s).withScript x := by
  cases r with
  | ack => simp only [regWrite, ackWrite]; split <;> rfl
  | _ => rfl

/-- The host's write to a register other than CMD stores while IDLE (R124). -/
theorem run_hostWrite_idle (r : Reg) (n : Nat) {s : State} {v : Word} {rest : List HostEvent} (hc : r ≠ .cmd)
    (hq : s.seq = .idle) :
    run (n + 1) (s.withScript (.write (offsetOf r) v :: rest)) = run n ((regWrite r v s).withScript rest) := by
  have hstep : step (s.withScript (.write (offsetOf r) v :: rest)) = .next (regWrite r v (s.withScript rest)) :=
    step_write_store rfl (regOf_offsetOf r) (.inl hq) hc
  rw [run_succ n hstep, regWrite_withScript]

/-- The host's read while IDLE records what the register reads (R124). -/
theorem run_hostRead_idle (r : Reg) (n : Nat) {s : State} {rest : List HostEvent} (hq : s.seq = .idle) :
    run (n + 1) (s.withScript (.read (offsetOf r) :: rest)) = run n ((logRead (regRead r s) s).withScript rest) := by
  have hstep := step_read_idle (s := s.withScript (.read (offsetOf r) :: rest)) rfl hq
  rw [run_succ n hstep, regOf_offsetOf, State.withScript, regRead_script]
  rfl

/-- Writing a byte value to FREQ_IDX selects it (R41). -/
theorem regWrite_freqIdx (b : Byte) (s : State) : regWrite .freqIdx (0#24 ++ b) s = { s with freqIdx := b } := by
  rw [regWrite, extractLsb'_zero, BitVec.setWidth_append_eq_right]

theorem hiWord_append_loWord (v : Count) : hiWord v ++ loWord v = v := by
  refine BitVec.eq_of_toNat_eq ?_
  rw [append_toNat, hiWord_toNat, loWord_toNat]
  omega

/-- Both halves of a counter are written, so nothing of its old value stays. -/
theorem setHi_setLo (v : Count) (lo hi : Word) : setHi (setLo v lo) hi = hi ++ lo := by
  refine BitVec.eq_of_toNat_eq ?_
  rw [setHi_toNat, setLo_toNat, append_toNat]
  omega

theorem tableSet_tableSet {α : Type} (t : Vector α 256) (b : Byte) (x y : α) :
    tableSet (tableSet t b x) b y = tableSet t b y :=
  Vector.set_set ..

theorem getLastD_allBytes (b : Byte) : allBytes.getLastD b = 0xFF#8 := by
  rw [allBytes, List.range_succ, List.map_append, List.map_singleton, List.getLastD_concat]

theorem getElem?_allBytes_toNat (b : Byte) : allBytes[b.toNat]? = some b := by
  simp [allBytes, b.isLt]

/-! ### LOADFREQ -/

/-- The three writes of one byte value set its counter (R41, R282). -/
theorem run_hostLoadByte (c : Byte → Count) (b : Byte) (l : List Byte) {s : State} {rest : List HostEvent}
    (hq : s.seq = .idle) :
    run 3 (s.withScript (hostLoadFrom c (b :: l) ++ rest)) =
      .next ({ s with freqIdx := b, freq := tableSet s.freq b (c b) }.withScript (hostLoadFrom c l ++ rest)) := by
  have hcounter (v : Count) : setHi (setLo v ((c b).extractLsb' 0 32)) ((c b).extractLsb' 32 32) = c b :=
    (setHi_setLo ..).trans (hiWord_append_loWord (c b))
  simp only [hostLoadFrom, List.cons_append]
  rw [run_hostWrite_idle .freqIdx 2 (by decide) hq, regWrite_freqIdx, run_hostWrite_idle .freqLo 1 (by decide),
    run_hostWrite_idle .freqHi 0 (by decide)]
  · simp only [run, regWrite, tableGet_tableSet_same, tableSet_tableSet, hcounter]
  all_goals exact hq

/-- The counters after those of the byte values of a list are set to the host's table. -/
def loadedFreq (c : Byte → Count) (l : List Byte) (freq : Vector Count 256) : Vector Count 256 :=
  l.foldl (fun f b => tableSet f b (c b)) freq

theorem tableGet_loadedFreq (c : Byte → Count) (l : List Byte) (freq : Vector Count 256) (b : Byte) :
    tableGet (loadedFreq c l freq) b = if b ∈ l then c b else tableGet freq b := by
  induction l generalizing freq with
  | nil => rfl
  | cons a l ih =>
    have hcons : loadedFreq c (a :: l) freq = loadedFreq c l (tableSet freq a (c a)) := rfl
    rw [hcons, ih, tableGet_tableSet]
    by_cases hl : b ∈ l <;> by_cases ha : b = a <;> simp [hl, ha]

/-- The writes of LOADFREQ for a list of byte values (R282). -/
theorem run_hostLoadFrom (c : Byte → Count) (l : List Byte) {s : State} {rest : List HostEvent}
    (hq : s.seq = .idle) :
    run (3 * l.length) (s.withScript (hostLoadFrom c l ++ rest)) =
      .next ({ s with freqIdx := l.getLastD s.freqIdx, freq := loadedFreq c l s.freq }.withScript rest) := by
  induction l generalizing s with
  | nil => rfl
  | cons b l ih =>
    rw [List.length_cons, Nat.mul_succ, Nat.add_comm, run_add 3 _ (run_hostLoadByte c b l hq), ih,
      List.getLastD_cons]
    · rfl
    · exact hq

/-- Settles O59: the writes store one counter after another, each byte value is in the list, and the read of STATUS
at the end shows REJECT as it was. -/
theorem loadFreqSetsEveryCounter : Obligations.LoadFreqSetsEveryCounter := by
  unfold Obligations.LoadFreqSetsEveryCounter
  intro s c hq hs
  have hstart : s = s.withScript (hostLoadFrom c allBytes ++ hostRead .status) := by rw [← hostLoadFreq, ← hs]; rfl
  have hload := run_hostLoadFrom c allBytes (rest := hostRead .status) hq
  have htable (b : Byte) : tableGet (loadedFreq c allBytes s.freq) b = c b := by
    rw [tableGet_loadedFreq, if_pos (mem_allBytes b)]
  rw [length_allBytes, getLastD_allBytes, ← hstart] at hload
  -- An opaque table: `rfl` below must not fold the 256 writes to compare two STATUS words.
  generalize loadedFreq c allBytes s.freq = f at hload htable
  refine ⟨f, s.statusWord, ?_, htable, ?_⟩
  · rw [run_add 768 1 hload, hostRead, run_hostRead_idle .status 0]
    · rfl
    · exact hq
  · obtain ⟨-, -, -, hreject, -⟩ := statusWord_fields s
    exact hreject

/-! ### SAVEFREQ -/

/-- The write of one byte value and the two reads record both halves of its counter (R41, R283). -/
theorem run_hostSaveByte (b : Byte) (l : List Byte) {s : State} (hq : s.seq = .idle) :
    run 3 (s.withScript (hostSaveFrom (b :: l))) = .next ({ s with
      freqIdx := b
      reads := s.reads ++ [loWord (tableGet s.freq b), hiWord (tableGet s.freq b)] }.withScript (hostSaveFrom l)) := by
  rw [hostSaveFrom, run_hostWrite_idle .freqIdx 2 (by decide) hq, regWrite_freqIdx, run_hostRead_idle .freqLo 1,
    run_hostRead_idle .freqHi 0]
  · simp only [run, regRead, logRead, List.append_assoc, List.cons_append, List.nil_append]
  all_goals exact hq

/-- The halves of the counters of a list of byte values, low word first. -/
def savedWords (freq : Vector Count 256) (l : List Byte) : List Word :=
  l.flatMap (fun b => [loWord (tableGet freq b), hiWord (tableGet freq b)])

theorem savedWords_cons (freq : Vector Count 256) (b : Byte) (l : List Byte) :
    savedWords freq (b :: l) = loWord (tableGet freq b) :: hiWord (tableGet freq b) :: savedWords freq l := rfl

theorem length_savedWords (freq : Vector Count 256) (l : List Byte) :
    (savedWords freq l).length = 2 * l.length := by
  induction l with
  | nil => rfl
  | cons b l ih => rw [savedWords_cons, List.length_cons, List.length_cons, ih, List.length_cons]; omega

/-- Words `2i` and `2i + 1` are the halves of the counter of the list's `i`-th byte value. -/
theorem savedWords_pair (freq : Vector Count 256) {l : List Byte} {i : Nat} {b : Byte} (h : l[i]? = some b) :
    (savedWords freq l).getD (2 * i + 1) 0#32 ++ (savedWords freq l).getD (2 * i) 0#32 = tableGet freq b := by
  induction l generalizing i with
  | nil => cases h
  | cons a l ih =>
    cases i with
    | zero =>
      cases h
      exact hiWord_append_loWord _
    | succ i => exact ih h

/-- The accesses of SAVEFREQ for a list of byte values (R283). -/
theorem run_hostSaveFrom (l : List Byte) {s : State} (hq : s.seq = .idle) :
    run (3 * l.length) (s.withScript (hostSaveFrom l)) = .next ({ s with
      freqIdx := l.getLastD s.freqIdx, reads := s.reads ++ savedWords s.freq l }.withScript []) := by
  induction l generalizing s with
  | nil =>
    rw [savedWords, List.flatMap_nil, List.append_nil]
    rfl
  | cons b l ih =>
    rw [List.length_cons, Nat.mul_succ, Nat.add_comm, run_add 3 _ (run_hostSaveByte b l hq), ih,
      List.getLastD_cons, List.append_assoc]
    · rfl
    · exact hq

/-- Settles O60: the reads are the halves of the counters in the order of the byte values. -/
theorem saveFreqReadsEveryCounter : Obligations.SaveFreqReadsEveryCounter := by
  unfold Obligations.SaveFreqReadsEveryCounter
  intro s hq hs hr
  have hstart : s = s.withScript (hostSaveFrom allBytes) := by rw [← hostSaveFreq, ← hs]; rfl
  have hsave := run_hostSaveFrom allBytes hq
  rw [length_allBytes, getLastD_allBytes, ← hstart, hr, List.nil_append] at hsave
  exact ⟨savedWords s.freq allBytes, hsave, by rw [length_savedWords, length_allBytes],
    fun b => savedWords_pair s.freq (getElem?_allBytes_toNat b)⟩

end Sys2Proof.Machine

namespace Sys2Proof.Machine

open Sys2Proof

/-! ### No step stops (R309)

A fault can only come from a walk or a cursor that leaves the tree, and the invariant has both in it. Where a rule
waits for the host it holds, which is a next state too. -/

/-- At an `InPop()` without an offered byte a rule holds (R86). -/
theorem ruleOf_holds {i : Instr} {s : State} (h : AtInPop i s) (hq : s.inQ = []) : ruleOf i s = .next s := by
  obtain ⟨f, hf, -⟩ := ruleOf_atInPop h
  rw [hf, inPop, hq]

/-- At an `InPop()` a rule holds or takes a byte: it does not stop. -/
theorem ruleOf_goesOn_atInPop {i : Instr} {s : State} (h : AtInPop i s) : ∃ t, ruleOf i s = .next t := by
  cases hq : s.inQ with
  | nil => exact ⟨s, ruleOf_holds h hq⟩
  | cons b rest =>
    obtain ⟨k, hp, hk⟩ := h
    cases i with
    | init | buildTree | buildCodes => exact absurd hk (Nat.not_lt_zero k)
    | record => exact ⟨_, recordRule_pop hp hk hq⟩
    | compress => exact ⟨_, compressRule_pop hp hk hq⟩
    | decompress => exact ⟨_, decompressRule_pop hp hk hq⟩

theorem recordRule_goesOn {s : State} (hp : PointOk (.run .record) s.point) : ∃ t, recordRule s = .next t := by
  rcases hp with hp | ⟨k, hp⟩
  · exact ⟨_, recordRule_entry hp⟩
  · obtain hk | hk := Nat.lt_or_ge k s.msgLen
    · exact ruleOf_goesOn_atInPop (i := .record) ⟨k, hp, hk⟩
    · exact ⟨_, recordRule_end hp hk⟩

/-- A walk of BUILD_CODES ends where the arena holds a tree, and without a tree there is none (R223, R155). -/
theorem buildCodesRule_goesOn {s : State} (ht : TreeInv s) : ∃ t, buildCodesRule s = .next t := by
  cases hv : s.treeValid with
  | false => exact ⟨_, buildCodesRule_of_no_tree hv⟩
  | true =>
    obtain ⟨code, hcode⟩ := (ht hv).codeTable_ok
    exact ⟨_, buildCodesRule_of_tree hv hcode⟩

theorem compressRule_goesOn {s : State} (hp : PointOk (.run .compress) s.point) : ∃ t, compressRule s = .next t := by
  rcases hp with hp | ⟨k, hp⟩ | ⟨k, b, j, hp⟩ | hp
  · exact ⟨_, compressRule_entry hp⟩
  · obtain hk | hk := Nat.lt_or_ge k s.msgLen
    · exact ruleOf_goesOn_atInPop (i := .compress) ⟨k, hp, hk⟩
    · exact ⟨_, compressRule_tail hp hk⟩
  · obtain hj | hj := Nat.lt_or_ge j (tableGet s.code b).len.toNat
    · exact ⟨_, compressRule_bit hp hj⟩
    · exact ⟨_, compressRule_codeEnd hp hj⟩
  · exact ⟨_, compressRule_end hp⟩

/-- The cursor of DECOMPRESS is at a node as long as bits are decoded (R263). -/
theorem decompressRule_goesOn {s : State} (hp : PointOk (.run .decompress) s.point) (ht : TreeInv s)
    (hc : s.point ≠ .entry → s.pend.code = .none → CursorOk s) : ∃ t, decompressRule s = .next t := by
  rcases hp with hp | ⟨q, hp⟩ | ⟨q, byte, k, hp, -⟩
  · exact ⟨_, decompressRule_entry hp⟩
  · obtain hq | hq := Nat.lt_or_ge q s.packedLen
    · exact ruleOf_goesOn_atInPop (i := .decompress) ⟨q, hp, hq⟩
    · exact ⟨_, decompressRule_end hp hq⟩
  · obtain ⟨t, hstep⟩ := exists_unpackStep ht (hc (by simp [hp])) q byte k
    exact ⟨_, decompressRule_bit hp hstep⟩

/-- The rule of a running command has a next state, whatever the host has offered (R309). -/
theorem ruleOf_goesOn {i : Instr} {s : State} (hs : Inv s) (hq : s.seq = .run i) : ∃ t, ruleOf i s = .next t := by
  have hp := hs.control.pointOk
  rw [hq] at hp
  cases i with
  | init => exact ⟨_, rfl⟩
  | record => exact recordRule_goesOn hp
  | buildTree => exact ⟨_, rfl⟩
  | buildCodes => exact buildCodesRule_goesOn hs.tree
  | compress => exact compressRule_goesOn hp
  | decompress => exact decompressRule_goesOn hp hs.tree (hs.cursor hq)

/-- A running command holds at a full output slot (R87), or its rule goes on. -/
theorem exec_goesOn {i : Instr} {s : State} (hs : Inv s) (hq : s.seq = .run i) : ∃ t, exec i s = .next t := by
  cases ho : s.outSlot with
  | none =>
    rw [exec_running ⟨hq, ho⟩]
    exact ruleOf_goesOn hs hq
  | some v => exact ⟨s, by rw [exec_eq_runCommand, runCommand_held hq ho]⟩

/-- Settles O53: a step without a command has a next state; a command that it steps is running, or an IDLE engine
accepts it. -/
theorem invariantStatesAreSafe : Obligations.InvariantStatesAreSafe := by
  unfold Obligations.InvariantStatesAreSafe
  intro s hs
  obtain ⟨t, -, hstep⟩ | ⟨i, u, hturn, hstep⟩ := step_cases s
  · exact ⟨t, hstep⟩
  · unfold StepSafe
    rw [hstep]
    obtain ⟨hq, rfl⟩ | ⟨hq, hu, -⟩ := turn_some hturn
    · exact exec_goesOn (hs.withScript s.script.tail) hq
    · exact ⟨_, exec_idle (hu.seq.trans hq)⟩

end Sys2Proof.Machine

namespace Sys2Proof.Machine

open Sys2Proof

/-! ### The reset edge and the end of RESET_INIT (R340, R341) -/

/-- A reset edge needs no turn of the engine, so it is the same step in every state of the sequencer (R340). -/
theorem step_reset {s : State} {rest : List HostEvent} (h : s.script = .reset :: rest) :
    step s = .next (hardReset (s.withScript rest)) :=
  step_of_turn_none (by rw [turn, h]; rfl)

/-- Settles O18: `hardReset` makes the two tables constant, gives every other piece of the block's state a plain
value and keeps the host's part. -/
theorem resetAbandonsTheCommand : Obligations.ResetAbandonsTheCommand := by
  unfold Obligations.ResetAbandonsTheCommand
  intro s rest h
  exact ⟨_, step_reset h, rfl, rfl, rfl, rfl, rfl, rfl, rfl, rfl, rfl, rfl, rfl, rfl, rfl, rfl, rfl, rfl, rfl, rfl,
    tableGet_replicate _, rfl, rfl, tableGet_replicate _, rfl, rfl, rfl, rfl, rfl, rfl, rfl, rfl⟩

theorem engineTurn_resetInit {s : State} (h : s.seq = .resetInit) : engineTurn s = (none, endResetInit s) := by
  unfold engineTurn
  rw [h]

/-- Where no event comes, RESET_INIT ends by itself (R341, R361). -/
theorem step_resetInit_of_no_event {s : State} (h : s.script = []) (hq : s.seq = .resetInit) :
    step s = .next (endResetInit s) :=
  step_of_turn_none (by rw [turn, h]; exact engineTurn_resetInit hq)

/-- A scripted turn of the engine ends RESET_INIT before the events after it (R341). -/
theorem step_resetInit_engine {s : State} {rest : List HostEvent} (h : s.script = .engine :: rest)
    (hq : s.seq = .resetInit) : step s = .next (endResetInit (s.withScript rest)) :=
  step_of_turn_none (by rw [turn, h]; exact engineTurn_resetInit (s := s.withScript rest) hq)

/-- Settles O19: both forms of the engine's turn are `endResetInit`, whose tables are constant. -/
theorem resetInitClearsTheMemories : Obligations.ResetInitClearsTheMemories := by
  unfold Obligations.ResetInitClearsTheMemories
  intro s hq
  exact ⟨_, _, fun h => step_resetInit_of_no_event h hq, fun rest h => step_resetInit_engine h hq,
    tableGet_replicate 0#64, tableGet_replicate CodeEntry.absent⟩

end Sys2Proof.Machine
